-- ==== Sys2Proof/Word.lean ====
section
/-! DEFINITION. The word types of the block: bus words, command words, bytes and limbs
(00_scope.md R12, R13; 30_encoding.md R67). -/

namespace Sys2Proof

/-- A byte of BUF (20_memory.md R47). -/
abbrev Byte := BitVec 8

/-- A word of the 32-bit host bus, the width of RES, CMD_LO and CMD_HI (10_state.md R29, R33). -/
abbrev BusWord := BitVec 32

/-- A command word (30_encoding.md R67). -/
abbrev CmdWord := BitVec 64

/-- An element of a value's limb list: a limb `0 .. RADIX-1`, or the poison marker `⊥`, written
`none` (00_scope.md R13, 10_state.md R21). -/
abbrev Limb := Option Nat

end Sys2Proof
end

