-- ==== Sys2Proof/Syntax.lean ====
section
/-! DEFINITION. The command set: one constructor per row of spec/opcode_table.json
(30_encoding.md R69, R70). Every operand is the unsigned natural of its field (R71). -/

namespace Sys2Proof

/-- The 31 commands of 30_encoding.md R69, in the table's order. `ha`, `hb` are handle numbers, `imm`
the 32-bit immediate, `addr` and `len` BUF fields, `n` a count of limbs, `slot` a modulus slot, and
`skip`, `mod`, `rel` the flag FL[0] (R68). -/
inductive Instr where
  | ctxopen
  | ctxclose
  | query (ha imm : Nat)
  | alloc (skip : Bool) (n : Nat)
  | alloci (imm : Nat)
  | load (addr len : Nat)
  | save (ha addr len : Nat)
  | hex (ha addr : Nat)
  | release (ha : Nat)
  | copy (ha : Nat)
  | clone (ha : Nat)
  | setperm (ha : Nat)
  | rstperm (ha : Nat) (rel : Bool)
  | resize (ha : Nat) (skip : Bool) (n : Nat)
  | trim (ha : Nat)
  | lshift (ha n : Nat)
  | rshift (ha n : Nat)
  | iszero (ha : Nat)
  | bitset (ha imm : Nat)
  | bitcount (ha : Nat)
  | cmp (ha hb : Nat)
  | add (ha hb : Nat)
  | sub (ha hb : Nat)
  | mul (ha hb : Nat)
  | imul (ha imm : Nat)
  | div (ha hb : Nat) (mod : Bool)
  | idiv (ha imm : Nat)
  | setmod (ha slot : Nat)
  | rstmod (slot : Nat)
  | selmod (slot : Nat)
  | barrett (ha : Nat)
  deriving DecidableEq, Repr

end Sys2Proof
end

