-- ==== Sys2Proof/WellFormed.lean ====
section
/-! DEFINITION. A command is well formed when each operand fits its field (30_encoding.md R68, R71).
The ranges that depend on the state (CAPACITY, BUF_RANGE, BAD_SLOT and so on) are checks of the
command's rule, not of its form. -/

namespace Sys2Proof

/-- HA and HB are 8-bit fields (30_encoding.md R68). -/
def fitsHandle (h : Nat) : Bool := decide (h < 256)

/-- ADDR, LEN and N are 16-bit fields (30_encoding.md R68). -/
def fitsHalf (n : Nat) : Bool := decide (n < 65536)

/-- IMM is a 32-bit field (30_encoding.md R68). -/
def fitsImm (n : Nat) : Bool := decide (n < 4294967296)

/-- SLOT is a 2-bit field; 3 is well formed and faults with BAD_SLOT (30_encoding.md R68). -/
def fitsSlot (n : Nat) : Bool := decide (n < 4)

/-- Every operand of the command fits its field (30_encoding.md R68, R70, R71). -/
def Instr.wellFormed : Instr → Bool
  | .ctxopen => true
  | .ctxclose => true
  | .query ha imm => fitsHandle ha && fitsImm imm
  | .alloc _ n => fitsHalf n
  | .alloci imm => fitsImm imm
  | .load addr len => fitsHalf addr && fitsHalf len
  | .save ha addr len => fitsHandle ha && fitsHalf addr && fitsHalf len
  | .hex ha addr => fitsHandle ha && fitsHalf addr
  | .release ha => fitsHandle ha
  | .copy ha => fitsHandle ha
  | .clone ha => fitsHandle ha
  | .setperm ha => fitsHandle ha
  | .rstperm ha _ => fitsHandle ha
  | .resize ha _ n => fitsHandle ha && fitsHalf n
  | .trim ha => fitsHandle ha
  | .lshift ha n => fitsHandle ha && fitsHalf n
  | .rshift ha n => fitsHandle ha && fitsHalf n
  | .iszero ha => fitsHandle ha
  | .bitset ha imm => fitsHandle ha && fitsImm imm
  | .bitcount ha => fitsHandle ha
  | .cmp ha hb => fitsHandle ha && fitsHandle hb
  | .add ha hb => fitsHandle ha && fitsHandle hb
  | .sub ha hb => fitsHandle ha && fitsHandle hb
  | .mul ha hb => fitsHandle ha && fitsHandle hb
  | .imul ha imm => fitsHandle ha && fitsImm imm
  | .div ha hb _ => fitsHandle ha && fitsHandle hb
  | .idiv ha imm => fitsHandle ha && fitsImm imm
  | .setmod ha slot => fitsHandle ha && fitsSlot slot
  | .rstmod slot => fitsSlot slot
  | .selmod slot => fitsSlot slot
  | .barrett ha => fitsHandle ha

end Sys2Proof
end

