-- ==== Sys2Proof/Decode.lean ====
section
/-! DEFINITION. Decoding and encoding of the 64-bit command word (30_encoding.md R67 to R76). The
opcode map, the formats' masks and the field positions are those of R68, R69 and R70; a word is
accepted exactly when `(word AND mask) = OP << 56` for its opcode, and refused by name otherwise. -/

namespace Sys2Proof

/-- The opcodes of 30_encoding.md R69, one per command. -/
inductive Opcode where
  | ctxopen | ctxclose | query | alloc | alloci | load | save | hex
  | release | copy | clone | setperm | rstperm | resize | trim | lshift | rshift
  | iszero | bitset | bitcount | cmp | add | sub | mul | imul | div | idiv
  | setmod | rstmod | selmod | barrett
  deriving DecidableEq, Repr

/-- The formats of 30_encoding.md R70. -/
inductive Format where
  | n | h | hf | hh | hhf | hi | hn | hfn | fn | i | b | hb | hx | hs | s
  deriving DecidableEq, Repr

/-- Why a word is no command; both fault with ILLEGAL_COMMAND (30_encoding.md R72, R73). -/
inductive DecodeError where
  /-- The OP value is not in the opcode map (R73). Raised by `decode`; the engine takes ILLEGAL_COMMAND. -/
  | undefinedOpcode
  /-- A reserved bit of the format is 1 (R72). Raised by `decode`; the engine takes ILLEGAL_COMMAND. -/
  | reservedBit
  deriving DecidableEq, Repr

/-- The OP value of a command (30_encoding.md R69). -/
def Opcode.code : Opcode → BitVec 8
  | .ctxopen => 0x01#8 | .ctxclose => 0x02#8 | .query => 0x03#8
  | .alloc => 0x08#8 | .alloci => 0x09#8 | .load => 0x0A#8 | .save => 0x0B#8 | .hex => 0x0C#8
  | .release => 0x10#8 | .copy => 0x11#8 | .clone => 0x12#8 | .setperm => 0x13#8 | .rstperm => 0x14#8
  | .resize => 0x18#8 | .trim => 0x19#8 | .lshift => 0x1A#8 | .rshift => 0x1B#8
  | .iszero => 0x20#8 | .bitset => 0x21#8 | .bitcount => 0x22#8 | .cmp => 0x23#8
  | .add => 0x30#8 | .sub => 0x31#8 | .mul => 0x38#8 | .imul => 0x39#8
  | .div => 0x40#8 | .idiv => 0x41#8
  | .setmod => 0x48#8 | .rstmod => 0x49#8 | .selmod => 0x4A#8 | .barrett => 0x4B#8

/-- The opcode map read the other way; every other OP value is undefined (30_encoding.md R69, R73). -/
def Opcode.ofCode (c : BitVec 8) : Option Opcode :=
  match c.toNat with
  | 0x01 => some .ctxopen | 0x02 => some .ctxclose | 0x03 => some .query
  | 0x08 => some .alloc | 0x09 => some .alloci | 0x0A => some .load | 0x0B => some .save
  | 0x0C => some .hex
  | 0x10 => some .release | 0x11 => some .copy | 0x12 => some .clone | 0x13 => some .setperm
  | 0x14 => some .rstperm
  | 0x18 => some .resize | 0x19 => some .trim | 0x1A => some .lshift | 0x1B => some .rshift
  | 0x20 => some .iszero | 0x21 => some .bitset | 0x22 => some .bitcount | 0x23 => some .cmp
  | 0x30 => some .add | 0x31 => some .sub | 0x38 => some .mul | 0x39 => some .imul
  | 0x40 => some .div | 0x41 => some .idiv
  | 0x48 => some .setmod | 0x49 => some .rstmod | 0x4A => some .selmod | 0x4B => some .barrett
  | _ => none

/-- The format of each command (30_encoding.md R69). -/
def Opcode.format : Opcode → Format
  | .ctxopen => .n | .ctxclose => .n | .query => .hi
  | .alloc => .fn | .alloci => .i | .load => .b | .save => .hb | .hex => .hx
  | .release => .h | .copy => .h | .clone => .h | .setperm => .h | .rstperm => .hf
  | .resize => .hfn | .trim => .h | .lshift => .hn | .rshift => .hn
  | .iszero => .h | .bitset => .hi | .bitcount => .h | .cmp => .hh
  | .add => .hh | .sub => .hh | .mul => .hh | .imul => .hi
  | .div => .hhf | .idiv => .hi
  | .setmod => .hs | .rstmod => .s | .selmod => .s | .barrett => .h

/-- The mask of each format: OP and every reserved bit (30_encoding.md R70). -/
def Format.mask : Format → CmdWord
  | .n   => 0xFFFFFFFFFFFFFFFF#64
  | .h   => 0xFF00FFFFFFFFFFFF#64
  | .hf  => 0xFF00FFFEFFFFFFFF#64
  | .hh  => 0xFF0000FFFFFFFFFF#64
  | .hhf => 0xFF0000FEFFFFFFFF#64
  | .hi  => 0xFF00FFFF00000000#64
  | .hn  => 0xFF00FFFFFFFF0000#64
  | .hfn => 0xFF00FFFEFFFF0000#64
  | .fn  => 0xFFFFFFFEFFFF0000#64
  | .i   => 0xFFFFFFFF00000000#64
  | .b   => 0xFFFFFFFF00000000#64
  | .hb  => 0xFF00FFFF00000000#64
  | .hx  => 0xFF00FFFF0000FFFF#64
  | .hs  => 0xFF00FFFCFFFFFFFF#64
  | .s   => 0xFFFFFFFCFFFFFFFF#64

/-- `OP << 56`, what the masked word must equal (30_encoding.md R70, R76). -/
def Opcode.pattern (o : Opcode) : CmdWord := o.code.setWidth 64 <<< 56

/-- OP, bits 63:56 (30_encoding.md R68). -/
def opField (w : CmdWord) : BitVec 8 := w.extractLsb' 56 8
/-- HA, bits 55:48 (30_encoding.md R68). -/
def haField (w : CmdWord) : Nat := (w.extractLsb' 48 8).toNat
/-- HB, bits 47:40 (30_encoding.md R68). -/
def hbField (w : CmdWord) : Nat := (w.extractLsb' 40 8).toNat
/-- FL[0], bit 32: SKIP, MOD or REL (30_encoding.md R68). -/
def flagField (w : CmdWord) : Bool := w.getLsbD 32
/-- SLOT, FL[1:0], bits 33:32 (30_encoding.md R68). -/
def slotField (w : CmdWord) : Nat := (w.extractLsb' 32 2).toNat
/-- IMM, bits 31:0 (30_encoding.md R68). -/
def immField (w : CmdWord) : Nat := (w.extractLsb' 0 32).toNat
/-- ADDR, bits 31:16 (30_encoding.md R68). -/
def addrField (w : CmdWord) : Nat := (w.extractLsb' 16 16).toNat
/-- LEN and N, bits 15:0 (30_encoding.md R68). -/
def lowField (w : CmdWord) : Nat := (w.extractLsb' 0 16).toNat

/-- The command of an opcode with its operand fields (30_encoding.md R68, R69, R71). -/
def Opcode.build (o : Opcode) (w : CmdWord) : Instr :=
  match o with
  | .ctxopen => .ctxopen
  | .ctxclose => .ctxclose
  | .query => .query (haField w) (immField w)
  | .alloc => .alloc (flagField w) (lowField w)
  | .alloci => .alloci (immField w)
  | .load => .load (addrField w) (lowField w)
  | .save => .save (haField w) (addrField w) (lowField w)
  | .hex => .hex (haField w) (addrField w)
  | .release => .release (haField w)
  | .copy => .copy (haField w)
  | .clone => .clone (haField w)
  | .setperm => .setperm (haField w)
  | .rstperm => .rstperm (haField w) (flagField w)
  | .resize => .resize (haField w) (flagField w) (lowField w)
  | .trim => .trim (haField w)
  | .lshift => .lshift (haField w) (lowField w)
  | .rshift => .rshift (haField w) (lowField w)
  | .iszero => .iszero (haField w)
  | .bitset => .bitset (haField w) (immField w)
  | .bitcount => .bitcount (haField w)
  | .cmp => .cmp (haField w) (hbField w)
  | .add => .add (haField w) (hbField w)
  | .sub => .sub (haField w) (hbField w)
  | .mul => .mul (haField w) (hbField w)
  | .imul => .imul (haField w) (immField w)
  | .div => .div (haField w) (hbField w) (flagField w)
  | .idiv => .idiv (haField w) (immField w)
  | .setmod => .setmod (haField w) (slotField w)
  | .rstmod => .rstmod (slotField w)
  | .selmod => .selmod (slotField w)
  | .barrett => .barrett (haField w)

/-- Decoding, total on any 64-bit word (30_encoding.md R76). -/
def decode (w : CmdWord) : Except DecodeError Instr :=
  match Opcode.ofCode (opField w) with
  | none => .error .undefinedOpcode
  | some o => if w &&& o.format.mask = o.pattern then .ok (o.build w) else .error .reservedBit

/-- The opcode of a command (30_encoding.md R69). -/
def Instr.opcode : Instr → Opcode
  | .ctxopen => .ctxopen | .ctxclose => .ctxclose | .query _ _ => .query
  | .alloc _ _ => .alloc | .alloci _ => .alloci | .load _ _ => .load | .save _ _ _ => .save
  | .hex _ _ => .hex | .release _ => .release | .copy _ => .copy | .clone _ => .clone
  | .setperm _ => .setperm | .rstperm _ _ => .rstperm | .resize _ _ _ => .resize
  | .trim _ => .trim | .lshift _ _ => .lshift | .rshift _ _ => .rshift | .iszero _ => .iszero
  | .bitset _ _ => .bitset | .bitcount _ => .bitcount | .cmp _ _ => .cmp | .add _ _ => .add
  | .sub _ _ => .sub | .mul _ _ => .mul | .imul _ _ => .imul | .div _ _ _ => .div
  | .idiv _ _ => .idiv | .setmod _ _ => .setmod | .rstmod _ => .rstmod | .selmod _ => .selmod
  | .barrett _ => .barrett

/-- The word `OP<<56 | HA<<48 | HB<<40 | FL<<32 | IMM` (30_encoding.md R78). -/
def assemble (op ha hb fl : BitVec 8) (imm : BitVec 32) : CmdWord := op ++ ha ++ hb ++ fl ++ imm

/-- FL with FL[0] the flag and the other bits 0 (30_encoding.md R68). -/
def flagByte (b : Bool) : BitVec 8 := if b then 1#8 else 0#8

/-- IMM made of ADDR in its upper and LEN (or N) in its lower half (30_encoding.md R68). -/
def pairImm (addr low : Nat) : BitVec 32 := BitVec.ofNat 16 addr ++ BitVec.ofNat 16 low

/-- The command word of a well-formed command; a field its format does not use is 0
(30_encoding.md R70, R78). -/
def encode (i : Instr) : CmdWord :=
  let op := i.opcode.code
  match i with
  | .ctxopen => assemble op 0 0 0 0
  | .ctxclose => assemble op 0 0 0 0
  | .query ha imm => assemble op (.ofNat 8 ha) 0 0 (.ofNat 32 imm)
  | .alloc skip n => assemble op 0 0 (flagByte skip) (pairImm 0 n)
  | .alloci imm => assemble op 0 0 0 (.ofNat 32 imm)
  | .load addr len => assemble op 0 0 0 (pairImm addr len)
  | .save ha addr len => assemble op (.ofNat 8 ha) 0 0 (pairImm addr len)
  | .hex ha addr => assemble op (.ofNat 8 ha) 0 0 (pairImm addr 0)
  | .release ha => assemble op (.ofNat 8 ha) 0 0 0
  | .copy ha => assemble op (.ofNat 8 ha) 0 0 0
  | .clone ha => assemble op (.ofNat 8 ha) 0 0 0
  | .setperm ha => assemble op (.ofNat 8 ha) 0 0 0
  | .rstperm ha rel => assemble op (.ofNat 8 ha) 0 (flagByte rel) 0
  | .resize ha skip n => assemble op (.ofNat 8 ha) 0 (flagByte skip) (pairImm 0 n)
  | .trim ha => assemble op (.ofNat 8 ha) 0 0 0
  | .lshift ha n => assemble op (.ofNat 8 ha) 0 0 (pairImm 0 n)
  | .rshift ha n => assemble op (.ofNat 8 ha) 0 0 (pairImm 0 n)
  | .iszero ha => assemble op (.ofNat 8 ha) 0 0 0
  | .bitset ha imm => assemble op (.ofNat 8 ha) 0 0 (.ofNat 32 imm)
  | .bitcount ha => assemble op (.ofNat 8 ha) 0 0 0
  | .cmp ha hb => assemble op (.ofNat 8 ha) (.ofNat 8 hb) 0 0
  | .add ha hb => assemble op (.ofNat 8 ha) (.ofNat 8 hb) 0 0
  | .sub ha hb => assemble op (.ofNat 8 ha) (.ofNat 8 hb) 0 0
  | .mul ha hb => assemble op (.ofNat 8 ha) (.ofNat 8 hb) 0 0
  | .imul ha imm => assemble op (.ofNat 8 ha) 0 0 (.ofNat 32 imm)
  | .div ha hb mod => assemble op (.ofNat 8 ha) (.ofNat 8 hb) (flagByte mod) 0
  | .idiv ha imm => assemble op (.ofNat 8 ha) 0 0 (.ofNat 32 imm)
  | .setmod ha slot => assemble op (.ofNat 8 ha) 0 (.ofNat 8 slot) 0
  | .rstmod slot => assemble op 0 0 (.ofNat 8 slot) 0
  | .selmod slot => assemble op 0 0 (.ofNat 8 slot) 0
  | .barrett ha => assemble op (.ofNat 8 ha) 0 0 0

/-- The command the decoder reads from a word numbered as spec/opcode_table.json numbers it: one
64-bit word, bit 0 its least significant bit; the bits at and above `nbits` are 0. -/
def decodeTableWord (nbits w : Nat) : Option Instr :=
  (decode (BitVec.ofNat 64 (w % 2 ^ nbits))).toOption

end Sys2Proof
end

