-- ==== Sys2Proof/Config.lean ====
section
/-! DEFINITION. What an instance of the block fixes (00_scope.md R5 to R11), the block's constants,
and the free values of the model. -/

namespace Sys2Proof

/-- The instance parameters of 00_scope.md R5, R7, R8, R9 and R10, with the spec's defaults. -/
structure Params where
  /-- `W`, the limb width in bits (R5). -/
  w : Nat := 32
  /-- `NH`, the number of handles (R7). -/
  nh : Nat := 64
  /-- `LMAX`, the largest length of a value in limbs (R8). -/
  lmax : Nat := 512
  /-- `BUFSZ`, the size of BUF in bytes (R9). -/
  bufsz : Nat := 65536
  /-- `RCMAX`, the largest reference count (R10). -/
  rcmax : Nat := 4294967294
  deriving DecidableEq, Repr

/-- `RADIX = 2^W` (00_scope.md R6; the hard-wired radix constant of 10_state.md R24). -/
def Params.radix (p : Params) : Nat := 2 ^ p.w

/-- `BPL = W / 8`, the bytes of a limb (00_scope.md R6). -/
def Params.bpl (p : Params) : Nat := p.w / 8

/-- The legal parameter values (00_scope.md R5, R7, R8, R9, R10). -/
abbrev Params.Legal (p : Params) : Prop :=
  (p.w = 16 ∨ p.w = 32) ∧ (1 ≤ p.nh ∧ p.nh ≤ 255) ∧ (4 ≤ p.lmax ∧ p.lmax ≤ 65535) ∧
    (1 ≤ p.bufsz ∧ p.bufsz ≤ 65536) ∧ 2 ≤ p.rcmax

/-- The null handle `NULL` (00_scope.md R7, 10_state.md R22). -/
def nullHandle : Nat := 0xFF

/-- The identification value "MADD" (00_scope.md R1, 10_state.md R33). -/
def idValue : BusWord := 0x4D414444#32

/-- FREE VALUE: the word the `n`-th host read of unspecified content would return (93 U15, U16, U17;
10_state.md R33, R34; 20_memory.md R59). Nothing constrains it. DESIGN CHOICE of form, log 3; safe. -/
opaque Config.freeWord : Nat → BusWord

/-- FREE VALUE: what the 32-bit `RES` shows of a count of `2^32` or more, which only an instance with
`RCMAX >= 2^32` can hold (00_scope.md R10 allows it and gives no value). DESIGN CHOICE, log 10; safe. -/
opaque Config.wideCount : Nat → BusWord

end Sys2Proof
end

