-- ==== Sys2Proof/Machine/State.lean ====
section
/-! DEFINITION. The architectural state of the block (10_state.md R15 to R45, 20_memory.md R46 to R50),
the ways a step of the model can stop, and the state after reset (R44). Plain data throughout. -/

namespace Sys2Proof.Machine

/-- The four pool states of a handle-table entry (10_state.md R18). -/
inductive EntryState where
  | unused | free | live | perm
  deriving DecidableEq, Repr

/-- An entry `H[h]` of the handle table (10_state.md R17). `len` is `|limbs|` (R19, log 5). An entry
that is UNUSED or FREE holds no value: `limbs` is then empty (R17, R18, log 6). -/
structure Entry where
  st : EntryState
  rc : Nat
  limbs : List Limb
  deriving DecidableEq, Repr

/-- The entry of a handle never allocated in this context (10_state.md R18). -/
def Entry.unused : Entry := { st := .unused, rc := 0, limbs := [] }

/-- `H[h].len` (10_state.md R17, R19). -/
def Entry.len (e : Entry) : Nat := e.limbs.length

/-- The contents of a valid modulus slot (10_state.md R25). -/
structure ModSlot where
  modh : Nat
  k : Nat
  d : Nat
  norm : Nat
  mu : Nat
  rk1 : Nat
  deriving DecidableEq, Repr

/-- The three modulus slots `MS[0] .. MS[2]`; `MS[s].valid` is 1 when the slot holds `some` contents
(00_scope.md R11, 10_state.md R25). -/
structure Slots where
  s0 : Option ModSlot
  s1 : Option ModSlot
  s2 : Option ModSlot
  deriving DecidableEq, Repr

/-- All three slots invalid (10_state.md R44). -/
def Slots.empty : Slots := { s0 := none, s1 := none, s2 := none }

/-- The names of the fault codes of 60_exceptions.md R114; no other value is ever in FCODE. -/
inductive FaultCode where
  | none | nullContext | poolConsistency | permMisuse
  | illegalCommand | invalidHandle | operandAlias | permanentReceiver | sharedReceiver
  | modBound | ctxState | badSlot | slotBusy | noModulus | badLength | badOperand | bufRange
  | undefinedData | divideByZero | badModulus
  | capacity | saveOverflow | refcountOverflow | poolExhausted | busConflict
  deriving DecidableEq, Repr

/-- The access widths of the host bus (20_memory.md R58). -/
inductive Width where
  | b8 | b16 | b32
  deriving DecidableEq, Repr

/-- What happens next outside the engine (10_state.md R15, R36; 70_reset_and_hazards.md R131). The
model's own: the host agent as plain data, log 2. -/
inductive HostEvent where
  /-- A host write of the low bits of `data` at a window offset (10_state.md R33, R36). -/
  | write (width : Width) (offset : Nat) (data : BusWord)
  /-- A host read at a window offset (10_state.md R33). -/
  | read (width : Width) (offset : Nat)
  /-- The host lets the engine step happen, if one is enabled (10_state.md R36). -/
  | engine
  /-- The platform asserts reset (70_reset_and_hazards.md R131). -/
  | reset
  deriving DecidableEq, Repr

/-- The machine. -/
structure State where
  /-- The instance parameters; nothing writes them (00_scope.md R5 to R10, log 1). -/
  par : Params
  /-- The handle table `H` (10_state.md R16). -/
  table : List Entry
  /-- The free list `FL`, top first (10_state.md R23). -/
  free : List Nat
  /-- The modulus slots `MS` (10_state.md R25). -/
  ms : Slots
  /-- `CUR` (10_state.md R28). -/
  cur : Fin 3
  /-- `CTX` (10_state.md R27). -/
  ctx : Bool
  /-- `RES` (10_state.md R29). -/
  res : BusWord
  /-- `NEG` (10_state.md R30). -/
  neg : Bool
  /-- `HALTED` (10_state.md R31). -/
  halted : Bool
  /-- `FCODE` (10_state.md R31). -/
  fcode : FaultCode
  /-- `FCMD` (10_state.md R31). -/
  fcmd : CmdWord
  /-- `BUSY` (10_state.md R32). -/
  busy : Bool
  /-- `PCONF` (10_state.md R32). -/
  pconf : Bool
  /-- CMD_LO (10_state.md R33, R36). -/
  cmdLo : BusWord
  /-- CMD_HI (10_state.md R33, R36). -/
  cmdHi : BusWord
  /-- BUF, as the bytes that hold a value, addresses strictly rising; a byte not listed is `⊥`
  (20_memory.md R47, R59). -/
  buf : List Host.Cell
  /-- The model's own: what the host will do next, in order (log 2). -/
  script : List HostEvent
  /-- The model's own: what the host has read, newest first (log 2). -/
  reads : List BusWord
  /-- The model's own: the counter of free values for unspecified reads (log 3). -/
  draws : Nat
  deriving DecidableEq, Repr

/-- Why the model stops for good. No command of the block does: a command's fault is a next state
(60_exceptions.md R118). -/
inductive Fault where
  /-- Raised by a host access at an offset outside the 17-bit window (10_state.md R33): there is no such
  address. Safe: the model stops where no access of the block exists. -/
  | noSuchOffset
  deriving DecidableEq, Repr

/-- Why the model gives no move. -/
inductive Refusal where
  /-- Raised by an arm of `exec` whose instruction has no meaning yet. Safe. No arm raises it. -/
  | notModelled (mnemonic : String)
  /-- Raised by a host access of a width or alignment the bus does not support (20_memory.md R58,
  93 U19: "refuse (the model gives no move)"). Unsafe for host programs that make such accesses (D39). -/
  | hostAccess
  deriving DecidableEq, Repr

/-- The state after reset of the instance with parameters `p`: every field at the value of
10_state.md R44; the model's own fields empty (logs 2, 3). -/
def State.resetWith (p : Params) : State :=
  { par := p
    table := List.replicate p.nh Entry.unused
    free := []
    ms := Slots.empty
    cur := 0
    ctx := false
    res := 0
    neg := false
    halted := false
    fcode := .none
    fcmd := 0
    busy := false
    pconf := false
    cmdLo := 0
    cmdHi := 0
    buf := []
    script := []
    reads := []
    draws := 0 }

/-- The state after reset of the instance with the default parameters (00_scope.md R5 to R10; log 1). -/
def State.reset : State := State.resetWith {}

end Sys2Proof.Machine
end

