-- ==== Sys2Proof/Machine/Values.lean ====
section
/-! DEFINITION. The value notation of 00_scope.md R13 and R14 and the arithmetic on limb and byte lists
that the command rules use. Everything is on naturals; `r` is `RADIX`. -/

namespace Sys2Proof.Machine

/-- The limbs of a list with no `⊥`, and nothing for a list that contains `⊥` (10_state.md R21). -/
def readLimbs : List Limb → Option (List Nat)
  | [] => some []
  | none :: _ => none
  | some x :: L => (readLimbs L).map (x :: ·)

/-- A value's limbs as written to an entry: none of them is `⊥`. -/
def putLimbs (L : List Nat) : List Limb := L.map some

/-- `val(L)`: the sum of `L[i] * RADIX^i` (00_scope.md R13). -/
def val (r : Nat) : List Nat → Nat
  | [] => 0
  | x :: L => x + r * val r L

/-- `digits(v, n)`: the `n` limbs of `v`, least significant first (00_scope.md R13). -/
def digits (r v : Nat) : Nat → List Nat
  | 0 => []
  | n + 1 => v % r :: digits r (v / r) n

/-- The number of bits of `v`: 0 for 0, else `1 + floor(log2 v)` (40_limb_buffer_values.md R85). -/
def bitLength (v : Nat) : Nat := if v = 0 then 0 else 1 + Nat.log2 v

/-- `sig(v)`: the number of base-`2^w` digits of `v`, 0 for 0 (00_scope.md R13). -/
def sig (w v : Nat) : Nat := (bitLength v + (w - 1)) / w

/-- `tlen(v) = max(1, sig(v))` (00_scope.md R13). -/
def tlen (w v : Nat) : Nat := max 1 (sig w v)

/-- `trimmed(v) = digits(v, tlen(v))`, in limbs of `w` bits (00_scope.md R13). -/
def trimmed (w v : Nat) : List Nat := digits (2 ^ w) v (tlen w v)

/-- `toplimb(L) = L[|L|-1]` (00_scope.md R13); lists of values are never empty (10_state.md R19). -/
def topLimb (L : List Nat) : Nat := L.getLastD 0

/-- Limb-wise comparison from the first element on, of lists of one length
(40_limb_buffer_values.md R86). -/
def cmpFrom : List Nat → List Nat → Ordering
  | x :: A, y :: B => if x > y then .gt else if x < y then .lt else cmpFrom A B
  | _, _ => .eq

/-- `CmpLex`: length first, then limb-wise from most to least significant
(40_limb_buffer_values.md R86). -/
def cmpLex (A B : List Nat) : Ordering :=
  if A.length > B.length then .gt
  else if A.length < B.length then .lt
  else cmpFrom A.reverse B.reverse

/-- `BE(bs)`: the big-endian value of a byte list (00_scope.md R14, 20_memory.md R51). -/
def beValue (bs : List Byte) : Nat := val 256 (bs.reverse.map BitVec.toNat)

/-- `toBE(v, n)`: the `n` big-endian bytes of `v` (00_scope.md R14, 20_memory.md R51). -/
def toBE (v n : Nat) : List Byte := (digits 256 v n).reverse.map (BitVec.ofNat 8)

/-- `ceil(a / b)` (45_limb_buffer_context.md R105). -/
def ceilDiv (a b : Nat) : Nat := (a + (b - 1)) / b

/-- The ASCII code of a hexadecimal digit, upper case (40_limb_buffer_values.md R92). -/
def hexChar (x : Nat) : Byte := if x < 10 then BitVec.ofNat 8 (0x30 + x) else BitVec.ofNat 8 (0x41 + (x - 10))

/-- Two characters for each byte, in order (40_limb_buffer_values.md R92). -/
def hexText (bs : List Byte) : List Byte :=
  bs.flatMap fun b => [hexChar (b.toNat / 16), hexChar (b.toNat % 16)]

/-- `(L[i div W] >> (i mod W)) AND 1` (40_limb_buffer_values.md R84). -/
def bitAt (w : Nat) (L : List Nat) (i : Nat) : Nat := (L.getD (i / w) 0 >>> (i % w)) % 2

end Sys2Proof.Machine
end

