-- ==== Sys2Proof/Machine/Ops.lean ====
section
/-! DEFINITION. The named operations on the state: BUF, the handle table, the modulus slots, the pool
procedures of 10_state.md R38, R39, R40 and R45, taking a fault (60_exceptions.md R118) and the return
from one, which is reset (R120, 70_reset_and_hazards.md R131). -/

namespace Sys2Proof.Machine

/-! ### BUF (20_memory.md R47, R54, R55) -/

/-- The byte at an address of a cell list, `none` for `⊥` (20_memory.md R47, R59). -/
def memGet (m : List Host.Cell) (a : Nat) : Option Byte :=
  match m with
  | [] => none
  | c :: m => if c.1 = a then some c.2 else memGet m a

/-- Writes one byte, keeping addresses strictly rising. -/
def memSet (m : List Host.Cell) (a : Nat) (b : Byte) : List Host.Cell :=
  match m with
  | [] => [(a, b)]
  | c :: m => if a < c.1 then (a, b) :: c :: m else if c.1 = a then (a, b) :: m else c :: memSet m a b

/-- Writes a byte list at consecutive addresses (20_memory.md R55). -/
def memSetList (m : List Host.Cell) (a : Nat) : List Byte → List Host.Cell
  | [] => m
  | b :: bs => memSetList (memSet m a b) (a + 1) bs

/-- Reads `n` consecutive bytes, nothing if one of them is `⊥` (20_memory.md R54). -/
def memGetList (m : List Host.Cell) (a : Nat) : Nat → Option (List Byte)
  | 0 => some []
  | n + 1 =>
    match memGet m a, memGetList m (a + 1) n with
    | some b, some bs => some (b :: bs)
    | _, _ => none

/-- The canonical form of BUF: addresses strictly rising. A listed byte always differs from what an
unlisted address reads as, which is `⊥`. -/
def Memory.wf : List Host.Cell → Bool
  | [] => true
  | [_] => true
  | c :: d :: m => decide (c.1 < d.1) && Memory.wf (d :: m)

/-- `BUF[a]`; an address at or above `BUFSZ` holds no byte (20_memory.md R47). -/
def State.byteAt (s : State) (a : Nat) : Option Byte := memGet s.buf a

/-- `MemRead(addr, n)` (20_memory.md R54). -/
def State.memRead (s : State) (addr n : Nat) : Option (List Byte) := memGetList s.buf addr n

/-- `MemWrite(addr, n, bs)` with `n = |bs|` (20_memory.md R55). -/
def State.memWrite (s : State) (addr : Nat) (bs : List Byte) : State :=
  { s with buf := memSetList s.buf addr bs }

/-! ### The handle table and the slots -/

/-- `H[h]`; a number at or above `NH` names no entry and reads as UNUSED (10_state.md R16, R22). -/
def State.entry (s : State) (h : Nat) : Entry := s.table.getD h Entry.unused

/-- `H[h] <- e` (00_scope.md R14). -/
def State.setEntry (s : State) (h : Nat) (e : Entry) : State := { s with table := s.table.set h e }

/-- An entry that holds a value: LIVE or PERM (10_state.md R18). -/
def Entry.holds (e : Entry) : Bool := e.st == .live || e.st == .perm

/-- A handle number is valid when `h < NH` and the entry is LIVE or PERM (10_state.md R22). -/
def State.validHandle (s : State) (h : Nat) : Bool := decide (h < s.par.nh) && (s.entry h).holds

/-- `activeCount` (10_state.md R37). -/
def State.activeCount (s : State) : Nat := s.table.countP Entry.holds

/-- `MS[i]` (10_state.md R25). -/
def Slots.get (m : Slots) (i : Fin 3) : Option ModSlot :=
  match i with
  | 0 => m.s0
  | 1 => m.s1
  | 2 => m.s2

/-- `MS[i] <- v` (10_state.md R25). -/
def Slots.set (m : Slots) (i : Fin 3) (v : Option ModSlot) : Slots :=
  match i with
  | 0 => { m with s0 := v }
  | 1 => { m with s1 := v }
  | 2 => { m with s2 := v }

/-- A slot is valid with this handle as its modulus. -/
def ModSlot.isFor (h : Nat) : Option ModSlot → Bool
  | none => false
  | some m => m.modh == h

/-- `h` is `MS[s].modh` of a valid slot `s` (45_limb_buffer_context.md R108). -/
def Slots.bound (m : Slots) (h : Nat) : Bool :=
  ModSlot.isFor h m.s0 || ModSlot.isFor h m.s1 || ModSlot.isFor h m.s2

/-! ### Results (10_state.md R29, R40) -/

/-- `RES <- v` (10_state.md R29). -/
def State.setRes (s : State) (v : BusWord) : State := { s with res := v }

/-- A natural below `2^32` as a bus word. -/
def busNat (n : Nat) : BusWord := BitVec.ofNat 32 n

/-- A reference count or RCMAX in the 32-bit RES; one of `2^32` or more shows a free value (log 10). -/
def busCount (n : Nat) : BusWord := if n < 4294967296 then BitVec.ofNat 32 n else Config.wideCount n

/-- `SetValue(h, L)`: `st` and `rc` stay (10_state.md R40). -/
def State.setValue (s : State) (h : Nat) (L : List Limb) : State :=
  s.setEntry h { s.entry h with limbs := L }

/-! ### The pool (10_state.md R38, R39, R45) -/

/-- The least handle number from `i` on whose entry in the list is UNUSED (10_state.md R38). -/
def leastUnused (t : List Entry) (i : Nat) : Option Nat :=
  match t with
  | [] => none
  | e :: t => if e.st = .unused then some i else leastUnused t (i + 1)

/-- The entry a fresh allocation leaves: LIVE with one owner (10_state.md R38). -/
def Entry.fresh : Entry := { st := .live, rc := 1, limbs := [] }

/-- `AllocHandle()`: the top of FL, else the least UNUSED handle (10_state.md R38). -/
def State.allocHandle (s : State) : Except FaultCode (Nat × State) :=
  match s.free with
  | h :: fl =>
    if (s.entry h).rc ≠ 0 then .error .poolConsistency
    else .ok (h, { s with free := fl }.setEntry h Entry.fresh)
  | [] =>
    match leastUnused s.table 0 with
    | some h => .ok (h, s.setEntry h Entry.fresh)
    | none => .error .poolExhausted

/-- The entry of a handle that went back to the pool (10_state.md R18, R39). -/
def Entry.freed : Entry := { st := .free, rc := 0, limbs := [] }

/-- `ReleaseHandle(h)` (10_state.md R39). -/
def State.releaseHandle (s : State) (h : Nat) : State :=
  let e := s.entry h
  if e.st = .perm then s
  else if e.rc - 1 = 0 then { s with free := h :: s.free }.setEntry h Entry.freed
  else s.setEntry h { e with rc := e.rc - 1 }

/-- `ClearContext()` (10_state.md R45). -/
def State.clearContext (s : State) : State :=
  { s with table := List.replicate s.par.nh Entry.unused, free := [], ms := Slots.empty, cur := 0 }

/-! ### Issue, fault entry, end of the engine step, reset -/

/-- The issued word CMD_HI:CMD_LO (10_state.md R36, 30_encoding.md R67). -/
def State.issued (s : State) : CmdWord := s.cmdHi ++ s.cmdLo

/-- The command the issued word stands for (30_encoding.md R76). -/
def State.fetch (s : State) : Except DecodeError Instr := decode s.issued

/-- `raise Fault(c)`: HALTED, FCODE and FCMD are written and nothing else (60_exceptions.md R116,
R118). The word is the issued one (log 16). -/
def State.raise (s : State) (c : FaultCode) : State :=
  { s with halted := true, fcode := c, fcmd := s.issued }

/-- A command's outcome: what its rule computed, or the fault entry of its first failing check. Both
are next states (60_exceptions.md R117, R118). -/
def finishCommand (s : State) (r : Except FaultCode State) : Host.Outcome State Fault Refusal :=
  match r with
  | .ok t => .next t
  | .error c => .next (s.raise c)

/-- The end of the engine step: BUS_CONFLICT if `PCONF = 1` and the command raised no fault, then
`PCONF <- 0` and `BUSY <- 0` (10_state.md R36, 60_exceptions.md R121). -/
def State.endStep (s : State) : State :=
  let t := if s.pconf && !s.halted then s.raise .busConflict else s
  { t with pconf := false, busy := false }

/-- The reset event: every piece of the block's state to its reset value in one step; the host's
script and record and the draw counter are not the block's (70_reset_and_hazards.md R131, log 2). It is
the only return from a fault (60_exceptions.md R120). -/
def State.resetEvent (s : State) : State :=
  { State.resetWith s.par with script := s.script, reads := s.reads, draws := s.draws }

end Sys2Proof.Machine
end

