-- ==== Sys2Proof/Machine/Flags.lean ====
section
/-! DEFINITION. The views and codes the host reads: fault codes (60_exceptions.md R114), STATUS and
CONFIG (10_state.md R34, R35), the NEG flag (R30) and the comparison result of CMP
(40_limb_buffer_values.md R86). -/

namespace Sys2Proof.Machine

/-- The 8-bit code of each fault name (60_exceptions.md R114). -/
def FaultCode.code : FaultCode → BitVec 8
  | .none => 0x00#8
  | .nullContext => 0x01#8
  | .poolConsistency => 0x02#8
  | .permMisuse => 0x03#8
  | .illegalCommand => 0x10#8
  | .invalidHandle => 0x11#8
  | .operandAlias => 0x12#8
  | .permanentReceiver => 0x13#8
  | .sharedReceiver => 0x14#8
  | .modBound => 0x15#8
  | .ctxState => 0x16#8
  | .badSlot => 0x17#8
  | .slotBusy => 0x18#8
  | .noModulus => 0x19#8
  | .badLength => 0x1A#8
  | .badOperand => 0x1B#8
  | .bufRange => 0x1C#8
  | .undefinedData => 0x1D#8
  | .divideByZero => 0x1E#8
  | .badModulus => 0x1F#8
  | .capacity => 0x20#8
  | .saveOverflow => 0x21#8
  | .refcountOverflow => 0x22#8
  | .poolExhausted => 0x23#8
  | .busConflict => 0x24#8

/-- A flag as a natural, for QUERY. -/
def flagNat (b : Bool) : Nat := if b then 1 else 0

/-- `MS[0].valid + 2*MS[1].valid + 4*MS[2].valid` (45_limb_buffer_context.md R102). -/
def Slots.validBits (m : Slots) : Nat :=
  flagNat m.s0.isSome + 2 * flagNat m.s1.isSome + 4 * flagNat m.s2.isSome

/-- STATUS, from bit 31 down to bit 0: 31:21 read 0, 20:18 MVALID, 17:16 CUR, 15:8 FCODE, 7:4 read 0,
3 NEG, 2 CTX, 1 HALTED, 0 BUSY (10_state.md R34). -/
def State.status (s : State) : BusWord :=
  0#11 ++ BitVec.ofBool s.ms.s2.isSome ++ BitVec.ofBool s.ms.s1.isSome ++ BitVec.ofBool s.ms.s0.isSome
    ++ BitVec.ofNat 2 s.cur.val ++ s.fcode.code ++ 0#4 ++ BitVec.ofBool s.neg ++ BitVec.ofBool s.ctx
    ++ BitVec.ofBool s.halted ++ BitVec.ofBool s.busy

/-- CONFIG: bits 31:16 LMAX, 15:8 W, 7:0 NH (10_state.md R35). -/
def configWord (p : Params) : BusWord := BitVec.ofNat 16 p.lmax ++ BitVec.ofNat 8 p.w ++ BitVec.ofNat 8 p.nh

/-- The RES of CMP: 1, 0 or 0xFFFF_FFFF (40_limb_buffer_values.md R86). -/
def cmpWord : Ordering → BusWord
  | .gt => 0x00000001#32
  | .eq => 0x00000000#32
  | .lt => 0xFFFFFFFF#32

/-- What RES shows of a PERM entry's count (45_limb_buffer_context.md R102, R106). -/
def permCount : BusWord := 0xFFFFFFFF#32

/-- The count an entry shows in RES (45_limb_buffer_context.md R102, R106). -/
def Entry.shownCount (e : Entry) : BusWord := if e.st = .perm then permCount else busCount e.rc

/-- `NEG <- (if a < b then 1 else 0)` (42_modular_subtractor.md R94). -/
def borrows (a b : Nat) : Bool := decide (a < b)

end Sys2Proof.Machine
end

