-- ==== Sys2Proof/Machine/Operands.lean ====
section
/-! DEFINITION. The operand forms of the commands and their checks, each answering the operand or the
fault of its first failing check (10_state.md R22, R41, R42; 20_memory.md R54, R56; 30_encoding.md R68,
R71; 60_exceptions.md R117). -/

namespace Sys2Proof.Machine

/-- A check of a rule: `ok` when `p` holds, else the fault `c` (00_scope.md R14). -/
def need (p : Prop) [Decidable p] (c : FaultCode) : Except FaultCode Unit :=
  if p then .ok () else .error c

/-- The check every command but CTXOPEN makes first: NULL_CONTEXT while `CTX = 0` (10_state.md R27). -/
def State.needContext (s : State) : Except FaultCode Unit := need (s.ctx = true) .nullContext

/-- A handle operand that is read: the entry, or INVALID_HANDLE (10_state.md R22). -/
def State.handle (s : State) (h : Nat) : Except FaultCode Entry := do
  need (s.validHandle h = true) .invalidHandle
  return s.entry h

/-- The receiver checks, in their order (10_state.md R41). -/
def State.receiver (s : State) (h : Nat) : Except FaultCode Entry := do
  let e ← s.handle h
  need (e.st ≠ .perm) .permanentReceiver
  need (e.rc = 1) .sharedReceiver
  return e

/-- The operand checks of a consumed HB (10_state.md R42). -/
def State.consumed (s : State) (ha hb : Nat) : Except FaultCode Entry := do
  let e ← s.handle hb
  need (hb ≠ ha) .operandAlias
  return e

/-- The limbs of a value read as data: UNDEFINED_DATA if one is `⊥` (10_state.md R21). -/
def Entry.readable (e : Entry) : Except FaultCode (List Nat) :=
  match readLimbs e.limbs with
  | some L => .ok L
  | none => .error .undefinedData

/-- The bytes of BUF read as data: UNDEFINED_DATA if one is `⊥` (20_memory.md R54). -/
def State.readBytes (s : State) (addr n : Nat) : Except FaultCode (List Byte) :=
  match s.memRead addr n with
  | some bs => .ok bs
  | none => .error .undefinedData

/-- A SLOT operand: BAD_SLOT for 3 (30_encoding.md R68). -/
def slotOperand (slot : Nat) : Except FaultCode (Fin 3) :=
  if h : slot < 3 then .ok ⟨slot, h⟩ else .error .badSlot

/-- The contents of a slot that must be valid: NO_MODULUS else (46_barrett_reduction_engine.md R110,
R112). -/
def State.modulus (s : State) (i : Fin 3) : Except FaultCode ModSlot :=
  match s.ms.get i with
  | some m => .ok m
  | none => .error .noModulus

/-- A limb operand in IMM: BAD_OPERAND unless `< RADIX` (30_encoding.md R71). -/
def State.limbOperand (s : State) (t : Nat) : Except FaultCode Unit :=
  need (t < s.par.radix) .badOperand

/-- A length operand: BAD_LENGTH for 0 (60_exceptions.md R114). -/
def lengthOperand (n : Nat) : Except FaultCode Unit := need (n ≠ 0) .badLength

/-- The range check of an engine access to BUF (20_memory.md R56). -/
def State.bufRange (s : State) (addr n : Nat) : Except FaultCode Unit :=
  need (addr + n ≤ s.par.bufsz) .bufRange

/-- The capacity check on the length a command needs (00_scope.md R8). -/
def State.capacity (s : State) (n : Nat) : Except FaultCode Unit := need (n ≤ s.par.lmax) .capacity

end Sys2Proof.Machine
end

