-- ==== Sys2Proof/Machine/Arithmetic.lean ====
section
/-! DEFINITION. The arithmetic units: modular_adder (41_modular_adder.md R93), modular_subtractor
(42_modular_subtractor.md R94), multi_limb_multiplier (43_multi_limb_multiplier.md R95, R96) and
knuth_divider (44_knuth_divider.md R97, R98). -/

namespace Sys2Proof.Machine

/-- The in-place result `SetValue(HA, trimmed(v))` and `RES <- HA` of the arithmetic commands
(10_state.md R40). -/
def State.result (s : State) (ha v : Nat) : State :=
  (s.setValue ha (putLimbs (trimmed s.par.w v))).setRes (busNat ha)

/-- ADD (41_modular_adder.md R93). -/
def execAdd (ha hb : Nat) (s : State) : Host.Outcome State Fault Refusal :=
  finishCommand s do
    s.needContext
    let ea ← s.receiver ha
    let eb ← s.consumed ha hb
    let La ← ea.readable
    let Lb ← eb.readable
    s.capacity (max La.length Lb.length + 1)
    return (s.result ha (val s.par.radix La + val s.par.radix Lb)).releaseHandle hb

/-- SUB (42_modular_subtractor.md R94). -/
def execSub (ha hb : Nat) (s : State) : Host.Outcome State Fault Refusal :=
  finishCommand s do
    s.needContext
    let ea ← s.receiver ha
    let eb ← s.consumed ha hb
    let La ← ea.readable
    let Lb ← eb.readable
    let a := val s.par.radix La
    let b := val s.par.radix Lb
    let d := if a ≥ b then a - b else b - a
    return { s.result ha d with neg := borrows a b }.releaseHandle hb

/-- MUL (43_multi_limb_multiplier.md R96). -/
def execMul (ha hb : Nat) (s : State) : Host.Outcome State Fault Refusal :=
  finishCommand s do
    s.needContext
    let ea ← s.receiver ha
    let eb ← s.consumed ha hb
    let La ← ea.readable
    let Lb ← eb.readable
    s.capacity (La.length + Lb.length)
    return (s.result ha (val s.par.radix La * val s.par.radix Lb)).releaseHandle hb

/-- IMUL (43_multi_limb_multiplier.md R95). -/
def execImul (ha imm : Nat) (s : State) : Host.Outcome State Fault Refusal :=
  finishCommand s do
    s.needContext
    let e ← s.receiver ha
    s.limbOperand imm
    let L ← e.readable
    s.capacity (L.length + 1)
    return s.result ha (val s.par.radix L * imm)

/-- DIV and DIV.M (44_knuth_divider.md R98). -/
def execDiv (ha hb : Nat) (mod : Bool) (s : State) : Host.Outcome State Fault Refusal :=
  finishCommand s do
    s.needContext
    let ea ← s.receiver ha
    let eb ← s.consumed ha hb
    let La ← ea.readable
    let Lv ← eb.readable
    need (topLimb Lv ≠ 0) .divideByZero
    let a := val s.par.radix La
    let v := val s.par.radix Lv
    let t :=
      if mod then
        if cmpLex La Lv = .lt then s.setRes (busNat ha) else s.result ha (a % v)
      else s.result ha (a / v)
    return t.releaseHandle hb

/-- IDIV (44_knuth_divider.md R97). -/
def execIdiv (ha imm : Nat) (s : State) : Host.Outcome State Fault Refusal :=
  finishCommand s do
    s.needContext
    let e ← s.receiver ha
    s.limbOperand imm
    let L ← e.readable
    need (imm ≠ 0) .divideByZero
    return s.result ha (val s.par.radix L / imm)

end Sys2Proof.Machine
end

