-- ==== Sys2Proof/Machine/Barrett.lean ====
section
/-! DEFINITION. barrett_reduction_engine (46_barrett_reduction_engine.md R109 to R112). -/

namespace Sys2Proof.Machine

/-- The constants SETMOD caches for a modulus held in handle `h` with limbs `L`; `mu` as
90_conflicts.md C1 decides (46_barrett_reduction_engine.md R109, 10_state.md R25). -/
def slotFor (r h : Nat) (L : List Nat) : ModSlot :=
  let m := val r L
  let k := L.length
  let d := r / (topLimb L + 1)
  { modh := h, k := k, d := d, norm := m * d, mu := r ^ (2 * k) / m, rk1 := r ^ (k + 1) }

/-- SETMOD (46_barrett_reduction_engine.md R109). -/
def execSetmod (ha slot : Nat) (s : State) : Host.Outcome State Fault Refusal :=
  finishCommand s do
    s.needContext
    let i ← slotOperand slot
    let e ← s.handle ha
    need (¬ (e.st ≠ .live ∨ e.rc ≠ 1)) .permMisuse
    need ((s.ms.get i).isSome = false) .slotBusy
    let L ← e.readable
    need (topLimb L ≠ 0) .badModulus
    s.capacity (L.length + 2)
    let t := s.setEntry ha { e with st := .perm }
    return { t with ms := s.ms.set i (some (slotFor s.par.radix ha L)) }.setRes (busNat i.val)

/-- RSTMOD (46_barrett_reduction_engine.md R110). -/
def execRstmod (slot : Nat) (s : State) : Host.Outcome State Fault Refusal :=
  finishCommand s do
    s.needContext
    let i ← slotOperand slot
    let m ← s.modulus i
    need ((s.entry m.modh).st = .perm) .permMisuse
    let t := (s.setEntry m.modh { s.entry m.modh with st := .live, rc := 1 }).releaseHandle m.modh
    return { t with ms := s.ms.set i none }.setRes (busNat i.val)

/-- SELMOD (46_barrett_reduction_engine.md R111). -/
def execSelmod (slot : Nat) (s : State) : Host.Outcome State Fault Refusal :=
  finishCommand s do
    s.needContext
    let i ← slotOperand slot
    return { s with cur := i }.setRes (busNat i.val)

/-- BARRETT (46_barrett_reduction_engine.md R112). The modulus is read as data like any value (10_state.md
R21), a check that cannot fail in a state the rules reach (R43 invariant 3, log 19). -/
def execBarrett (ha : Nat) (s : State) : Host.Outcome State Fault Refusal :=
  finishCommand s do
    s.needContext
    let e ← s.receiver ha
    let m ← s.modulus s.cur
    let L ← e.readable
    let M ← (s.entry m.modh).readable
    return s.result ha (val s.par.radix L % val s.par.radix M)

end Sys2Proof.Machine
end

