-- ==== Sys2Proof/Machine/Buffer.lean ====
section
/-! DEFINITION. limb_buffer_controller, the byte-buffer commands (45_limb_buffer_context.md R105,
40_limb_buffer_values.md R91, R92). -/

namespace Sys2Proof.Machine

/-- LOAD (45_limb_buffer_context.md R105). -/
def execLoad (addr len : Nat) (s : State) : Host.Outcome State Fault Refusal :=
  finishCommand s do
    s.needContext
    lengthOperand len
    s.bufRange addr len
    let bs ← s.readBytes addr len
    let n := ceilDiv len s.par.bpl
    s.capacity n
    let (h, t) ← s.allocHandle
    return (t.setValue h (putLimbs (digits s.par.radix (beValue bs) n))).setRes (busNat h)

/-- SAVE (40_limb_buffer_values.md R91). -/
def execSave (ha addr len : Nat) (s : State) : Host.Outcome State Fault Refusal :=
  finishCommand s do
    s.needContext
    let e ← s.handle ha
    lengthOperand len
    s.bufRange addr len
    let L ← e.readable
    let v := val s.par.radix L
    need (v < 256 ^ len) .saveOverflow
    return (s.memWrite addr (toBE v len)).setRes (busNat len)

/-- HEX (40_limb_buffer_values.md R92). -/
def execHex (ha addr : Nat) (s : State) : Host.Outcome State Fault Refusal :=
  finishCommand s do
    s.needContext
    let e ← s.handle ha
    let nb := e.len * s.par.bpl
    s.bufRange addr (2 * nb)
    let L ← e.readable
    return (s.memWrite addr (hexText (toBE (val s.par.radix L) nb))).setRes (busNat (2 * nb))

end Sys2Proof.Machine
end

