-- ==== Sys2Proof/Machine/Context.lean ====
section
/-! DEFINITION. limb_buffer_controller, the context, diagnostics and allocation commands
(45_limb_buffer_context.md R100 to R104). -/

namespace Sys2Proof.Machine

/-- CTXOPEN (45_limb_buffer_context.md R100). -/
def execCtxopen (s : State) : Host.Outcome State Fault Refusal :=
  finishCommand s do
    need (s.ctx = false) .ctxState
    return { s.clearContext with ctx := true }.setRes 0

/-- CTXCLOSE (45_limb_buffer_context.md R101). -/
def execCtxclose (s : State) : Host.Outcome State Fault Refusal :=
  finishCommand s do
    s.needContext
    return { s.clearContext with ctx := false }.setRes 0

/-- The selectors of QUERY that read no handle (45_limb_buffer_context.md R102). -/
def State.queryPlain (s : State) (q : Nat) : Except FaultCode BusWord :=
  match q with
  | 0 => .ok (busNat s.activeCount)
  | 1 => .ok (busNat s.free.length)
  | 4 => .ok (busNat s.cur.val)
  | 5 => .ok (busNat s.ms.validBits)
  | 6 => .ok (busNat s.par.nh)
  | 7 => .ok (busNat s.par.lmax)
  | 8 => .ok (busNat s.par.w)
  | 9 => .ok (busNat s.par.bufsz)
  | 10 => .ok (busCount s.par.rcmax)
  | _ => .error .badOperand

/-- QUERY (45_limb_buffer_context.md R102). -/
def execQuery (ha imm : Nat) (s : State) : Host.Outcome State Fault Refusal :=
  finishCommand s do
    s.needContext
    if imm = 2 then do
      let e ← s.handle ha
      return s.setRes (busNat e.len)
    else if imm = 3 then do
      let e ← s.handle ha
      return s.setRes e.shownCount
    else do
      need (ha = 0) .badOperand
      let v ← s.queryPlain imm
      return s.setRes v

/-- ALLOC (45_limb_buffer_context.md R103). -/
def execAlloc (skip : Bool) (n : Nat) (s : State) : Host.Outcome State Fault Refusal :=
  finishCommand s do
    s.needContext
    lengthOperand n
    s.capacity n
    let (h, t) ← s.allocHandle
    return (t.setValue h (List.replicate n (if skip then none else some 0))).setRes (busNat h)

/-- ALLOCI (45_limb_buffer_context.md R104). -/
def execAlloci (imm : Nat) (s : State) : Host.Outcome State Fault Refusal :=
  finishCommand s do
    s.needContext
    s.limbOperand imm
    let (h, t) ← s.allocHandle
    return (t.setValue h (putLimbs [imm])).setRes (busNat h)

end Sys2Proof.Machine
end

