-- ==== Sys2Proof/Machine/Ownership.lean ====
section
/-! DEFINITION. limb_buffer_controller, the ownership commands (45_limb_buffer_context.md R106 to R108,
40_limb_buffer_values.md R89, R90). -/

namespace Sys2Proof.Machine

/-- RELEASE (45_limb_buffer_context.md R106). -/
def execRelease (ha : Nat) (s : State) : Host.Outcome State Fault Refusal :=
  finishCommand s do
    s.needContext
    let _ ← s.handle ha
    let t := s.releaseHandle ha
    return t.setRes (t.entry ha).shownCount

/-- COPY (40_limb_buffer_values.md R89). -/
def execCopy (ha : Nat) (s : State) : Host.Outcome State Fault Refusal :=
  finishCommand s do
    s.needContext
    let e ← s.handle ha
    need (e.st = .live → e.rc ≠ s.par.rcmax) .refcountOverflow
    let t := if e.st = .live then s.setEntry ha { e with rc := e.rc + 1 } else s
    return t.setRes (busNat ha)

/-- CLONE (40_limb_buffer_values.md R90). -/
def execClone (ha : Nat) (s : State) : Host.Outcome State Fault Refusal :=
  finishCommand s do
    s.needContext
    let e ← s.handle ha
    let (h, t) ← s.allocHandle
    return (t.setValue h e.limbs).setRes (busNat h)

/-- SETPERM (45_limb_buffer_context.md R107). -/
def execSetperm (ha : Nat) (s : State) : Host.Outcome State Fault Refusal :=
  finishCommand s do
    s.needContext
    let e ← s.handle ha
    need (¬ (e.st = .perm ∨ e.rc ≠ 1)) .permMisuse
    return (s.setEntry ha { e with st := .perm }).setRes (busNat ha)

/-- RSTPERM (45_limb_buffer_context.md R108). -/
def execRstperm (ha : Nat) (rel : Bool) (s : State) : Host.Outcome State Fault Refusal :=
  finishCommand s do
    s.needContext
    let e ← s.handle ha
    need (s.ms.bound ha = false) .modBound
    need (e.st = .perm) .permMisuse
    let t := s.setEntry ha { e with st := .live, rc := 1 }
    return (if rel then t.releaseHandle ha else t).setRes (busNat ha)

end Sys2Proof.Machine
end

