-- ==== Sys2Proof/Machine/Structural.lean ====
section
/-! DEFINITION. limb_buffer_controller, the structural and inspecting commands
(40_limb_buffer_values.md R81 to R88). -/

namespace Sys2Proof.Machine

/-- RESIZE (40_limb_buffer_values.md R81). -/
def execResize (ha : Nat) (skip : Bool) (n : Nat) (s : State) : Host.Outcome State Fault Refusal :=
  finishCommand s do
    s.needContext
    let e ← s.receiver ha
    lengthOperand n
    s.capacity n
    let fill : Limb := if skip then none else some 0
    let L := if n > e.len then e.limbs ++ List.replicate (n - e.len) fill else e.limbs.take n
    return (s.setValue ha L).setRes (busNat ha)

/-- TRIM (40_limb_buffer_values.md R82). -/
def execTrim (ha : Nat) (s : State) : Host.Outcome State Fault Refusal :=
  finishCommand s do
    s.needContext
    let e ← s.receiver ha
    let L ← e.readable
    return (s.setValue ha (putLimbs (trimmed s.par.w (val s.par.radix L)))).setRes (busNat ha)

/-- LSHIFT (40_limb_buffer_values.md R87). -/
def execLshift (ha n : Nat) (s : State) : Host.Outcome State Fault Refusal :=
  finishCommand s do
    s.needContext
    let e ← s.receiver ha
    let L ← e.readable
    s.capacity (L.length + n)
    return (s.setValue ha (putLimbs (List.replicate n 0 ++ L))).setRes (busNat ha)

/-- RSHIFT (40_limb_buffer_values.md R88). -/
def execRshift (ha n : Nat) (s : State) : Host.Outcome State Fault Refusal :=
  finishCommand s do
    s.needContext
    let e ← s.receiver ha
    let L ← e.readable
    let L' := if L.length ≤ n then [0] else L.drop n
    return (s.setValue ha (putLimbs L')).setRes (busNat ha)

/-- ISZERO (40_limb_buffer_values.md R83). -/
def execIszero (ha : Nat) (s : State) : Host.Outcome State Fault Refusal :=
  finishCommand s do
    s.needContext
    if ha = nullHandle then
      return s.setRes 1
    else do
      let e ← s.handle ha
      let L ← e.readable
      return s.setRes (if L.all (· == 0) then 1 else 0)

/-- BITSET (40_limb_buffer_values.md R84). -/
def execBitset (ha imm : Nat) (s : State) : Host.Outcome State Fault Refusal :=
  finishCommand s do
    s.needContext
    let e ← s.handle ha
    need (imm < e.len * s.par.w) .badOperand
    let L ← e.readable
    return s.setRes (busNat (bitAt s.par.w L imm))

/-- BITCOUNT (40_limb_buffer_values.md R85). -/
def execBitcount (ha : Nat) (s : State) : Host.Outcome State Fault Refusal :=
  finishCommand s do
    s.needContext
    let e ← s.handle ha
    let L ← e.readable
    return s.setRes (busNat (bitLength (val s.par.radix L)))

/-- CMP (40_limb_buffer_values.md R86). -/
def execCmp (ha hb : Nat) (s : State) : Host.Outcome State Fault Refusal :=
  finishCommand s do
    s.needContext
    let ea ← s.handle ha
    let eb ← s.handle hb
    let La ← ea.readable
    let Lb ← eb.readable
    return s.setRes (cmpWord (cmpLex La Lb))

end Sys2Proof.Machine
end

