-- ==== Sys2Proof/Machine/Dispatch.lean ====
section
/-! DEFINITION. One arm per command of 30_encoding.md R69, in the order of spec/opcode_table.json. -/

namespace Sys2Proof.Machine

/-- What a command does: its rule, in the state in which it was issued (10_state.md R36). -/
def exec (i : Instr) (s : State) : Host.Outcome State Fault Refusal :=
  match i with
  | .ctxopen => Sys2Proof.Machine.execCtxopen s
  | .ctxclose => Sys2Proof.Machine.execCtxclose s
  | .query ha imm => Sys2Proof.Machine.execQuery ha imm s
  | .alloc skip n => Sys2Proof.Machine.execAlloc skip n s
  | .alloci imm => Sys2Proof.Machine.execAlloci imm s
  | .load addr len => Sys2Proof.Machine.execLoad addr len s
  | .save ha addr len => Sys2Proof.Machine.execSave ha addr len s
  | .hex ha addr => Sys2Proof.Machine.execHex ha addr s
  | .release ha => Sys2Proof.Machine.execRelease ha s
  | .copy ha => Sys2Proof.Machine.execCopy ha s
  | .clone ha => Sys2Proof.Machine.execClone ha s
  | .setperm ha => Sys2Proof.Machine.execSetperm ha s
  | .rstperm ha rel => Sys2Proof.Machine.execRstperm ha rel s
  | .resize ha skip n => Sys2Proof.Machine.execResize ha skip n s
  | .trim ha => Sys2Proof.Machine.execTrim ha s
  | .lshift ha n => Sys2Proof.Machine.execLshift ha n s
  | .rshift ha n => Sys2Proof.Machine.execRshift ha n s
  | .iszero ha => Sys2Proof.Machine.execIszero ha s
  | .bitset ha imm => Sys2Proof.Machine.execBitset ha imm s
  | .bitcount ha => Sys2Proof.Machine.execBitcount ha s
  | .cmp ha hb => Sys2Proof.Machine.execCmp ha hb s
  | .add ha hb => Sys2Proof.Machine.execAdd ha hb s
  | .sub ha hb => Sys2Proof.Machine.execSub ha hb s
  | .mul ha hb => Sys2Proof.Machine.execMul ha hb s
  | .imul ha imm => Sys2Proof.Machine.execImul ha imm s
  | .div ha hb mod => Sys2Proof.Machine.execDiv ha hb mod s
  | .idiv ha imm => Sys2Proof.Machine.execIdiv ha imm s
  | .setmod ha slot => Sys2Proof.Machine.execSetmod ha slot s
  | .rstmod slot => Sys2Proof.Machine.execRstmod slot s
  | .selmod slot => Sys2Proof.Machine.execSelmod slot s
  | .barrett ha => Sys2Proof.Machine.execBarrett ha s

end Sys2Proof.Machine
end

