-- ==== Sys2Proof/Machine/HostBus.lean ====
section
/-! DEFINITION. The host's side of the block: the register map and the BUF window (10_state.md R33 to
R36; 20_memory.md R50, R53, R58, R59, R60), BUS_CONFLICT's cause (60_exceptions.md R121), and reset. -/

namespace Sys2Proof.Machine

/-- The bytes of an access (20_memory.md R58). -/
def Width.bytes : Width → Nat
  | .b8 => 1
  | .b16 => 2
  | .b32 => 4

/-- The first offset past the 17-bit window (10_state.md R33). -/
def windowSize : Nat := 0x20000

/-- The first offset of the BUF window (10_state.md R33). -/
def bufWindow : Nat := 0x10000

/-- The accesses the bus supports: registers and the reserved range with aligned 32-bit accesses, the
BUF window with accesses aligned to their size (20_memory.md R58, 10_state.md R33). -/
def accessOk (w : Width) (offset : Nat) : Bool :=
  if offset < bufWindow then decide (w = .b32) && decide (offset % 4 = 0)
  else decide (offset % w.bytes = 0)

/-- Byte lane `i` of a bus word: bits `8i+7 : 8i` (20_memory.md R53). -/
def lane (v : BusWord) (i : Nat) : Byte := v.extractLsb' (8 * i) 8

/-- The free value of the read the draw counter stands at (log 3). -/
def State.draw (s : State) : BusWord := Config.freeWord s.draws

/-- A register read while `BUSY = 0`, and 0 at the reserved offsets (10_state.md R33). -/
def State.regRead (s : State) (offset : Nat) : BusWord :=
  match offset with
  | 0x00 => idValue
  | 0x04 => configWord s.par
  | 0x08 => s.status
  | 0x0C => s.res
  | 0x10 => s.cmdLo
  | 0x14 => s.cmdHi
  | 0x18 => s.fcmd.extractLsb' 0 32
  | 0x1C => s.fcmd.extractLsb' 32 32
  | _ => 0

/-- A read below the BUF window. While `BUSY = 1` a register other than STATUS is unspecified, STATUS
reads 1 in bit 0 and is unspecified above, and the reserved offsets still read 0 (10_state.md R33, R34;
logs 3, 15). -/
def State.lowRead (s : State) (offset : Nat) : BusWord :=
  if s.busy = true ∧ offset < 0x20 then
    if offset = 0x08 then s.draw ||| 1#32 else s.draw
  else s.regRead offset

/-- One byte of the BUF window, on lane `i` of the access: `BUF[a]` below BUFSZ, unspecified where it is
`⊥` or while `BUSY = 1`; 0 at and above BUFSZ (10_state.md R33; 20_memory.md R50, R59; logs 3, 15). -/
def State.windowByte (s : State) (a i : Nat) : Byte :=
  if a < s.par.bufsz then
    if s.busy then lane s.draw i else (s.byteAt a).getD (lane s.draw i)
  else 0

/-- The byte on lane `i` of a BUF window access at address `a`, as its part of the bus word
(20_memory.md R53). -/
def State.windowLane (s : State) (a i : Nat) : BusWord := (s.windowByte (a + i) i).setWidth 32 <<< (8 * i)

/-- A read of the BUF window: `BUF[a]` on bits 7:0, `BUF[a+1]` on bits 15:8 and so on; the lanes an
access does not move are 0 (20_memory.md R53, log 12). -/
def State.windowRead (s : State) (w : Width) (a : Nat) : BusWord :=
  match w with
  | .b8 => s.windowLane a 0
  | .b16 => s.windowLane a 0 ||| s.windowLane a 1
  | .b32 => s.windowLane a 0 ||| s.windowLane a 1 ||| s.windowLane a 2 ||| s.windowLane a 3

/-- The word a supported host read returns (10_state.md R33). -/
def State.busValue (s : State) (w : Width) (offset : Nat) : BusWord :=
  if offset < bufWindow then s.lowRead offset else s.windowRead w (offset - bufWindow)

/-- A host write to CMD_LO, CMD_HI or the rest below the BUF window (10_state.md R33, R36;
60_exceptions.md R119, R121). -/
def State.lowWrite (s : State) (offset : Nat) (v : BusWord) : State :=
  if offset = 0x10 then
    if s.busy then { s with pconf := true } else { s with cmdLo := v }
  else if offset = 0x14 then
    if s.busy then { s with pconf := true }
    else if s.halted then { s with cmdHi := v }
    else { s with cmdHi := v, busy := true }
  else s

/-- A host write of the lanes from `i` on, `n` of them, to BUF at address `a + i`; bytes at and above
BUFSZ are ignored (10_state.md R33, 20_memory.md R53). -/
def writeLanes (bufsz : Nat) (m : List Host.Cell) (a : Nat) (v : BusWord) (i : Nat) : Nat → List Host.Cell
  | 0 => m
  | n + 1 =>
    writeLanes bufsz (if a + i < bufsz then memSet m (a + i) (lane v i) else m) a v (i + 1) n

/-- A host write to the BUF window; while `BUSY = 1` it is discarded and sets PCONF (60_exceptions.md
R121, log 14). -/
def State.windowWrite (s : State) (w : Width) (a : Nat) (v : BusWord) : State :=
  if s.busy then { s with pconf := true }
  else { s with buf := writeLanes s.par.bufsz s.buf a v 0 w.bytes }

/-- The effect of a supported host write (10_state.md R33, R36). -/
def State.busStore (s : State) (w : Width) (offset : Nat) (v : BusWord) : State :=
  if offset < bufWindow then s.lowWrite offset v else s.windowWrite w (offset - bufWindow) v

/-- A host access has its effect, or there is no such offset, or the bus gives it no move
(10_state.md R33, 20_memory.md R58). -/
def onBus (w : Width) (offset : Nat) (t : State) : Host.Outcome State Fault Refusal :=
  if windowSize ≤ offset then .fault .noSuchOffset
  else if accessOk w offset then .next t
  else .refused .hostAccess

/-- A host read: the block's state stays (20_memory.md R60), the host records the word. -/
def busRead (w : Width) (offset : Nat) (s : State) : Host.Outcome State Fault Refusal :=
  onBus w offset { s with reads := s.busValue w offset :: s.reads, draws := s.draws + 1 }

/-- A host write (10_state.md R33, R36). -/
def busWrite (w : Width) (offset : Nat) (v : BusWord) (s : State) : Host.Outcome State Fault Refusal :=
  onBus w offset (s.busStore w offset v)

end Sys2Proof.Machine
end

