-- ==== Sys2Proof/Machine/Engine.lean ====
section
/-! DEFINITION. The engine step (10_state.md R36) and one event of the host or the platform. -/

namespace Sys2Proof.Machine

/-- Execution of the issued word: its command, or ILLEGAL_COMMAND where it is none (30_encoding.md R72,
R73, R76). -/
def execute (s : State) : Host.Outcome State Fault Refusal :=
  match s.fetch with
  | .ok i => exec i s
  | .error _ => .next (s.raise .illegalCommand)

/-- The engine step: nothing happens with `BUSY = 0` (70_reset_and_hazards.md R145, log 9), nothing
executes while halted (60_exceptions.md R119, log 8), and else the issued word is executed and the step
ends (10_state.md R36). -/
def engineStep (s : State) : Host.Outcome State Fault Refusal :=
  if s.busy then
    if s.halted then .next s.endStep
    else
      match execute s with
      | .next t => .next t.endStep
      | .fault f => .fault f
      | .refused r => .refused r
  else .next s

/-- One event of the script (10_state.md R15, R36; 70_reset_and_hazards.md R131; log 2). -/
def hostEvent (e : HostEvent) (s : State) : Host.Outcome State Fault Refusal :=
  match e with
  | .write w offset v => busWrite w offset v s
  | .read w offset => busRead w offset s
  | .engine => engineStep s
  | .reset => .next s.resetEvent

/-- The next event of the script, or the engine's own step when the host does nothing more
(70_reset_and_hazards.md R145, log 2). -/
def advance (s : State) : Host.Outcome State Fault Refusal :=
  match s.script with
  | [] => engineStep s
  | e :: rest => hostEvent e { s with script := rest }

/-- `w` issued and not yet executed: CMD_HI:CMD_LO hold it, `BUSY = 1`, `HALTED = 0`, and the next thing
to happen is the engine step (10_state.md R36, log 17). -/
def State.issueNext (s : State) (w : CmdWord) : State :=
  { s with
    cmdLo := w.extractLsb' 0 32
    cmdHi := w.extractLsb' 32 32
    busy := true
    halted := false
    script := .engine :: s.script }

end Sys2Proof.Machine
end

