-- ==== Sys2Proof/Machine/Step.lean ====
section
/-! DEFINITION. The machine's step, and the placing of an instruction where the next step runs it. -/

namespace Sys2Proof.Machine

/-- One step: a host access, a reset, or an engine step (10_state.md R36). -/
def step (s : State) : Host.Outcome State Fault Refusal := advance s

/-- `s` with the command word `w` issued, so that the next step executes it (log 17). The bits at and
above `nbits` are 0. -/
def State.withFetchWord (s : State) (nbits w : Nat) : State :=
  s.issueNext (BitVec.ofNat 64 (w % 2 ^ nbits))

end Sys2Proof.Machine
end

