-- ==== Sys2Proof/Machine/Reference.lean ====
section
/-! DEFINITION. The two reference algorithms the spec transcribes: Knuth's Algorithm D
(44_knuth_divider.md R99) and Barrett reduction (46_barrett_reduction_engine.md R113). No command calls
them: their results are the exact ones of R98 and R112, which DIV and BARRETT compute directly. They
stand here so that statements can relate the two. -/

namespace Sys2Proof.Machine

/-! ### Knuth's Algorithm D (44_knuth_divider.md R99) -/

/-- The refinement loop of step 3, from the estimate `q`: `top` is `u'[j+k]*RADIX + u'[j+k-1]`, `v1`,
`v2` the two upper limbs of `v'`, `lo` is `u'[j+k-2]`. The first argument bounds the loop by the
estimate, which each turn lowers by one. -/
def knuthRefine (r top v1 v2 lo : Nat) : Nat → Nat → Nat
  | 0, q => q
  | n + 1, q => if q * v2 > (top - q * v1) * r + lo then knuthRefine r top v1 v2 lo n (q - 1) else q

/-- The digit estimate of step 3 at position `j`, saturated and refined. -/
def knuthEstimate (r k : Nat) (v u : List Nat) (j : Nat) : Nat :=
  let hi := u.getD (j + k) 0
  let top := hi * r + u.getD (j + k - 1) 0
  let v1 := v.getD (k - 1) 0
  let q := if hi = v1 then r - 1 else top / v1
  if k ≥ 2 then knuthRefine r top v1 (v.getD (k - 2) 0) (u.getD (j + k - 2) 0) q q else q

/-- Step 3 at position `j`: the final digit and `u'` after multiply-and-subtract, with one add-back when
the subtraction borrows. -/
def knuthDigit (r k : Nat) (v u : List Nat) (j : Nat) : Nat × List Nat :=
  let q := knuthEstimate r k v u j
  let x := val r ((u.drop j).take (k + 1))
  let p := q * val r v
  let (q', x') := if x < p then (q - 1, (x + r ^ (k + 1) - p + val r v) % r ^ (k + 1)) else (q, x - p)
  (q', u.take j ++ digits r x' (k + 1) ++ u.drop (j + k + 1))

/-- Step 3 for the positions below the first argument, from most to least significant: the digits,
least significant first, and the final `u'`. -/
def knuthLoop (r k : Nat) (v : List Nat) : Nat → List Nat → List Nat → List Nat × List Nat
  | 0, u, q => (q, u)
  | j + 1, u, q =>
    let (d, u') := knuthDigit r k v u j
    knuthLoop r k v j u' (d :: q)

/-- The divider's algorithm for a dividend `u` and a divisor `v` with nonzero top limb, in limbs of `w`
bits (44_knuth_divider.md R99). -/
def knuthDivide (w : Nat) (u v : List Nat) (mod : Bool) : List Nat :=
  let r := 2 ^ w
  let k := v.length
  if mod = true ∧ cmpLex u v = .lt then u
  else
    let d := r / (topLimb v + 1)
    let u' := digits r (val r u * d) (u.length + 1)
    let v' := digits r (val r v * d) k
    let (q, rest) := knuthLoop r k v' (u.length + 1 - k) u' []
    if mod then trimmed w (val r (rest.take k) / d) else trimmed w (val r q)

/-! ### Barrett reduction (46_barrett_reduction_engine.md R113) -/

/-- `while r >= m: r <- r - m`, at most as many times as the first argument says. -/
def reduceLoop (m : Nat) : Nat → Nat → Nat
  | 0, x => x
  | n + 1, x => if x ≥ m then reduceLoop m n (x - m) else x

/-- `r1 - r2`, with `rk1` added to `r1` first when `r1 < r2`: what the final loop starts from
(46_barrett_reduction_engine.md R113). -/
def barrettStart (rk1 r1 r2 : Nat) : Nat := if r1 < r2 then r1 + rk1 - r2 else r1 - r2

/-- The last steps of Barrett reduction, from `r1` and `r2` (46_barrett_reduction_engine.md R113). -/
def barrettFinish (m rk1 r1 r2 : Nat) : Nat :=
  let x := barrettStart rk1 r1 r2
  reduceLoop m (x / m) x

/-- The Barrett engine's algorithm with the exact products, for `b` of at most `2k` limbs, radix `r`
and a slot's constants (46_barrett_reduction_engine.md R113). -/
def barrettReduce (r m k mu rk1 b : Nat) : Nat :=
  let q1 := b / r ^ (k - 1)
  let q2 := q1 * mu
  let q3 := q2 / r ^ (k + 1)
  let r1 := b % r ^ (k + 1)
  let r2 := (q3 * m) % r ^ (k + 1)
  barrettFinish m rk1 r1 r2

/-- The sum of the products `a[i] * b[j] * r^(i+j)` over the columns `i + j` that `keep` selects, from
row `i` on (46_barrett_reduction_engine.md R113). -/
def windowProduct (r : Nat) (keep : Nat → Bool) (b : List Nat) : List Nat → Nat → Nat
  | [], _ => 0
  | x :: A, i =>
    ((List.range b.length).map fun j => if keep (i + j) then x * b.getD j 0 * r ^ (i + j) else 0).sum
      + windowProduct r keep b A (i + 1)

/-- The algorithm with the windowed products (46_barrett_reduction_engine.md R113). -/
def barrettWindowed (w m k mu rk1 b : Nat) : Nat :=
  let r := 2 ^ w
  let q1 := trimmed w (b / r ^ (k - 1))
  let q2 := windowProduct r (fun c => decide (k - 1 ≤ c)) (trimmed w mu) q1 0
  let q3 := trimmed w (q2 / r ^ (k + 1))
  let r1 := b % r ^ (k + 1)
  let r2 := windowProduct r (fun c => decide (c ≤ k)) (trimmed w m) q3 0 % r ^ (k + 1)
  barrettFinish m rk1 r1 r2

end Sys2Proof.Machine
end

