-- ==== Sys2Proof/Safety.lean ====
section
/-! DEFINITION. What a sound state of the block is: the invariants of 10_state.md R43 with R19, R23 and
R25, the canonical form of BUF (20_memory.md R47), and the relations between the control bits
(10_state.md R31, R32, R36). A safe run is one whose states are all sound; a run that has not faulted
has `halted = false`. -/

namespace Sys2Proof.Machine

/-- A value held by a LIVE or PERM entry: `1 <= len <= LMAX`, and each limb is `⊥` or below RADIX
(10_state.md R17, R19). -/
structure ValueOk (p : Params) (L : List Limb) : Prop where
  nonempty : 1 ≤ L.length
  bounded : L.length ≤ p.lmax
  limbs : ∀ x, some x ∈ L → x < p.radix

/-- An entry as its state requires (10_state.md R18, R19, R43 invariants 1 and 2). -/
def Entry.Ok (p : Params) (e : Entry) : Prop :=
  match e.st with
  | .unused => e = Entry.unused
  | .free => e = Entry.freed
  | .live => (1 ≤ e.rc ∧ e.rc ≤ p.rcmax) ∧ ValueOk p e.limbs
  | .perm => ValueOk p e.limbs

/-- A valid slot: its modulus handle is PERM and holds the trimmed, nonzero value the slot's constants
were computed from (10_state.md R25, R43 invariant 3). -/
def SlotOk (s : State) (m : ModSlot) : Prop :=
  (s.entry m.modh).st = .perm ∧
    ∃ L : List Nat, (s.entry m.modh).limbs = putLimbs L ∧ topLimb L ≠ 0 ∧
      L.length + 2 ≤ s.par.lmax ∧ m = slotFor s.par.radix m.modh L

/-- The invariants of the data the commands work on (10_state.md R43). -/
structure State.DataInv (s : State) : Prop where
  legal : s.par.Legal
  tableLength : s.table.length = s.par.nh
  entries : ∀ h, (s.entry h).Ok s.par
  freeNodup : s.free.Nodup
  freeExact : ∀ h, h ∈ s.free ↔ (s.entry h).st = .free
  slots : ∀ i m, s.ms.get i = some m → SlotOk s m
  slotsDiffer : ∀ i j m n, s.ms.get i = some m → s.ms.get j = some n → m.modh = n.modh → i = j
  noContext : s.ctx = false →
    (∀ h, (s.entry h).st = .unused) ∧ s.free = [] ∧ s.ms = Slots.empty ∧ s.cur = 0
  bufCanonical : Memory.wf s.buf = true
  bufInRange : ∀ c ∈ s.buf, c.1 < s.par.bufsz

/-- The relations between the control bits that hold between steps (10_state.md R31, R32, R36). -/
structure State.ControlInv (s : State) : Prop where
  haltedCode : s.halted = true ↔ s.fcode ≠ .none
  noFaultWord : s.halted = false → s.fcmd = 0
  busyRuns : s.busy = true → s.halted = false
  conflictBusy : s.pconf = true → s.busy = true

/-- A sound state between steps. -/
structure State.Inv (s : State) : Prop where
  data : s.DataInv
  control : s.ControlInv

end Sys2Proof.Machine
end

