-- ==== Sys2Proof/Certificates/Slice0/Obligations.lean ====
section
/-! DEFINITION. The statements for the provers, and the words they are written in. A command's statement
has three parts: its row of the opcode map, the fault it takes (the first of its checks, in the order its
rule lists them), and, when every check passes, its whole effect: every field of the next state is
either given or, by an equation that puts the written fields back, equal to what it was. -/

namespace Sys2Proof.Claims
open Sys2Proof.Machine

/-! ### The words of the statements -/

/-- The state a fault `c` leaves: HALTED, FCODE and FCMD are written, nothing else (60_exceptions.md
R116, R118). -/
def faulted (s : State) (c : FaultCode) : State :=
  { s with halted := true, fcode := c, fcmd := s.cmdHi ++ s.cmdLo }

/-- The fault of the first check that fails (60_exceptions.md R117). A check is its failing condition
and its fault. -/
def firstFault : List (Bool × FaultCode) → Option FaultCode
  | [] => none
  | (bad, c) :: rest => if bad then some c else firstFault rest

/-- `h` is valid: below NH, and LIVE or PERM (10_state.md R22). -/
def valid (s : State) (h : Nat) : Bool :=
  decide (h < s.par.nh ∧ ((s.entry h).st = .live ∨ (s.entry h).st = .perm))

/-- `H[h].limbs` contains `⊥` (10_state.md R21). -/
def poison (s : State) (h : Nat) : Bool := (s.entry h).limbs.contains none

/-- The limbs of `H[h]`, all of them when none is `⊥`. -/
def limbsOf (s : State) (h : Nat) : List Nat := (s.entry h).limbs.filterMap id

/-- `val(h)` (00_scope.md R13). -/
def valueOf (s : State) (h : Nat) : Nat := val (2 ^ s.par.w) (limbsOf s h)

/-- `H[h].len` (10_state.md R17). -/
def lenOf (s : State) (h : Nat) : Nat := (s.entry h).limbs.length

/-- The contents of slot `n`, nothing for an invalid slot and for 3 (10_state.md R25). -/
def slotAt (s : State) (n : Nat) : Option ModSlot :=
  match n with
  | 0 => s.ms.s0
  | 1 => s.ms.s1
  | 2 => s.ms.s2
  | _ => none

/-- `h` is the modulus handle of a valid slot (45_limb_buffer_context.md R108). -/
def isModulus (s : State) (h : Nat) : Bool :=
  [0, 1, 2].any fun n => (slotAt s n).any fun m => m.modh == h

/-- The check every command but CTXOPEN makes first (10_state.md R27). -/
def noContext (s : State) : Bool × FaultCode := (!s.ctx, .nullContext)

/-- A handle that must be valid (10_state.md R22). -/
def badHandle (s : State) (h : Nat) : Bool × FaultCode := (!valid s h, .invalidHandle)

/-- The receiver checks (10_state.md R41). -/
def receiverChecks (s : State) (ha : Nat) : List (Bool × FaultCode) :=
  [badHandle s ha, (decide ((s.entry ha).st = .perm), .permanentReceiver),
    (decide ((s.entry ha).rc ≠ 1), .sharedReceiver)]

/-- The operand checks (10_state.md R42). -/
def operandChecks (s : State) (ha hb : Nat) : List (Bool × FaultCode) :=
  [badHandle s hb, (decide (hb = ha), .operandAlias)]

/-- A value that is read as data (10_state.md R21). -/
def unreadable (s : State) (h : Nat) : Bool × FaultCode := (poison s h, .undefinedData)

/-- The two last checks of an allocation (10_state.md R38). -/
def poolChecks (s : State) : List (Bool × FaultCode) :=
  [(s.free.head?.any fun h => decide ((s.entry h).rc ≠ 0), .poolConsistency),
    (s.free.isEmpty && s.table.all fun e => decide (e.st ≠ .unused), .poolExhausted)]

/-- The next state's handle table: the same entries, each as `f` says. -/
def TableIs (s t : State) (f : Nat → Entry) : Prop :=
  t.table.length = s.table.length ∧ ∀ h, t.entry h = f h

/-- An ordinary value with one owner. -/
def owned (L : List Limb) : Entry := { st := .live, rc := 1, limbs := L }

/-- What ReleaseHandle makes of an entry (10_state.md R39). -/
def released (e : Entry) : Entry :=
  if e.st = .perm then e
  else if e.rc ≤ 1 then { st := .free, rc := 0, limbs := [] }
  else { e with rc := e.rc - 1 }

/-- What ReleaseHandle makes of FL (10_state.md R39). -/
def releasedFree (s : State) (h : Nat) : List Nat :=
  if (s.entry h).st ≠ .perm ∧ (s.entry h).rc ≤ 1 then h :: s.free else s.free

/-- `h` is the handle AllocHandle takes: the top of FL, else the least UNUSED one (10_state.md R38). -/
def NextHandle (s : State) (h : Nat) : Prop :=
  match s.free with
  | x :: _ => h = x
  | [] => h < s.par.nh ∧ (s.entry h).st = .unused ∧ ∀ j, j < h → (s.entry j).st ≠ .unused

/-- The in-place result of a receiver with the numeric value `v`, trimmed (10_state.md R40). -/
def inPlace (s : State) (v : Nat) : Entry := owned ((trimmed s.par.w v).map some)

/-- The table of a command that writes HA in place and consumes HB (10_state.md R40, R42). -/
def afterConsuming (s : State) (ha hb : Nat) (e : Entry) (h : Nat) : Entry :=
  if h = ha then e else if h = hb then released (s.entry hb) else s.entry h

/-- The table in which one entry was written. -/
def oneEntry (s : State) (ha : Nat) (e : Entry) (h : Nat) : Entry := if h = ha then e else s.entry h

/-- `ceil(L / BPL)` (45_limb_buffer_context.md R105). -/
def limbsFor (s : State) (len : Nat) : Nat := (len + s.par.w / 8 - 1) / (s.par.w / 8)

/-- The ASCII code of the hexadecimal digit `x` (40_limb_buffer_values.md R92). -/
def hexDigit (x : Nat) : Byte := if x < 10 then BitVec.ofNat 8 (48 + x) else BitVec.ofNat 8 (55 + x)

/-- The end of the engine step (10_state.md R36, 60_exceptions.md R121). -/
def stepEnd (t : State) : State :=
  if t.pconf = true ∧ t.halted = false then
    { faulted t .busConflict with pconf := false, busy := false }
  else { t with pconf := false, busy := false }

/-- The engine step of `s` leaves `t`, in both ways it comes about: with nothing left in the script, and
by the event `engine` before the rest of the script (10_state.md R36). -/
def EngineStepIs (s t : State) : Prop :=
  (s.script = [] → step s = .next t) ∧ step { s with script := .engine :: s.script } = .next t

/-! ### The checks of each command, in the order of its rule (60_exceptions.md R115, R117) -/

def queryChecks (s : State) (ha q : Nat) : List (Bool × FaultCode) :=
  [noContext s, (decide (q = 2 ∨ q = 3) && !valid s ha, .invalidHandle),
    (decide (10 < q ∨ (q ≠ 2 ∧ q ≠ 3 ∧ ha ≠ 0)), .badOperand)]

def allocChecks (s : State) (n : Nat) : List (Bool × FaultCode) :=
  [noContext s, (decide (n = 0), .badLength), (decide (s.par.lmax < n), .capacity)] ++ poolChecks s

def allociChecks (s : State) (t : Nat) : List (Bool × FaultCode) :=
  [noContext s, (decide (2 ^ s.par.w ≤ t), .badOperand)] ++ poolChecks s

def loadChecks (s : State) (addr len : Nat) : List (Bool × FaultCode) :=
  [noContext s, (decide (len = 0), .badLength), (decide (s.par.bufsz < addr + len), .bufRange),
    ((List.range len).any fun i => (s.byteAt (addr + i)).isNone, .undefinedData),
    (decide (s.par.lmax < limbsFor s len), .capacity)] ++ poolChecks s

def saveChecks (s : State) (ha addr len : Nat) : List (Bool × FaultCode) :=
  [noContext s, badHandle s ha, (decide (len = 0), .badLength),
    (decide (s.par.bufsz < addr + len), .bufRange), unreadable s ha,
    (decide (256 ^ len ≤ valueOf s ha), .saveOverflow)]

def hexChecks (s : State) (ha addr : Nat) : List (Bool × FaultCode) :=
  [noContext s, badHandle s ha,
    (decide (s.par.bufsz < addr + 2 * (lenOf s ha * (s.par.w / 8))), .bufRange), unreadable s ha]

def copyChecks (s : State) (ha : Nat) : List (Bool × FaultCode) :=
  [noContext s, badHandle s ha,
    (decide ((s.entry ha).st = .live ∧ (s.entry ha).rc = s.par.rcmax), .refcountOverflow)]

def cloneChecks (s : State) (ha : Nat) : List (Bool × FaultCode) :=
  [noContext s, badHandle s ha] ++ poolChecks s

def setpermChecks (s : State) (ha : Nat) : List (Bool × FaultCode) :=
  [noContext s, badHandle s ha,
    (decide ((s.entry ha).st = .perm ∨ (s.entry ha).rc ≠ 1), .permMisuse)]

def rstpermChecks (s : State) (ha : Nat) : List (Bool × FaultCode) :=
  [noContext s, badHandle s ha, (isModulus s ha, .modBound),
    (decide ((s.entry ha).st ≠ .perm), .permMisuse)]

def resizeChecks (s : State) (ha n : Nat) : List (Bool × FaultCode) :=
  [noContext s] ++ receiverChecks s ha ++
    [(decide (n = 0), .badLength), (decide (s.par.lmax < n), .capacity)]

def readReceiverChecks (s : State) (ha : Nat) : List (Bool × FaultCode) :=
  [noContext s] ++ receiverChecks s ha ++ [unreadable s ha]

def lshiftChecks (s : State) (ha n : Nat) : List (Bool × FaultCode) :=
  readReceiverChecks s ha ++ [(decide (s.par.lmax < lenOf s ha + n), .capacity)]

def iszeroChecks (s : State) (ha : Nat) : List (Bool × FaultCode) :=
  [noContext s] ++ (if ha = 0xFF then [] else [badHandle s ha, unreadable s ha])

def bitsetChecks (s : State) (ha i : Nat) : List (Bool × FaultCode) :=
  [noContext s, badHandle s ha, (decide (lenOf s ha * s.par.w ≤ i), .badOperand), unreadable s ha]

def bitcountChecks (s : State) (ha : Nat) : List (Bool × FaultCode) :=
  [noContext s, badHandle s ha, unreadable s ha]

def cmpChecks (s : State) (ha hb : Nat) : List (Bool × FaultCode) :=
  [noContext s, badHandle s ha, badHandle s hb, unreadable s ha, unreadable s hb]

def consumingChecks (s : State) (ha hb : Nat) : List (Bool × FaultCode) :=
  [noContext s] ++ receiverChecks s ha ++ operandChecks s ha hb ++ [unreadable s ha, unreadable s hb]

def addChecks (s : State) (ha hb : Nat) : List (Bool × FaultCode) :=
  consumingChecks s ha hb ++ [(decide (s.par.lmax < max (lenOf s ha) (lenOf s hb) + 1), .capacity)]

def mulChecks (s : State) (ha hb : Nat) : List (Bool × FaultCode) :=
  consumingChecks s ha hb ++ [(decide (s.par.lmax < lenOf s ha + lenOf s hb), .capacity)]

def divChecks (s : State) (ha hb : Nat) : List (Bool × FaultCode) :=
  consumingChecks s ha hb ++ [(decide ((limbsOf s hb).getLastD 0 = 0), .divideByZero)]

def imulChecks (s : State) (ha t : Nat) : List (Bool × FaultCode) :=
  [noContext s] ++ receiverChecks s ha ++ [(decide (2 ^ s.par.w ≤ t), .badOperand), unreadable s ha,
    (decide (s.par.lmax < lenOf s ha + 1), .capacity)]

def idivChecks (s : State) (ha t : Nat) : List (Bool × FaultCode) :=
  [noContext s] ++ receiverChecks s ha ++ [(decide (2 ^ s.par.w ≤ t), .badOperand), unreadable s ha,
    (decide (t = 0), .divideByZero)]

def setmodChecks (s : State) (ha slot : Nat) : List (Bool × FaultCode) :=
  [noContext s, (decide (3 ≤ slot), .badSlot), badHandle s ha,
    (decide ((s.entry ha).st ≠ .live ∨ (s.entry ha).rc ≠ 1), .permMisuse),
    ((slotAt s slot).isSome, .slotBusy), unreadable s ha,
    (decide ((limbsOf s ha).getLastD 0 = 0), .badModulus),
    (decide (s.par.lmax < lenOf s ha + 2), .capacity)]

def rstmodChecks (s : State) (slot : Nat) : List (Bool × FaultCode) :=
  [noContext s, (decide (3 ≤ slot), .badSlot), ((slotAt s slot).isNone, .noModulus),
    ((slotAt s slot).any fun m => decide ((s.entry m.modh).st ≠ .perm), .permMisuse)]

def selmodChecks (s : State) (slot : Nat) : List (Bool × FaultCode) :=
  [noContext s, (decide (3 ≤ slot), .badSlot)]

def barrettChecks (s : State) (ha : Nat) : List (Bool × FaultCode) :=
  [noContext s] ++ receiverChecks s ha ++ [((slotAt s s.cur.val).isNone, .noModulus), unreadable s ha]

/-- Which faults a command can raise, besides ILLEGAL_COMMAND and BUS_CONFLICT (60_exceptions.md R115). -/
def commandFaults : Instr → List FaultCode
  | .ctxopen => [.ctxState]
  | .ctxclose => [.nullContext]
  | .query _ _ => [.nullContext, .invalidHandle, .badOperand]
  | .alloc _ _ => [.nullContext, .badLength, .capacity, .poolConsistency, .poolExhausted]
  | .alloci _ => [.nullContext, .badOperand, .poolConsistency, .poolExhausted]
  | .load _ _ => [.nullContext, .badLength, .bufRange, .undefinedData, .capacity, .poolConsistency,
      .poolExhausted]
  | .save _ _ _ => [.nullContext, .invalidHandle, .badLength, .bufRange, .undefinedData, .saveOverflow]
  | .hex _ _ => [.nullContext, .invalidHandle, .bufRange, .undefinedData]
  | .release _ => [.nullContext, .invalidHandle]
  | .copy _ => [.nullContext, .invalidHandle, .refcountOverflow]
  | .clone _ => [.nullContext, .invalidHandle, .poolConsistency, .poolExhausted]
  | .setperm _ => [.nullContext, .invalidHandle, .permMisuse]
  | .rstperm _ _ => [.nullContext, .invalidHandle, .modBound, .permMisuse]
  | .resize _ _ _ => [.nullContext, .invalidHandle, .permanentReceiver, .sharedReceiver, .badLength,
      .capacity]
  | .trim _ => [.nullContext, .invalidHandle, .permanentReceiver, .sharedReceiver, .undefinedData]
  | .lshift _ _ => [.nullContext, .invalidHandle, .permanentReceiver, .sharedReceiver, .undefinedData,
      .capacity]
  | .rshift _ _ => [.nullContext, .invalidHandle, .permanentReceiver, .sharedReceiver, .undefinedData]
  | .iszero _ => [.nullContext, .invalidHandle, .undefinedData]
  | .bitset _ _ => [.nullContext, .invalidHandle, .badOperand, .undefinedData]
  | .bitcount _ => [.nullContext, .invalidHandle, .undefinedData]
  | .cmp _ _ => [.nullContext, .invalidHandle, .undefinedData]
  | .add _ _ => [.nullContext, .invalidHandle, .permanentReceiver, .sharedReceiver, .operandAlias,
      .undefinedData, .capacity]
  | .sub _ _ => [.nullContext, .invalidHandle, .permanentReceiver, .sharedReceiver, .operandAlias,
      .undefinedData]
  | .mul _ _ => [.nullContext, .invalidHandle, .permanentReceiver, .sharedReceiver, .operandAlias,
      .undefinedData, .capacity]
  | .imul _ _ => [.nullContext, .invalidHandle, .permanentReceiver, .sharedReceiver, .badOperand,
      .undefinedData, .capacity]
  | .div _ _ _ => [.nullContext, .invalidHandle, .permanentReceiver, .sharedReceiver, .operandAlias,
      .undefinedData, .divideByZero]
  | .idiv _ _ => [.nullContext, .invalidHandle, .permanentReceiver, .sharedReceiver, .badOperand,
      .undefinedData, .divideByZero]
  | .setmod _ _ => [.nullContext, .badSlot, .invalidHandle, .permMisuse, .slotBusy, .undefinedData,
      .badModulus, .capacity]
  | .rstmod _ => [.nullContext, .badSlot, .noModulus, .permMisuse]
  | .selmod _ => [.nullContext, .badSlot]
  | .barrett _ => [.nullContext, .invalidHandle, .permanentReceiver, .sharedReceiver, .noModulus,
      .undefinedData]

end Sys2Proof.Claims

namespace Sys2Proof.Claims
open Sys2Proof.Machine

/-- Lexicographic order on the stored lists: length first, then limb by limb from the most significant
(40_limb_buffer_values.md R86). -/
def LexLess (A B : List Nat) : Prop :=
  A.length < B.length ∨ (A.length = B.length ∧ ∃ i, i < A.length ∧ A.getD i 0 < B.getD i 0 ∧
    ∀ j, i < j → j < A.length → A.getD j 0 = B.getD j 0)

/-- A fresh allocation of the list `L` in handle `h`, reported in RES (10_state.md R38). -/
def Allocated (s t : State) (h : Nat) (L : List Limb) : Prop :=
  NextHandle s h ∧ TableIs s t (oneEntry s h (owned L)) ∧ t.free = s.free.tail ∧
    t.res = BitVec.ofNat 32 h ∧ { t with table := s.table, free := s.free, res := s.res } = s

/-- The receiver HA was written in place with entry `e`, HA is in RES, and nothing else changed
(10_state.md R40). -/
def WroteReceiver (s t : State) (ha : Nat) (e : Entry) : Prop :=
  TableIs s t (oneEntry s ha e) ∧ t.res = BitVec.ofNat 32 ha ∧
    { t with table := s.table, res := s.res } = s

/-- The receiver HA was written with entry `e`, HB was released, HA is in RES, and nothing else changed
(10_state.md R40, R42). -/
def WroteAndConsumed (s t : State) (ha hb : Nat) (e : Entry) : Prop :=
  TableIs s t (afterConsuming s ha hb e) ∧ t.free = releasedFree s hb ∧ t.res = BitVec.ofNat 32 ha ∧
    { t with table := s.table, free := s.free, res := s.res } = s

/-- Only RES was written. -/
def WroteResult (s t : State) (v : BusWord) : Prop := t.res = v ∧ { t with res := s.res } = s

/-- The state of the block that has no context (10_state.md R45). -/
def Cleared (s t : State) : Prop :=
  t.table = List.replicate s.par.nh { st := .unused, rc := 0, limbs := [] } ∧ t.free = [] ∧
    (∀ n, slotAt t n = none) ∧ t.cur = 0

/-- Every piece of the block's state at its reset value (10_state.md R44). -/
def ResetValues (t : State) : Prop :=
  (t.table.length = t.par.nh ∧ ∀ h, t.entry h = { st := .unused, rc := 0, limbs := [] }) ∧ t.free = [] ∧
    (∀ n, slotAt t n = none) ∧ t.cur = 0 ∧ t.ctx = false ∧ t.res = 0 ∧ t.neg = false ∧
    t.halted = false ∧ t.fcode = .none ∧ t.fcode.code = 0x00#8 ∧ t.fcmd = 0 ∧ t.busy = false ∧
    t.pconf = false ∧ t.cmdLo = 0 ∧ t.cmdHi = 0 ∧ (∀ a, t.byteAt a = none) ∧ t.status = 0#32

/-- The command is ALLOC or RESIZE with SKIP set (10_state.md R21). -/
def skips : Instr → Bool
  | .alloc skip _ => skip
  | .resize _ skip _ => skip
  | _ => false

end Sys2Proof.Claims

/-! ### The commands -/

section Commands
open Sys2Proof Sys2Proof.Machine Sys2Proof.Claims

/-- CTXOPEN opens an empty context (45_limb_buffer_context.md R100). -/
def Obligations.CtxopenRule : Prop :=
  Instr.ctxopen.opcode.code = 0x01#8 ∧ Instr.ctxopen.opcode.format = .n ∧
  ∀ s : State,
    (s.ctx = true → exec .ctxopen s = .next (faulted s .ctxState)) ∧
    (s.ctx = false → ∃ t, exec .ctxopen s = .next t ∧ Cleared s t ∧ t.ctx = true ∧ t.res = 0 ∧
      { t with table := s.table, free := s.free, ms := s.ms, cur := s.cur, ctx := s.ctx, res := s.res }
        = s)

/-- CTXCLOSE discards the context (45_limb_buffer_context.md R101). -/
def Obligations.CtxcloseRule : Prop :=
  Instr.ctxclose.opcode.code = 0x02#8 ∧ Instr.ctxclose.opcode.format = .n ∧
  ∀ s : State,
    (s.ctx = false → exec .ctxclose s = .next (faulted s .nullContext)) ∧
    (s.ctx = true → ∃ t, exec .ctxclose s = .next t ∧ Cleared s t ∧ t.ctx = false ∧ t.res = 0 ∧
      { t with table := s.table, free := s.free, ms := s.ms, cur := s.cur, ctx := s.ctx, res := s.res }
        = s)

/-- QUERY reports a diagnostic or a parameter (45_limb_buffer_context.md R102). A count that does not
fit the 32-bit RES has no stated value (log 10). -/
def Obligations.QueryRule : Prop :=
  (∀ ha q, (Instr.query ha q).opcode.code = 0x03#8 ∧ (Instr.query ha q).opcode.format = .hi) ∧
  ∀ (s : State) (ha q : Nat),
    (∀ c, firstFault (queryChecks s ha q) = some c → exec (.query ha q) s = .next (faulted s c)) ∧
    (firstFault (queryChecks s ha q) = none → ∃ t, exec (.query ha q) s = .next t ∧
      (q = 0 → t.res =
        BitVec.ofNat 32 (s.table.countP fun e => decide (e.st = .live ∨ e.st = .perm))) ∧
      (q = 1 → t.res = BitVec.ofNat 32 s.free.length) ∧
      (q = 2 → t.res = BitVec.ofNat 32 (lenOf s ha)) ∧
      (q = 3 → (s.entry ha).st = .perm → t.res = 0xFFFFFFFF#32) ∧
      (q = 3 → (s.entry ha).st ≠ .perm → (s.entry ha).rc < 2 ^ 32 →
        t.res = BitVec.ofNat 32 (s.entry ha).rc) ∧
      (q = 4 → t.res = BitVec.ofNat 32 s.cur.val) ∧
      (q = 5 → t.res = BitVec.ofNat 32 ((if (slotAt s 0).isSome then 1 else 0)
        + (if (slotAt s 1).isSome then 2 else 0) + (if (slotAt s 2).isSome then 4 else 0))) ∧
      (q = 6 → t.res = BitVec.ofNat 32 s.par.nh) ∧
      (q = 7 → t.res = BitVec.ofNat 32 s.par.lmax) ∧
      (q = 8 → t.res = BitVec.ofNat 32 s.par.w) ∧
      (q = 9 → t.res = BitVec.ofNat 32 s.par.bufsz) ∧
      (q = 10 → s.par.rcmax < 2 ^ 32 → t.res = BitVec.ofNat 32 s.par.rcmax) ∧
      { t with res := s.res } = s)

/-- ALLOC (45_limb_buffer_context.md R103). -/
def Obligations.AllocRule : Prop :=
  (∀ k n, (Instr.alloc k n).opcode.code = 0x08#8 ∧ (Instr.alloc k n).opcode.format = .fn) ∧
  ∀ (s : State) (skip : Bool) (n : Nat),
    (∀ c, firstFault (allocChecks s n) = some c → exec (.alloc skip n) s = .next (faulted s c)) ∧
    (s.DataInv → firstFault (allocChecks s n) = none → ∃ t h, exec (.alloc skip n) s = .next t ∧
      Allocated s t h (List.replicate n (if skip then none else some 0)))

/-- ALLOCI (45_limb_buffer_context.md R104). -/
def Obligations.AllociRule : Prop :=
  (∀ v, (Instr.alloci v).opcode.code = 0x09#8 ∧ (Instr.alloci v).opcode.format = .i) ∧
  ∀ (s : State) (v : Nat),
    (∀ c, firstFault (allociChecks s v) = some c → exec (.alloci v) s = .next (faulted s c)) ∧
    (s.DataInv → firstFault (allociChecks s v) = none → ∃ t h, exec (.alloci v) s = .next t ∧
      Allocated s t h [some v])

/-- LOAD (45_limb_buffer_context.md R105): the bytes `bs` of `BUF[addr .. addr+len)`, read as a
big-endian number, in `ceil(len / BPL)` limbs. -/
def Obligations.LoadRule : Prop :=
  (∀ a l, (Instr.load a l).opcode.code = 0x0A#8 ∧ (Instr.load a l).opcode.format = .b) ∧
  ∀ (s : State) (addr len : Nat),
    (∀ c, firstFault (loadChecks s addr len) = some c → exec (.load addr len) s = .next (faulted s c)) ∧
    (s.DataInv → firstFault (loadChecks s addr len) = none →
      ∃ t h, ∃ (bs : List Byte) (L : List Nat), exec (.load addr len) s = .next t ∧
        bs.length = len ∧ (∀ i, i < len → s.byteAt (addr + i) = bs[i]?) ∧
        L.length = limbsFor s len ∧ (∀ x ∈ L, x < 2 ^ s.par.w) ∧ val (2 ^ s.par.w) L = beValue bs ∧
        Allocated s t h (L.map some))

/-- SAVE (40_limb_buffer_values.md R91): byte `addr + i` gets weight `256^(len-1-i)`; every byte outside
`BUF[addr .. addr+len)` stays. -/
def Obligations.SaveRule : Prop :=
  (∀ h a l, (Instr.save h a l).opcode.code = 0x0B#8 ∧ (Instr.save h a l).opcode.format = .hb) ∧
  ∀ (s : State) (ha addr len : Nat),
    (∀ c, firstFault (saveChecks s ha addr len) = some c →
      exec (.save ha addr len) s = .next (faulted s c)) ∧
    (firstFault (saveChecks s ha addr len) = none → ∃ t, exec (.save ha addr len) s = .next t ∧
      (∀ a, t.byteAt a = if addr ≤ a ∧ a < addr + len
        then some (BitVec.ofNat 8 (valueOf s ha / 256 ^ (addr + len - 1 - a) % 256)) else s.byteAt a) ∧
      t.res = BitVec.ofNat 32 len ∧ { t with buf := s.buf, res := s.res } = s)

/-- HEX (40_limb_buffer_values.md R92): the value's hexadecimal digits, `2 * BPL` of them for each limb,
most significant first; every other byte stays. -/
def Obligations.HexRule : Prop :=
  (∀ h a, (Instr.hex h a).opcode.code = 0x0C#8 ∧ (Instr.hex h a).opcode.format = .hx) ∧
  ∀ (s : State) (ha addr : Nat),
    (∀ c, firstFault (hexChecks s ha addr) = some c → exec (.hex ha addr) s = .next (faulted s c)) ∧
    (firstFault (hexChecks s ha addr) = none → ∃ t n, exec (.hex ha addr) s = .next t ∧
      n = 2 * (lenOf s ha * (s.par.w / 8)) ∧
      (∀ a, t.byteAt a = if addr ≤ a ∧ a < addr + n
        then some (hexDigit (valueOf s ha / 16 ^ (addr + n - 1 - a) % 16)) else s.byteAt a) ∧
      t.res = BitVec.ofNat 32 n ∧ { t with buf := s.buf, res := s.res } = s)

/-- RELEASE (45_limb_buffer_context.md R106). A count that does not fit RES has no stated value
(log 10). -/
def Obligations.ReleaseRule : Prop :=
  (∀ h, (Instr.release h).opcode.code = 0x10#8 ∧ (Instr.release h).opcode.format = .h) ∧
  ∀ (s : State) (ha : Nat),
    (∀ c, firstFault [noContext s, badHandle s ha] = some c →
      exec (.release ha) s = .next (faulted s c)) ∧
    (firstFault [noContext s, badHandle s ha] = none → ∃ t, exec (.release ha) s = .next t ∧
      TableIs s t (oneEntry s ha (released (s.entry ha))) ∧ t.free = releasedFree s ha ∧
      ((s.entry ha).st = .perm → t.res = 0xFFFFFFFF#32) ∧
      ((s.entry ha).st ≠ .perm → (s.entry ha).rc - 1 < 2 ^ 32 →
        t.res = BitVec.ofNat 32 ((s.entry ha).rc - 1)) ∧
      { t with table := s.table, free := s.free, res := s.res } = s)

/-- COPY (40_limb_buffer_values.md R89). -/
def Obligations.CopyRule : Prop :=
  (∀ h, (Instr.copy h).opcode.code = 0x11#8 ∧ (Instr.copy h).opcode.format = .h) ∧
  ∀ (s : State) (ha : Nat),
    (∀ c, firstFault (copyChecks s ha) = some c → exec (.copy ha) s = .next (faulted s c)) ∧
    (firstFault (copyChecks s ha) = none → ∃ t, exec (.copy ha) s = .next t ∧
      WroteReceiver s t ha (if (s.entry ha).st = .live
        then { s.entry ha with rc := (s.entry ha).rc + 1 } else s.entry ha))

/-- CLONE (40_limb_buffer_values.md R90). -/
def Obligations.CloneRule : Prop :=
  (∀ h, (Instr.clone h).opcode.code = 0x12#8 ∧ (Instr.clone h).opcode.format = .h) ∧
  ∀ (s : State) (ha : Nat),
    (∀ c, firstFault (cloneChecks s ha) = some c → exec (.clone ha) s = .next (faulted s c)) ∧
    (s.DataInv → firstFault (cloneChecks s ha) = none → ∃ t h, exec (.clone ha) s = .next t ∧
      h ≠ ha ∧ Allocated s t h (s.entry ha).limbs)

/-- SETPERM (45_limb_buffer_context.md R107). -/
def Obligations.SetpermRule : Prop :=
  (∀ h, (Instr.setperm h).opcode.code = 0x13#8 ∧ (Instr.setperm h).opcode.format = .h) ∧
  ∀ (s : State) (ha : Nat),
    (∀ c, firstFault (setpermChecks s ha) = some c → exec (.setperm ha) s = .next (faulted s c)) ∧
    (firstFault (setpermChecks s ha) = none → ∃ t, exec (.setperm ha) s = .next t ∧
      WroteReceiver s t ha { s.entry ha with st := .perm })

/-- RSTPERM and RSTPERM.R (45_limb_buffer_context.md R108). -/
def Obligations.RstpermRule : Prop :=
  (∀ h r, (Instr.rstperm h r).opcode.code = 0x14#8 ∧ (Instr.rstperm h r).opcode.format = .hf) ∧
  ∀ (s : State) (ha : Nat) (rel : Bool),
    (∀ c, firstFault (rstpermChecks s ha) = some c →
      exec (.rstperm ha rel) s = .next (faulted s c)) ∧
    (firstFault (rstpermChecks s ha) = none → ∃ t, exec (.rstperm ha rel) s = .next t ∧
      TableIs s t (oneEntry s ha
        (if rel then { st := .free, rc := 0, limbs := [] } else owned (s.entry ha).limbs)) ∧
      t.free = (if rel then ha :: s.free else s.free) ∧ t.res = BitVec.ofNat 32 ha ∧
      { t with table := s.table, free := s.free, res := s.res } = s)

/-- RESIZE (40_limb_buffer_values.md R81). -/
def Obligations.ResizeRule : Prop :=
  (∀ h k n, (Instr.resize h k n).opcode.code = 0x18#8 ∧ (Instr.resize h k n).opcode.format = .hfn) ∧
  ∀ (s : State) (ha : Nat) (skip : Bool) (n : Nat),
    (∀ c, firstFault (resizeChecks s ha n) = some c →
      exec (.resize ha skip n) s = .next (faulted s c)) ∧
    (firstFault (resizeChecks s ha n) = none → ∃ t, exec (.resize ha skip n) s = .next t ∧
      WroteReceiver s t ha (owned ((s.entry ha).limbs.take n ++
        List.replicate (n - lenOf s ha) (if skip then none else some 0))))

/-- TRIM (40_limb_buffer_values.md R82). -/
def Obligations.TrimRule : Prop :=
  (∀ h, (Instr.trim h).opcode.code = 0x19#8 ∧ (Instr.trim h).opcode.format = .h) ∧
  ∀ (s : State) (ha : Nat),
    (∀ c, firstFault (readReceiverChecks s ha) = some c → exec (.trim ha) s = .next (faulted s c)) ∧
    (firstFault (readReceiverChecks s ha) = none → ∃ t, exec (.trim ha) s = .next t ∧
      WroteReceiver s t ha (inPlace s (valueOf s ha)))

/-- LSHIFT (40_limb_buffer_values.md R87). -/
def Obligations.LshiftRule : Prop :=
  (∀ h n, (Instr.lshift h n).opcode.code = 0x1A#8 ∧ (Instr.lshift h n).opcode.format = .hn) ∧
  ∀ (s : State) (ha n : Nat),
    (∀ c, firstFault (lshiftChecks s ha n) = some c → exec (.lshift ha n) s = .next (faulted s c)) ∧
    (firstFault (lshiftChecks s ha n) = none → ∃ t, exec (.lshift ha n) s = .next t ∧
      WroteReceiver s t ha (owned (List.replicate n (some 0) ++ (s.entry ha).limbs)))

/-- RSHIFT (40_limb_buffer_values.md R88). -/
def Obligations.RshiftRule : Prop :=
  (∀ h n, (Instr.rshift h n).opcode.code = 0x1B#8 ∧ (Instr.rshift h n).opcode.format = .hn) ∧
  ∀ (s : State) (ha n : Nat),
    (∀ c, firstFault (readReceiverChecks s ha) = some c →
      exec (.rshift ha n) s = .next (faulted s c)) ∧
    (firstFault (readReceiverChecks s ha) = none → ∃ t, exec (.rshift ha n) s = .next t ∧
      WroteReceiver s t ha
        (owned (if lenOf s ha ≤ n then [some 0] else (s.entry ha).limbs.drop n)))

/-- ISZERO; it alone accepts NULL (40_limb_buffer_values.md R83). -/
def Obligations.IszeroRule : Prop :=
  (∀ h, (Instr.iszero h).opcode.code = 0x20#8 ∧ (Instr.iszero h).opcode.format = .h) ∧
  ∀ (s : State) (ha : Nat),
    (∀ c, firstFault (iszeroChecks s ha) = some c → exec (.iszero ha) s = .next (faulted s c)) ∧
    (firstFault (iszeroChecks s ha) = none → ∃ t, exec (.iszero ha) s = .next t ∧
      (ha = 0xFF → WroteResult s t 1) ∧
      (ha ≠ 0xFF → WroteResult s t (if ∀ x ∈ limbsOf s ha, x = 0 then 1 else 0)))

/-- BITSET (40_limb_buffer_values.md R84). -/
def Obligations.BitsetRule : Prop :=
  (∀ h i, (Instr.bitset h i).opcode.code = 0x21#8 ∧ (Instr.bitset h i).opcode.format = .hi) ∧
  ∀ (s : State) (ha i : Nat),
    (∀ c, firstFault (bitsetChecks s ha i) = some c → exec (.bitset ha i) s = .next (faulted s c)) ∧
    (firstFault (bitsetChecks s ha i) = none → ∃ t, exec (.bitset ha i) s = .next t ∧
      WroteResult s t
        (if ((limbsOf s ha).getD (i / s.par.w) 0).testBit (i % s.par.w) then 1 else 0))

/-- BITCOUNT (40_limb_buffer_values.md R85): RES is the least `n` with `val(HA) < 2^n`. -/
def Obligations.BitcountRule : Prop :=
  (∀ h, (Instr.bitcount h).opcode.code = 0x22#8 ∧ (Instr.bitcount h).opcode.format = .h) ∧
  ∀ (s : State) (ha : Nat),
    (∀ c, firstFault (bitcountChecks s ha) = some c → exec (.bitcount ha) s = .next (faulted s c)) ∧
    (firstFault (bitcountChecks s ha) = none → ∃ t n, exec (.bitcount ha) s = .next t ∧
      (∀ k, valueOf s ha < 2 ^ k ↔ n ≤ k) ∧ WroteResult s t (BitVec.ofNat 32 n))

/-- CMP compares the stored lists, length first (40_limb_buffer_values.md R86). -/
def Obligations.CmpRule : Prop :=
  (∀ h g, (Instr.cmp h g).opcode.code = 0x23#8 ∧ (Instr.cmp h g).opcode.format = .hh) ∧
  ∀ (s : State) (ha hb : Nat),
    (∀ c, firstFault (cmpChecks s ha hb) = some c → exec (.cmp ha hb) s = .next (faulted s c)) ∧
    (firstFault (cmpChecks s ha hb) = none → ∃ t, exec (.cmp ha hb) s = .next t ∧
      (LexLess (limbsOf s hb) (limbsOf s ha) → WroteResult s t 0x00000001#32) ∧
      (limbsOf s ha = limbsOf s hb → WroteResult s t 0x00000000#32) ∧
      (LexLess (limbsOf s ha) (limbsOf s hb) → WroteResult s t 0xFFFFFFFF#32))

/-- ADD (41_modular_adder.md R93). -/
def Obligations.AddRule : Prop :=
  (∀ h g, (Instr.add h g).opcode.code = 0x30#8 ∧ (Instr.add h g).opcode.format = .hh) ∧
  ∀ (s : State) (ha hb : Nat),
    (∀ c, firstFault (addChecks s ha hb) = some c → exec (.add ha hb) s = .next (faulted s c)) ∧
    (firstFault (addChecks s ha hb) = none → ∃ t, exec (.add ha hb) s = .next t ∧
      WroteAndConsumed s t ha hb (inPlace s (valueOf s ha + valueOf s hb)))

/-- SUB, the one command that writes NEG (42_modular_subtractor.md R94). -/
def Obligations.SubRule : Prop :=
  (∀ h g, (Instr.sub h g).opcode.code = 0x31#8 ∧ (Instr.sub h g).opcode.format = .hh) ∧
  ∀ (s : State) (ha hb : Nat),
    (∀ c, firstFault (consumingChecks s ha hb) = some c →
      exec (.sub ha hb) s = .next (faulted s c)) ∧
    (firstFault (consumingChecks s ha hb) = none → ∃ t, exec (.sub ha hb) s = .next t ∧
      TableIs s t (afterConsuming s ha hb (inPlace s
        ((valueOf s ha - valueOf s hb) + (valueOf s hb - valueOf s ha)))) ∧
      t.free = releasedFree s hb ∧ t.res = BitVec.ofNat 32 ha ∧
      t.neg = decide (valueOf s ha < valueOf s hb) ∧
      { t with table := s.table, free := s.free, res := s.res, neg := s.neg } = s)

/-- MUL (43_multi_limb_multiplier.md R96). -/
def Obligations.MulRule : Prop :=
  (∀ h g, (Instr.mul h g).opcode.code = 0x38#8 ∧ (Instr.mul h g).opcode.format = .hh) ∧
  ∀ (s : State) (ha hb : Nat),
    (∀ c, firstFault (mulChecks s ha hb) = some c → exec (.mul ha hb) s = .next (faulted s c)) ∧
    (firstFault (mulChecks s ha hb) = none → ∃ t, exec (.mul ha hb) s = .next t ∧
      WroteAndConsumed s t ha hb (inPlace s (valueOf s ha * valueOf s hb)))

/-- IMUL (43_multi_limb_multiplier.md R95). -/
def Obligations.ImulRule : Prop :=
  (∀ h v, (Instr.imul h v).opcode.code = 0x39#8 ∧ (Instr.imul h v).opcode.format = .hi) ∧
  ∀ (s : State) (ha v : Nat),
    (∀ c, firstFault (imulChecks s ha v) = some c → exec (.imul ha v) s = .next (faulted s c)) ∧
    (firstFault (imulChecks s ha v) = none → ∃ t, exec (.imul ha v) s = .next t ∧
      WroteReceiver s t ha (inPlace s (valueOf s ha * v)))

/-- DIV and DIV.M (44_knuth_divider.md R98). -/
def Obligations.DivRule : Prop :=
  (∀ h g m, (Instr.div h g m).opcode.code = 0x40#8 ∧ (Instr.div h g m).opcode.format = .hhf) ∧
  ∀ (s : State) (ha hb : Nat) (mod : Bool),
    (∀ c, firstFault (divChecks s ha hb) = some c →
      exec (.div ha hb mod) s = .next (faulted s c)) ∧
    (firstFault (divChecks s ha hb) = none → ∃ t e, exec (.div ha hb mod) s = .next t ∧
      WroteAndConsumed s t ha hb e ∧
      (mod = false → e = inPlace s (valueOf s ha / valueOf s hb)) ∧
      (mod = true → LexLess (limbsOf s ha) (limbsOf s hb) → e = s.entry ha) ∧
      (mod = true → ¬ LexLess (limbsOf s ha) (limbsOf s hb) →
        e = inPlace s (valueOf s ha % valueOf s hb)))

/-- IDIV (44_knuth_divider.md R97). -/
def Obligations.IdivRule : Prop :=
  (∀ h v, (Instr.idiv h v).opcode.code = 0x41#8 ∧ (Instr.idiv h v).opcode.format = .hi) ∧
  ∀ (s : State) (ha v : Nat),
    (∀ c, firstFault (idivChecks s ha v) = some c → exec (.idiv ha v) s = .next (faulted s c)) ∧
    (firstFault (idivChecks s ha v) = none → ∃ t, exec (.idiv ha v) s = .next t ∧
      WroteReceiver s t ha (inPlace s (valueOf s ha / v)))

/-- SETMOD (46_barrett_reduction_engine.md R109, with `mu` as 90_conflicts.md C1 decides). -/
def Obligations.SetmodRule : Prop :=
  (∀ h n, (Instr.setmod h n).opcode.code = 0x48#8 ∧ (Instr.setmod h n).opcode.format = .hs) ∧
  ∀ (s : State) (ha slot : Nat),
    (∀ c, firstFault (setmodChecks s ha slot) = some c →
      exec (.setmod ha slot) s = .next (faulted s c)) ∧
    (firstFault (setmodChecks s ha slot) = none → ∃ t, exec (.setmod ha slot) s = .next t ∧
      TableIs s t (oneEntry s ha { s.entry ha with st := .perm }) ∧
      slotAt t slot = some
        { modh := ha
          k := lenOf s ha
          d := 2 ^ s.par.w / ((limbsOf s ha).getLastD 0 + 1)
          norm := valueOf s ha * (2 ^ s.par.w / ((limbsOf s ha).getLastD 0 + 1))
          mu := (2 ^ s.par.w) ^ (2 * lenOf s ha) / valueOf s ha
          rk1 := (2 ^ s.par.w) ^ (lenOf s ha + 1) } ∧
      (∀ n, n ≠ slot → slotAt t n = slotAt s n) ∧ t.res = BitVec.ofNat 32 slot ∧
      { t with table := s.table, ms := s.ms, res := s.res } = s)

/-- RSTMOD (46_barrett_reduction_engine.md R110). -/
def Obligations.RstmodRule : Prop :=
  (∀ n, (Instr.rstmod n).opcode.code = 0x49#8 ∧ (Instr.rstmod n).opcode.format = .s) ∧
  ∀ (s : State) (slot : Nat),
    (∀ c, firstFault (rstmodChecks s slot) = some c → exec (.rstmod slot) s = .next (faulted s c)) ∧
    (firstFault (rstmodChecks s slot) = none → ∃ t m, exec (.rstmod slot) s = .next t ∧
      slotAt s slot = some m ∧
      TableIs s t (oneEntry s m.modh { st := .free, rc := 0, limbs := [] }) ∧
      t.free = m.modh :: s.free ∧ slotAt t slot = none ∧
      (∀ n, n ≠ slot → slotAt t n = slotAt s n) ∧ t.res = BitVec.ofNat 32 slot ∧
      { t with table := s.table, free := s.free, ms := s.ms, res := s.res } = s)

/-- SELMOD (46_barrett_reduction_engine.md R111). -/
def Obligations.SelmodRule : Prop :=
  (∀ n, (Instr.selmod n).opcode.code = 0x4A#8 ∧ (Instr.selmod n).opcode.format = .s) ∧
  ∀ (s : State) (slot : Nat),
    (∀ c, firstFault (selmodChecks s slot) = some c → exec (.selmod slot) s = .next (faulted s c)) ∧
    (firstFault (selmodChecks s slot) = none → ∃ t, exec (.selmod slot) s = .next t ∧
      t.cur.val = slot ∧ t.res = BitVec.ofNat 32 slot ∧ { t with cur := s.cur, res := s.res } = s)

/-- BARRETT reduces modulo the modulus of slot CUR (46_barrett_reduction_engine.md R112); the premise
DataInv is R43, by which a valid slot's modulus can be read. -/
def Obligations.BarrettRule : Prop :=
  (∀ h, (Instr.barrett h).opcode.code = 0x4B#8 ∧ (Instr.barrett h).opcode.format = .h) ∧
  ∀ (s : State) (ha : Nat),
    (∀ c, firstFault (barrettChecks s ha) = some c → exec (.barrett ha) s = .next (faulted s c)) ∧
    (s.DataInv → firstFault (barrettChecks s ha) = none → ∃ t m, exec (.barrett ha) s = .next t ∧
      slotAt s s.cur.val = some m ∧
      WroteReceiver s t ha (inPlace s (valueOf s ha % valueOf s m.modh)))

end Commands

/-! ### Encoding -/

section Encoding
open Sys2Proof Sys2Proof.Machine Sys2Proof.Claims

/-- Decoding the encoding of a well-formed command gives it back, for every command and every operand
(30_encoding.md R70, R76, R78). -/
def Obligations.DecodeOfEncode : Prop :=
  ∀ i : Instr, i.wellFormed = true → decode (encode i) = .ok i

/-- A word the decoder accepts is the encoding of the well-formed command it stands for: no two words
are one command, and every word the block accepts has no bit the command does not name
(30_encoding.md R72, R74). -/
def Obligations.EncodeOfDecode : Prop :=
  ∀ (w : CmdWord) (i : Instr), decode w = .ok i → i.wellFormed = true ∧ encode i = w

/-- One word of each format, written out from 30_encoding.md R78's examples, is the command it stands
for. -/
def Obligations.SpecWordsDecode : Prop :=
  decode 0x0100000000000000#64 = .ok .ctxopen ∧ decode 0x1903000000000000#64 = .ok (.trim 3) ∧
  decode 0x1402000100000000#64 = .ok (.rstperm 2 true) ∧ decode 0x3000010000000000#64 = .ok (.add 0 1) ∧
  decode 0x4000010100000000#64 = .ok (.div 0 1 true) ∧ decode 0x390000000000000A#64 = .ok (.imul 0 10) ∧
  decode 0x1A00000000000002#64 = .ok (.lshift 0 2) ∧
  decode 0x1800000000000004#64 = .ok (.resize 0 false 4) ∧
  decode 0x0800000000000004#64 = .ok (.alloc false 4) ∧ decode 0x0900000000000007#64 = .ok (.alloci 7) ∧
  decode 0x0A00000000000008#64 = .ok (.load 0 8) ∧
  decode 0x0B00000001000008#64 = .ok (.save 0 0x100 8) ∧
  decode 0x0C00000002000000#64 = .ok (.hex 0 0x200) ∧ decode 0x4801000000000000#64 = .ok (.setmod 1 0) ∧
  decode 0x4A00000200000000#64 = .ok (.selmod 2) ∧
  decode 0x0000000000000000#64 = .error .undefinedOpcode

/-- A word that matches no row of the opcode map, by its opcode or by a reserved bit, faults with
ILLEGAL_COMMAND, even with no context, and changes nothing else, whether the engine step comes with an
empty script or by the event `engine` with more events to come (30_encoding.md R72, R73;
60_exceptions.md R117, R118). -/
def Obligations.IllegalWordFaults : Prop :=
  ∀ s : State, s.busy = true → s.halted = false →
    (∀ o : Opcode, (s.cmdHi ++ s.cmdLo) &&& o.format.mask ≠ o.pattern) →
    (s.script = [] →
      step s = .next { faulted s .illegalCommand with busy := false, pconf := false }) ∧
    (∀ rest, s.script = .engine :: rest →
      step s = .next { faulted s .illegalCommand with script := rest, busy := false, pconf := false })

end Encoding

/-! ### The engine step, the host and reset -/

section Machine
open Sys2Proof Sys2Proof.Machine Sys2Proof.Claims

/-- When the issued word decodes to `i`, the engine step is `exec i`, then the end of the step; the two
ways an engine step comes about are an empty script and the event `engine` (10_state.md R36). -/
def Obligations.StepRunsDecoded : Prop :=
  ∀ (s : State) (i : Instr), s.busy = true → s.halted = false → decode (s.cmdHi ++ s.cmdLo) = .ok i →
    (s.script = [] → ∃ t, exec i s = .next t ∧ step s = .next (stepEnd t)) ∧
    (∀ rest, s.script = .engine :: rest →
      ∃ t, exec i { s with script := rest } = .next t ∧ step s = .next (stepEnd t))

/-- While HALTED = 1 no command executes: whatever the host does short of reset, the fault registers
keep their values and no other engine state changes; CMD_HI latches and issues nothing, and BUF takes
the host's writes (60_exceptions.md R119). -/
def Obligations.HaltedExecutesNothing : Prop :=
  ∀ s t : State, s.ControlInv → s.halted = true → s.script.head? ≠ some .reset → step s = .next t →
    t.busy = false ∧ t.pconf = false ∧
    { t with buf := s.buf, cmdLo := s.cmdLo, cmdHi := s.cmdHi, script := s.script, reads := s.reads,
             draws := s.draws } = s ∧
    (∀ v rest, s.script = .write .b32 0x14 v :: rest → t.cmdHi = v) ∧
    (∀ a v rest, s.script = .write .b8 (0x10000 + a) v :: rest → a < s.par.bufsz → a < 0x10000 →
      t.byteAt a = some (v.extractLsb' 0 8))

/-- With no command issued the engine waits: nothing changes (70_reset_and_hazards.md R145). -/
def Obligations.IdleEngineWaits : Prop :=
  ∀ s : State, s.busy = false →
    (s.script = [] → step s = .next s) ∧
    (∀ rest, s.script = .engine :: rest → step s = .next { s with script := rest })

/-- BUS_CONFLICT (60_exceptions.md R121): a write to CMD_LO, CMD_HI or the BUF window while BUSY = 1 is
discarded and sets PCONF; a write elsewhere never conflicts; at the end of the engine step the conflict
is a fault when the command raised none, with the command's effects standing, and is dropped when it
did. -/
def Obligations.BusConflictRule : Prop :=
  (∀ (s : State) (w : Width) (offset : Nat) (v : BusWord) (rest : List HostEvent),
    s.script = .write w offset v :: rest → accessOk w offset = true → offset < 0x20000 →
    s.busy = true →
      ((offset = 0x10 ∨ offset = 0x14 ∨ 0x10000 ≤ offset) →
        step s = .next { s with script := rest, pconf := true }) ∧
      (¬ (offset = 0x10 ∨ offset = 0x14 ∨ 0x10000 ≤ offset) →
        step s = .next { s with script := rest })) ∧
  (∀ (s t : State) (i : Instr), s.busy = true → s.halted = false → s.pconf = true →
    decode (s.cmdHi ++ s.cmdLo) = .ok i → exec i s = .next t →
      (t.halted = false → EngineStepIs s
        { t with
          halted := true
          fcode := .busConflict
          fcmd := s.cmdHi ++ s.cmdLo
          pconf := false
          busy := false }) ∧
      (t.halted = true → EngineStepIs s { t with pconf := false, busy := false }))

/-- Issue (10_state.md R36, 60_exceptions.md R119): CMD_LO and CMD_HI latch while BUSY = 0, and a write
to CMD_HI sets BUSY unless the engine is halted. -/
def Obligations.HostWriteIssues : Prop :=
  ∀ (s : State) (v : BusWord) (rest : List HostEvent), s.busy = false →
    (s.script = .write .b32 0x10 v :: rest → step s = .next { s with script := rest, cmdLo := v }) ∧
    (s.script = .write .b32 0x14 v :: rest → s.halted = false →
      step s = .next { s with script := rest, cmdHi := v, busy := true }) ∧
    (s.script = .write .b32 0x14 v :: rest → s.halted = true →
      step s = .next { s with script := rest, cmdHi := v })

/-- STATUS (10_state.md R34), its bit 0 while BUSY = 1, its reset value, and the fault codes its FCODE
field shows (60_exceptions.md R114). -/
def Obligations.StatusFields : Prop :=
  [FaultCode.none, .nullContext, .poolConsistency, .permMisuse, .illegalCommand, .invalidHandle,
    .operandAlias, .permanentReceiver, .sharedReceiver, .modBound, .ctxState, .badSlot, .slotBusy,
    .noModulus, .badLength, .badOperand, .bufRange, .undefinedData, .divideByZero, .badModulus, .capacity,
    .saveOverflow, .refcountOverflow, .poolExhausted, .busConflict].map FaultCode.code =
    [0x00#8, 0x01#8, 0x02#8, 0x03#8, 0x10#8, 0x11#8, 0x12#8, 0x13#8, 0x14#8, 0x15#8, 0x16#8, 0x17#8,
      0x18#8, 0x19#8, 0x1A#8, 0x1B#8, 0x1C#8, 0x1D#8, 0x1E#8, 0x1F#8, 0x20#8, 0x21#8, 0x22#8, 0x23#8,
      0x24#8] ∧
  State.reset.status = 0x00000000#32 ∧
  ∀ (s : State) (rest : List HostEvent), s.script = .read .b32 0x08 :: rest →
    ∃ (t : State) (v : BusWord), step s = .next t ∧ t.reads = v :: s.reads ∧ v.getLsbD 0 = s.busy ∧
      (s.busy = false → v.getLsbD 1 = s.halted ∧ v.getLsbD 2 = s.ctx ∧ v.getLsbD 3 = s.neg ∧
        v.extractLsb' 4 4 = 0#4 ∧ v.extractLsb' 8 8 = s.fcode.code ∧
        (v.extractLsb' 16 2).toNat = s.cur.val ∧ v.getLsbD 18 = (slotAt s 0).isSome ∧
        v.getLsbD 19 = (slotAt s 1).isSome ∧ v.getLsbD 20 = (slotAt s 2).isSome ∧
        v.extractLsb' 21 11 = 0#11) ∧
      { t with script := s.script, reads := s.reads, draws := s.draws } = s

/-- The other registers and the reserved range, read while BUSY = 0 (10_state.md R33, R35); a read has
no side effect on the block, at any offset and at any time (20_memory.md R60); a write to a read-only
register or a reserved offset has no effect (R33). -/
def Obligations.RegisterReads : Prop :=
  (∀ (s : State) (offset : Nat) (rest : List HostEvent), s.script = .read .b32 offset :: rest →
    s.busy = false → offset < 0x10000 → offset % 4 = 0 →
    ∃ (t : State) (v : BusWord), step s = .next t ∧ t.reads = v :: s.reads ∧
      (offset = 0x00 → v = 0x4D414444#32) ∧
      (offset = 0x04 → s.par.Legal → (v.extractLsb' 0 8).toNat = s.par.nh ∧
        (v.extractLsb' 8 8).toNat = s.par.w ∧ (v.extractLsb' 16 16).toNat = s.par.lmax) ∧
      (offset = 0x0C → v = s.res) ∧ (offset = 0x10 → v = s.cmdLo) ∧ (offset = 0x14 → v = s.cmdHi) ∧
      (offset = 0x18 → v = s.fcmd.extractLsb' 0 32) ∧ (offset = 0x1C → v = s.fcmd.extractLsb' 32 32) ∧
      (0x20 ≤ offset → v = 0)) ∧
  (∀ (s t : State) (w : Width) (offset : Nat) (rest : List HostEvent),
    s.script = .read w offset :: rest → step s = .next t →
    { t with script := s.script, reads := s.reads, draws := s.draws } = s) ∧
  (∀ (s : State) (offset : Nat) (v : BusWord) (rest : List HostEvent),
    s.script = .write .b32 offset v :: rest → offset < 0x10000 → offset % 4 = 0 → offset ≠ 0x10 →
    offset ≠ 0x14 → step s = .next { s with script := rest })

/-- The BUF window while BUSY = 0 (20_memory.md R50, R53; 10_state.md R33): lane `i` of an access at
`0x10000 + a` moves `BUF[a+i]`, little-endian; bytes at and above BUFSZ read 0 and ignore writes; nothing
else changes. Two clauses are the model's reading: that an access of one byte moves it on bits 7:0
(log 12), and that an access across BUFSZ is taken byte by byte (log 13). -/
def Obligations.BufWindowLanes : Prop :=
  ∀ (s : State) (w : Width) (a : Nat) (rest : List HostEvent), s.busy = false → a < 0x10000 →
    a % w.bytes = 0 →
    (∀ v, s.script = .write w (0x10000 + a) v :: rest → ∃ t, step s = .next t ∧
      (∀ i, i < w.bytes → a + i < s.par.bufsz → t.byteAt (a + i) = some (v.extractLsb' (8 * i) 8)) ∧
      (∀ x, ¬ (a ≤ x ∧ x < a + w.bytes ∧ x < s.par.bufsz) → t.byteAt x = s.byteAt x) ∧
      { t with script := s.script, buf := s.buf } = s) ∧
    (s.script = .read w (0x10000 + a) :: rest → ∃ (t : State) (v : BusWord), step s = .next t ∧
      t.reads = v :: s.reads ∧
      (∀ i b, i < w.bytes → a + i < s.par.bufsz → s.byteAt (a + i) = some b →
        v.extractLsb' (8 * i) 8 = b) ∧
      (∀ i, i < w.bytes → s.par.bufsz ≤ a + i → v.extractLsb' (8 * i) 8 = 0#8))

/-- Which host accesses the model gives no move to (20_memory.md R58): registers and the reserved range
take aligned 32-bit accesses only, the BUF window accesses aligned to their size, and there is nothing
past offset 0x1FFFF (10_state.md R33; log 11 names the two stops). -/
def Obligations.UnsupportedHostAccess : Prop :=
  ∀ (s : State) (w : Width) (offset : Nat) (v : BusWord) (rest : List HostEvent) (e : HostEvent),
    (e = .write w offset v ∨ e = .read w offset) → s.script = e :: rest →
    (0x20000 ≤ offset → step s = .fault .noSuchOffset) ∧
    (offset < 0x10000 → ¬ (w = .b32 ∧ offset % 4 = 0) → step s = .refused .hostAccess) ∧
    (0x10000 ≤ offset → offset < 0x20000 → offset % w.bytes ≠ 0 → step s = .refused .hostAccess) ∧
    (offset < 0x10000 → w = .b32 → offset % 4 = 0 → ∃ t, step s = .next t) ∧
    (0x10000 ≤ offset → offset < 0x20000 → offset % w.bytes = 0 → ∃ t, step s = .next t)

/-- Reset, at any time, also while BUSY = 1 or HALTED = 1, puts every piece of the block's state to its
reset value and executes nothing (70_reset_and_hazards.md R131, 10_state.md R44). -/
def Obligations.ResetEventValues : Prop :=
  ∀ (s : State) (rest : List HostEvent), s.script = .reset :: rest →
    ∃ t, step s = .next t ∧ ResetValues t ∧ t.par = s.par ∧ t.script = rest ∧ t.reads = s.reads ∧
      t.draws = s.draws

/-- The machine after reset, with the default parameters of 00_scope.md R5 to R10
(70_reset_and_hazards.md R132, R133). The choice of the defaults is the model's, log 1. -/
def Obligations.ResetState : Prop :=
  ResetValues State.reset ∧ State.reset.par.w = 32 ∧ State.reset.par.nh = 64 ∧
    State.reset.par.lmax = 512 ∧ State.reset.par.bufsz = 65536 ∧ State.reset.par.rcmax = 2 ^ 32 - 2

end Machine

/-! ### Rules of the whole machine -/

section Whole
open Sys2Proof Sys2Proof.Machine Sys2Proof.Claims

/-- `trimmed(v)` is the canonical limb list of `v` (00_scope.md R13): its value is `v`, every element is
a limb, its length is 1 or its top limb is not 0, and it is the only such list. -/
def Obligations.TrimmedIsCanonical : Prop :=
  ∀ (w v : Nat), 0 < w →
    (val (2 ^ w) (trimmed w v) = v ∧ (∀ x ∈ trimmed w v, x < 2 ^ w) ∧
      ((trimmed w v).length = 1 ∨ (trimmed w v).getLastD 0 ≠ 0) ∧ trimmed w v ≠ []) ∧
    ∀ L : List Nat, L ≠ [] → (∀ x ∈ L, x < 2 ^ w) → (L.length = 1 ∨ L.getLastD 0 ≠ 0) →
      val (2 ^ w) L = v → L = trimmed w v

/-- `Save(Load(buf, L), L) = buf` (45_limb_buffer_context.md R105): what LOAD read, SAVE of the loaded
handle with the same length writes back, at any address where it fits. -/
def Obligations.SaveOfLoadRoundTrip : Prop :=
  ∀ (s t : State) (a b len : Nat), s.DataInv → s.halted = false →
    exec (.load a len) s = .next t → t.halted = false → b + len ≤ s.par.bufsz →
    ∃ u, exec (.save t.res.toNat b len) t = .next u ∧ u.halted = false ∧
      ∀ i, i < len → u.byteAt (b + i) = s.byteAt (a + i)

/-- `a = q * v + r` with `r < v` (44_knuth_divider.md R98): the quotient DIV leaves and the remainder
DIV.M leaves, from one state. -/
def Obligations.DivisionIdentity : Prop :=
  ∀ (s q r : State) (ha hb : Nat), s.DataInv → s.halted = false →
    exec (.div ha hb false) s = .next q → q.halted = false → exec (.div ha hb true) s = .next r →
      r.halted = false ∧ valueOf s ha = valueOf q ha * valueOf s hb + valueOf r ha ∧
        valueOf r ha < valueOf s hb

/-- The Barrett engine's algorithm gives the exact remainder, and its loop turns at most twice: `q3` is
at most 2 below `b / m`, the loop starts from `b - q3 * m`, which is less than `3 * m`, so two turns give
the remainder (46_barrett_reduction_engine.md R113, R112; 90_conflicts.md C1). -/
def Obligations.BarrettAlgorithmExact : Prop :=
  ∀ r m k b q3 x : Nat, 4 ≤ r → 1 ≤ k → r ^ (k - 1) ≤ m → m < r ^ k → b < r ^ (2 * k) →
    q3 = (b / r ^ (k - 1)) * (r ^ (2 * k) / m) / r ^ (k + 1) →
    x = barrettStart (r ^ (k + 1)) (b % r ^ (k + 1)) (q3 * m % r ^ (k + 1)) →
    barrettReduce r m k (r ^ (2 * k) / m) (r ^ (k + 1)) b = b % m ∧
      q3 ≤ b / m ∧ b / m ≤ q3 + 2 ∧ x = b - q3 * m ∧ x / m ≤ 2 ∧ reduceLoop m 2 x = b % m

/-- Knuth's Algorithm D as the divider's rule transcribes it gives the results of DIV and DIV.M
(44_knuth_divider.md R99, R98). -/
def Obligations.KnuthAlgorithmExact : Prop :=
  ∀ (w : Nat) (u v : List Nat), 2 ≤ w → u ≠ [] → v ≠ [] → (∀ x ∈ u, x < 2 ^ w) →
    (∀ x ∈ v, x < 2 ^ w) → topLimb v ≠ 0 →
    knuthDivide w u v false = trimmed w (val (2 ^ w) u / val (2 ^ w) v) ∧
    (LexLess u v → knuthDivide w u v true = u) ∧
    (¬ LexLess u v → knuthDivide w u v true = trimmed w (val (2 ^ w) u % val (2 ^ w) v))

/-- Reset leaves a sound state, whatever the legal parameters (10_state.md R43, R44). -/
def Obligations.ResetIsSound : Prop := ∀ p : Params, p.Legal → (State.resetWith p).Inv

/-- Every command keeps the invariants of 10_state.md R43. -/
def Obligations.CommandsKeepDataInv : Prop :=
  ∀ (i : Instr) (s t : State), s.DataInv → exec i s = .next t → t.DataInv

/-- Every step keeps a sound state sound: engine steps, host accesses and resets (10_state.md R43, R31,
R32, R36). -/
def Obligations.StepKeepsInv : Prop :=
  ∀ s t : State, s.Inv → step s = .next t → t.Inv

/-- Only ALLOC and RESIZE with SKIP create `⊥` limbs (10_state.md R21). -/
def Obligations.OnlySkipCreatesPoison : Prop :=
  ∀ (i : Instr) (s t : State), skips i = false → (∀ h, none ∉ (s.entry h).limbs) →
    exec i s = .next t → ∀ h, none ∉ (t.entry h).limbs

/-- Only SUB writes NEG (10_state.md R30), and only SAVE and HEX change a byte of BUF (20_memory.md
R55). -/
def Obligations.WritersOfNegAndBuf : Prop :=
  ∀ (i : Instr) (s t : State), exec i s = .next t →
    (i.opcode ≠ .sub → t.neg = s.neg) ∧
    (i.opcode ≠ .save → i.opcode ≠ .hex → ∀ a, t.byteAt a = s.byteAt a)

/-- CTX (10_state.md R27): 0 after reset, set by CTXOPEN, cleared by CTXCLOSE, written by nothing else,
and while it is 0 every command but CTXOPEN faults with NULL_CONTEXT. -/
def Obligations.ContextBit : Prop :=
  State.reset.ctx = false ∧
  (∀ s : State, s.ctx = false → ∃ t, exec .ctxopen s = .next t ∧ t.ctx = true) ∧
  (∀ s : State, s.ctx = true → ∃ t, exec .ctxclose s = .next t ∧ t.ctx = false) ∧
  (∀ (i : Instr) (s t : State), i ≠ .ctxopen → i ≠ .ctxclose → exec i s = .next t → t.ctx = s.ctx) ∧
  (∀ (i : Instr) (s : State), i ≠ .ctxopen → s.ctx = false →
    exec i s = .next (faulted s .nullContext))

/-- Fault entry (60_exceptions.md R118) and which command raises which fault (R115): a command that
halts the engine has written HALTED, FCODE and FCMD and nothing else, the code is one of the command's,
and the end of the engine step then clears BUSY and PCONF. -/
def Obligations.FaultEntryPrecise : Prop :=
  ∀ (i : Instr) (s t : State), s.halted = false → exec i s = .next t → t.halted = true →
    ∃ c, c ∈ commandFaults i ∧ t = faulted s c ∧
      (s.busy = true → decode (s.cmdHi ++ s.cmdLo) = .ok i →
        EngineStepIs s { faulted s c with busy := false, pconf := false })

/-- POOL_CONSISTENCY is never raised in a sound state (60_exceptions.md R129). -/
def Obligations.PoolConsistencyNeverRaised : Prop :=
  ∀ (i : Instr) (s t : State), s.DataInv → s.fcode ≠ .poolConsistency → exec i s = .next t →
    t.fcode ≠ .poolConsistency

/-- Every command answers a next state, in every state and with every operand, and none touches the
parameters, the issue registers, BUSY, PCONF or the host's side (10_state.md R36). -/
def Obligations.EveryCommandAnswers : Prop :=
  ∀ (i : Instr) (s : State), ∃ t, exec i s = .next t ∧ t.par = s.par ∧ t.cmdLo = s.cmdLo ∧
    t.cmdHi = s.cmdHi ∧ t.busy = s.busy ∧ t.pconf = s.pconf ∧ t.script = s.script ∧
    t.reads = s.reads ∧ t.draws = s.draws

end Whole
end

