-- ==== Sys2Proof/Laws/State.lean ====
section
/-! SUPPORT. One lemma per field of State and per update of Machine/Ops.lean: what the update leaves in the
field. With these no later proof unfolds a record update. -/

namespace Sys2Proof.Machine

@[simp] theorem State.setEntry_par (s : State) (h : Nat) (e : Entry) : (s.setEntry h e).par = s.par := rfl
@[simp] theorem State.setEntry_table (s : State) (h : Nat) (e : Entry) : (s.setEntry h e).table = s.table.set h e := rfl
@[simp] theorem State.setEntry_free (s : State) (h : Nat) (e : Entry) : (s.setEntry h e).free = s.free := rfl
@[simp] theorem State.setEntry_ms (s : State) (h : Nat) (e : Entry) : (s.setEntry h e).ms = s.ms := rfl
@[simp] theorem State.setEntry_cur (s : State) (h : Nat) (e : Entry) : (s.setEntry h e).cur = s.cur := rfl
@[simp] theorem State.setEntry_ctx (s : State) (h : Nat) (e : Entry) : (s.setEntry h e).ctx = s.ctx := rfl
@[simp] theorem State.setEntry_res (s : State) (h : Nat) (e : Entry) : (s.setEntry h e).res = s.res := rfl
@[simp] theorem State.setEntry_neg (s : State) (h : Nat) (e : Entry) : (s.setEntry h e).neg = s.neg := rfl
@[simp] theorem State.setEntry_halted (s : State) (h : Nat) (e : Entry) : (s.setEntry h e).halted = s.halted := rfl
@[simp] theorem State.setEntry_fcode (s : State) (h : Nat) (e : Entry) : (s.setEntry h e).fcode = s.fcode := rfl
@[simp] theorem State.setEntry_fcmd (s : State) (h : Nat) (e : Entry) : (s.setEntry h e).fcmd = s.fcmd := rfl
@[simp] theorem State.setEntry_busy (s : State) (h : Nat) (e : Entry) : (s.setEntry h e).busy = s.busy := rfl
@[simp] theorem State.setEntry_pconf (s : State) (h : Nat) (e : Entry) : (s.setEntry h e).pconf = s.pconf := rfl
@[simp] theorem State.setEntry_cmdLo (s : State) (h : Nat) (e : Entry) : (s.setEntry h e).cmdLo = s.cmdLo := rfl
@[simp] theorem State.setEntry_cmdHi (s : State) (h : Nat) (e : Entry) : (s.setEntry h e).cmdHi = s.cmdHi := rfl
@[simp] theorem State.setEntry_buf (s : State) (h : Nat) (e : Entry) : (s.setEntry h e).buf = s.buf := rfl
@[simp] theorem State.setEntry_script (s : State) (h : Nat) (e : Entry) : (s.setEntry h e).script = s.script := rfl
@[simp] theorem State.setEntry_reads (s : State) (h : Nat) (e : Entry) : (s.setEntry h e).reads = s.reads := rfl
@[simp] theorem State.setEntry_draws (s : State) (h : Nat) (e : Entry) : (s.setEntry h e).draws = s.draws := rfl

@[simp] theorem State.setValue_par (s : State) (h : Nat) (L : List Limb) : (s.setValue h L).par = s.par := rfl
@[simp] theorem State.setValue_table (s : State) (h : Nat) (L : List Limb) : (s.setValue h L).table = s.table.set h { s.entry h with limbs := L } := rfl
@[simp] theorem State.setValue_free (s : State) (h : Nat) (L : List Limb) : (s.setValue h L).free = s.free := rfl
@[simp] theorem State.setValue_ms (s : State) (h : Nat) (L : List Limb) : (s.setValue h L).ms = s.ms := rfl
@[simp] theorem State.setValue_cur (s : State) (h : Nat) (L : List Limb) : (s.setValue h L).cur = s.cur := rfl
@[simp] theorem State.setValue_ctx (s : State) (h : Nat) (L : List Limb) : (s.setValue h L).ctx = s.ctx := rfl
@[simp] theorem State.setValue_res (s : State) (h : Nat) (L : List Limb) : (s.setValue h L).res = s.res := rfl
@[simp] theorem State.setValue_neg (s : State) (h : Nat) (L : List Limb) : (s.setValue h L).neg = s.neg := rfl
@[simp] theorem State.setValue_halted (s : State) (h : Nat) (L : List Limb) : (s.setValue h L).halted = s.halted := rfl
@[simp] theorem State.setValue_fcode (s : State) (h : Nat) (L : List Limb) : (s.setValue h L).fcode = s.fcode := rfl
@[simp] theorem State.setValue_fcmd (s : State) (h : Nat) (L : List Limb) : (s.setValue h L).fcmd = s.fcmd := rfl
@[simp] theorem State.setValue_busy (s : State) (h : Nat) (L : List Limb) : (s.setValue h L).busy = s.busy := rfl
@[simp] theorem State.setValue_pconf (s : State) (h : Nat) (L : List Limb) : (s.setValue h L).pconf = s.pconf := rfl
@[simp] theorem State.setValue_cmdLo (s : State) (h : Nat) (L : List Limb) : (s.setValue h L).cmdLo = s.cmdLo := rfl
@[simp] theorem State.setValue_cmdHi (s : State) (h : Nat) (L : List Limb) : (s.setValue h L).cmdHi = s.cmdHi := rfl
@[simp] theorem State.setValue_buf (s : State) (h : Nat) (L : List Limb) : (s.setValue h L).buf = s.buf := rfl
@[simp] theorem State.setValue_script (s : State) (h : Nat) (L : List Limb) : (s.setValue h L).script = s.script := rfl
@[simp] theorem State.setValue_reads (s : State) (h : Nat) (L : List Limb) : (s.setValue h L).reads = s.reads := rfl
@[simp] theorem State.setValue_draws (s : State) (h : Nat) (L : List Limb) : (s.setValue h L).draws = s.draws := rfl

@[simp] theorem State.setRes_par (s : State) (v : BusWord) : (s.setRes v).par = s.par := rfl
@[simp] theorem State.setRes_table (s : State) (v : BusWord) : (s.setRes v).table = s.table := rfl
@[simp] theorem State.setRes_free (s : State) (v : BusWord) : (s.setRes v).free = s.free := rfl
@[simp] theorem State.setRes_ms (s : State) (v : BusWord) : (s.setRes v).ms = s.ms := rfl
@[simp] theorem State.setRes_cur (s : State) (v : BusWord) : (s.setRes v).cur = s.cur := rfl
@[simp] theorem State.setRes_ctx (s : State) (v : BusWord) : (s.setRes v).ctx = s.ctx := rfl
@[simp] theorem State.setRes_res (s : State) (v : BusWord) : (s.setRes v).res = v := rfl
@[simp] theorem State.setRes_neg (s : State) (v : BusWord) : (s.setRes v).neg = s.neg := rfl
@[simp] theorem State.setRes_halted (s : State) (v : BusWord) : (s.setRes v).halted = s.halted := rfl
@[simp] theorem State.setRes_fcode (s : State) (v : BusWord) : (s.setRes v).fcode = s.fcode := rfl
@[simp] theorem State.setRes_fcmd (s : State) (v : BusWord) : (s.setRes v).fcmd = s.fcmd := rfl
@[simp] theorem State.setRes_busy (s : State) (v : BusWord) : (s.setRes v).busy = s.busy := rfl
@[simp] theorem State.setRes_pconf (s : State) (v : BusWord) : (s.setRes v).pconf = s.pconf := rfl
@[simp] theorem State.setRes_cmdLo (s : State) (v : BusWord) : (s.setRes v).cmdLo = s.cmdLo := rfl
@[simp] theorem State.setRes_cmdHi (s : State) (v : BusWord) : (s.setRes v).cmdHi = s.cmdHi := rfl
@[simp] theorem State.setRes_buf (s : State) (v : BusWord) : (s.setRes v).buf = s.buf := rfl
@[simp] theorem State.setRes_script (s : State) (v : BusWord) : (s.setRes v).script = s.script := rfl
@[simp] theorem State.setRes_reads (s : State) (v : BusWord) : (s.setRes v).reads = s.reads := rfl
@[simp] theorem State.setRes_draws (s : State) (v : BusWord) : (s.setRes v).draws = s.draws := rfl

@[simp] theorem State.memWrite_par (s : State) (a : Nat) (bs : List Byte) : (s.memWrite a bs).par = s.par := rfl
@[simp] theorem State.memWrite_table (s : State) (a : Nat) (bs : List Byte) : (s.memWrite a bs).table = s.table := rfl
@[simp] theorem State.memWrite_free (s : State) (a : Nat) (bs : List Byte) : (s.memWrite a bs).free = s.free := rfl
@[simp] theorem State.memWrite_ms (s : State) (a : Nat) (bs : List Byte) : (s.memWrite a bs).ms = s.ms := rfl
@[simp] theorem State.memWrite_cur (s : State) (a : Nat) (bs : List Byte) : (s.memWrite a bs).cur = s.cur := rfl
@[simp] theorem State.memWrite_ctx (s : State) (a : Nat) (bs : List Byte) : (s.memWrite a bs).ctx = s.ctx := rfl
@[simp] theorem State.memWrite_res (s : State) (a : Nat) (bs : List Byte) : (s.memWrite a bs).res = s.res := rfl
@[simp] theorem State.memWrite_neg (s : State) (a : Nat) (bs : List Byte) : (s.memWrite a bs).neg = s.neg := rfl
@[simp] theorem State.memWrite_halted (s : State) (a : Nat) (bs : List Byte) : (s.memWrite a bs).halted = s.halted := rfl
@[simp] theorem State.memWrite_fcode (s : State) (a : Nat) (bs : List Byte) : (s.memWrite a bs).fcode = s.fcode := rfl
@[simp] theorem State.memWrite_fcmd (s : State) (a : Nat) (bs : List Byte) : (s.memWrite a bs).fcmd = s.fcmd := rfl
@[simp] theorem State.memWrite_busy (s : State) (a : Nat) (bs : List Byte) : (s.memWrite a bs).busy = s.busy := rfl
@[simp] theorem State.memWrite_pconf (s : State) (a : Nat) (bs : List Byte) : (s.memWrite a bs).pconf = s.pconf := rfl
@[simp] theorem State.memWrite_cmdLo (s : State) (a : Nat) (bs : List Byte) : (s.memWrite a bs).cmdLo = s.cmdLo := rfl
@[simp] theorem State.memWrite_cmdHi (s : State) (a : Nat) (bs : List Byte) : (s.memWrite a bs).cmdHi = s.cmdHi := rfl
@[simp] theorem State.memWrite_buf (s : State) (a : Nat) (bs : List Byte) : (s.memWrite a bs).buf = memSetList s.buf a bs := rfl
@[simp] theorem State.memWrite_script (s : State) (a : Nat) (bs : List Byte) : (s.memWrite a bs).script = s.script := rfl
@[simp] theorem State.memWrite_reads (s : State) (a : Nat) (bs : List Byte) : (s.memWrite a bs).reads = s.reads := rfl
@[simp] theorem State.memWrite_draws (s : State) (a : Nat) (bs : List Byte) : (s.memWrite a bs).draws = s.draws := rfl

@[simp] theorem State.raise_par (s : State) (c : FaultCode) : (s.raise c).par = s.par := rfl
@[simp] theorem State.raise_table (s : State) (c : FaultCode) : (s.raise c).table = s.table := rfl
@[simp] theorem State.raise_free (s : State) (c : FaultCode) : (s.raise c).free = s.free := rfl
@[simp] theorem State.raise_ms (s : State) (c : FaultCode) : (s.raise c).ms = s.ms := rfl
@[simp] theorem State.raise_cur (s : State) (c : FaultCode) : (s.raise c).cur = s.cur := rfl
@[simp] theorem State.raise_ctx (s : State) (c : FaultCode) : (s.raise c).ctx = s.ctx := rfl
@[simp] theorem State.raise_res (s : State) (c : FaultCode) : (s.raise c).res = s.res := rfl
@[simp] theorem State.raise_neg (s : State) (c : FaultCode) : (s.raise c).neg = s.neg := rfl
@[simp] theorem State.raise_halted (s : State) (c : FaultCode) : (s.raise c).halted = true := rfl
@[simp] theorem State.raise_fcode (s : State) (c : FaultCode) : (s.raise c).fcode = c := rfl
@[simp] theorem State.raise_fcmd (s : State) (c : FaultCode) : (s.raise c).fcmd = s.issued := rfl
@[simp] theorem State.raise_busy (s : State) (c : FaultCode) : (s.raise c).busy = s.busy := rfl
@[simp] theorem State.raise_pconf (s : State) (c : FaultCode) : (s.raise c).pconf = s.pconf := rfl
@[simp] theorem State.raise_cmdLo (s : State) (c : FaultCode) : (s.raise c).cmdLo = s.cmdLo := rfl
@[simp] theorem State.raise_cmdHi (s : State) (c : FaultCode) : (s.raise c).cmdHi = s.cmdHi := rfl
@[simp] theorem State.raise_buf (s : State) (c : FaultCode) : (s.raise c).buf = s.buf := rfl
@[simp] theorem State.raise_script (s : State) (c : FaultCode) : (s.raise c).script = s.script := rfl
@[simp] theorem State.raise_reads (s : State) (c : FaultCode) : (s.raise c).reads = s.reads := rfl
@[simp] theorem State.raise_draws (s : State) (c : FaultCode) : (s.raise c).draws = s.draws := rfl

@[simp] theorem State.clearContext_par (s : State) : (s.clearContext).par = s.par := rfl
@[simp] theorem State.clearContext_table (s : State) : (s.clearContext).table = List.replicate s.par.nh Entry.unused := rfl
@[simp] theorem State.clearContext_free (s : State) : (s.clearContext).free = [] := rfl
@[simp] theorem State.clearContext_ms (s : State) : (s.clearContext).ms = Slots.empty := rfl
@[simp] theorem State.clearContext_cur (s : State) : (s.clearContext).cur = 0 := rfl
@[simp] theorem State.clearContext_ctx (s : State) : (s.clearContext).ctx = s.ctx := rfl
@[simp] theorem State.clearContext_res (s : State) : (s.clearContext).res = s.res := rfl
@[simp] theorem State.clearContext_neg (s : State) : (s.clearContext).neg = s.neg := rfl
@[simp] theorem State.clearContext_halted (s : State) : (s.clearContext).halted = s.halted := rfl
@[simp] theorem State.clearContext_fcode (s : State) : (s.clearContext).fcode = s.fcode := rfl
@[simp] theorem State.clearContext_fcmd (s : State) : (s.clearContext).fcmd = s.fcmd := rfl
@[simp] theorem State.clearContext_busy (s : State) : (s.clearContext).busy = s.busy := rfl
@[simp] theorem State.clearContext_pconf (s : State) : (s.clearContext).pconf = s.pconf := rfl
@[simp] theorem State.clearContext_cmdLo (s : State) : (s.clearContext).cmdLo = s.cmdLo := rfl
@[simp] theorem State.clearContext_cmdHi (s : State) : (s.clearContext).cmdHi = s.cmdHi := rfl
@[simp] theorem State.clearContext_buf (s : State) : (s.clearContext).buf = s.buf := rfl
@[simp] theorem State.clearContext_script (s : State) : (s.clearContext).script = s.script := rfl
@[simp] theorem State.clearContext_reads (s : State) : (s.clearContext).reads = s.reads := rfl
@[simp] theorem State.clearContext_draws (s : State) : (s.clearContext).draws = s.draws := rfl

@[simp] theorem State.result_par (s : State) (h v : Nat) : (s.result h v).par = s.par := rfl
@[simp] theorem State.result_table (s : State) (h v : Nat) : (s.result h v).table = s.table.set h { s.entry h with limbs := putLimbs (trimmed s.par.w v) } := rfl
@[simp] theorem State.result_free (s : State) (h v : Nat) : (s.result h v).free = s.free := rfl
@[simp] theorem State.result_ms (s : State) (h v : Nat) : (s.result h v).ms = s.ms := rfl
@[simp] theorem State.result_cur (s : State) (h v : Nat) : (s.result h v).cur = s.cur := rfl
@[simp] theorem State.result_ctx (s : State) (h v : Nat) : (s.result h v).ctx = s.ctx := rfl
@[simp] theorem State.result_res (s : State) (h v : Nat) : (s.result h v).res = busNat h := rfl
@[simp] theorem State.result_neg (s : State) (h v : Nat) : (s.result h v).neg = s.neg := rfl
@[simp] theorem State.result_halted (s : State) (h v : Nat) : (s.result h v).halted = s.halted := rfl
@[simp] theorem State.result_fcode (s : State) (h v : Nat) : (s.result h v).fcode = s.fcode := rfl
@[simp] theorem State.result_fcmd (s : State) (h v : Nat) : (s.result h v).fcmd = s.fcmd := rfl
@[simp] theorem State.result_busy (s : State) (h v : Nat) : (s.result h v).busy = s.busy := rfl
@[simp] theorem State.result_pconf (s : State) (h v : Nat) : (s.result h v).pconf = s.pconf := rfl
@[simp] theorem State.result_cmdLo (s : State) (h v : Nat) : (s.result h v).cmdLo = s.cmdLo := rfl
@[simp] theorem State.result_cmdHi (s : State) (h v : Nat) : (s.result h v).cmdHi = s.cmdHi := rfl
@[simp] theorem State.result_buf (s : State) (h v : Nat) : (s.result h v).buf = s.buf := rfl
@[simp] theorem State.result_script (s : State) (h v : Nat) : (s.result h v).script = s.script := rfl
@[simp] theorem State.result_reads (s : State) (h v : Nat) : (s.result h v).reads = s.reads := rfl
@[simp] theorem State.result_draws (s : State) (h v : Nat) : (s.result h v).draws = s.draws := rfl

end Sys2Proof.Machine
end

