-- ==== Sys2Proof/Laws/Memory.lean ====
section
/-! SUPPORT. BUF: a read after a write, the canonical form kept by every memory operation, and what the
list forms read and write (20_memory.md R47, R54, R55, R66). -/

namespace Sys2Proof.Machine

theorem memGet_memSet (m : List Host.Cell) (a : Nat) (b : Byte) (x : Nat) :
    memGet (memSet m a b) x = if x = a then some b else memGet m x := by
  induction m with
  | nil => simp [memSet, memGet, eq_comm]
  | cons c m ih =>
    unfold memSet
    split
    · rename_i h
      by_cases hx : x = a
      · subst hx; simp [memGet]
      · simp [memGet, hx, Ne.symm hx]
    · split
      · rename_i h
        by_cases hx : x = a
        · subst hx; simp [memGet]
        · have : ¬ c.1 = x := by omega
          simp [memGet, hx, Ne.symm hx, this]
      · rename_i h
        simp only [memGet, ih]
        by_cases hx : c.1 = x
        · have : ¬ x = a := by omega
          simp [hx, this]
        · simp [hx]

@[simp] theorem memGet_memSet_same (m : List Host.Cell) (a : Nat) (b : Byte) :
    memGet (memSet m a b) a = some b := by simp [memGet_memSet]

theorem memGet_memSet_ne (m : List Host.Cell) {a x : Nat} (b : Byte) (h : x ≠ a) :
    memGet (memSet m a b) x = memGet m x := by simp [memGet_memSet, h]

/-- The first address of a written cell list is the old first address or the written one. -/
theorem memSet_head (m : List Host.Cell) (a : Nat) (b : Byte) :
    ∃ c m', memSet m a b = c :: m' ∧ (c.1 = a ∨ ∃ d m'', m = d :: m'' ∧ c.1 = d.1) := by
  cases m with
  | nil => exact ⟨_, _, rfl, .inl rfl⟩
  | cons d m =>
    unfold memSet
    split
    · exact ⟨_, _, rfl, .inl rfl⟩
    · split
      · exact ⟨_, _, rfl, .inl rfl⟩
      · exact ⟨_, _, rfl, .inr ⟨d, m, rfl, rfl⟩⟩

theorem wf_cons {c : Host.Cell} {m : List Host.Cell} :
    Memory.wf (c :: m) = true ↔ (∀ d m', m = d :: m' → c.1 < d.1) ∧ Memory.wf m = true := by
  cases m with
  | nil => simp [Memory.wf]
  | cons d m => simp [Memory.wf]

theorem wf_memSet {m : List Host.Cell} (a : Nat) (b : Byte) (h : Memory.wf m = true) :
    Memory.wf (memSet m a b) = true := by
  induction m with
  | nil => rfl
  | cons c m ih =>
    rw [wf_cons] at h
    unfold memSet
    split
    · rename_i ha
      rw [wf_cons]
      exact ⟨fun d m' e => by cases e; exact ha, wf_cons.2 h⟩
    · split
      · rename_i _ hc
        rw [wf_cons]
        exact ⟨fun d m' e => hc ▸ h.1 d m' e, h.2⟩
      · rename_i h1 h2
        rw [wf_cons]
        refine ⟨fun d m' e => ?_, ih h.2⟩
        obtain ⟨c', m'', e', hd⟩ := memSet_head m a b
        rw [e'] at e
        cases e
        rcases hd with hd | ⟨x, y, hm, hd⟩
        · omega
        · rw [hd]; exact h.1 x y hm

theorem wf_memSetList {m : List Host.Cell} (a : Nat) (bs : List Byte) (h : Memory.wf m = true) :
    Memory.wf (memSetList m a bs) = true := by
  induction bs generalizing m a with
  | nil => exact h
  | cons b bs ih => exact ih (a + 1) (wf_memSet a b h)

/-- What each address reads after a list of bytes was written: the written byte inside the range, as
before outside it. -/
theorem memGet_memSetList (m : List Host.Cell) (a : Nat) (bs : List Byte) (x : Nat) :
    memGet (memSetList m a bs) x = if a ≤ x ∧ x < a + bs.length then bs[x - a]? else memGet m x := by
  induction bs generalizing m a with
  | nil => simp [memSetList]
  | cons b bs ih =>
    simp only [memSetList, ih, memGet_memSet, List.length_cons]
    by_cases hx : x = a
    · subst hx; simp
    · by_cases h1 : a + 1 ≤ x ∧ x < a + 1 + bs.length
      · have h2 : a ≤ x ∧ x < a + (bs.length + 1) := by omega
        have h3 : x - a = (x - (a + 1)) + 1 := by omega
        simp [h1, h2, h3]
      · have h2 : ¬ (a ≤ x ∧ x < a + (bs.length + 1)) := by omega
        rw [if_neg h1, if_neg h2, if_neg hx]

/-- A list read answers the bytes of the range, in order, when none of them is `⊥`. -/
theorem memGetList_eq_some {m : List Host.Cell} {a n : Nat} {bs : List Byte} :
    memGetList m a n = some bs ↔ bs.length = n ∧ ∀ i, i < n → memGet m (a + i) = bs[i]? := by
  induction n generalizing a bs with
  | zero =>
    constructor
    · intro h; simp [memGetList] at h; subst h; simp
    · rintro ⟨h, -⟩; simp [memGetList, List.length_eq_zero_iff.1 h]
  | succ n ih =>
    constructor
    · intro h
      simp only [memGetList] at h
      split at h
      · rename_i b bs' hb hbs
        cases h
        obtain ⟨hl, hi⟩ := ih.1 hbs
        refine ⟨by simp [hl], fun i hi' => ?_⟩
        cases i with
        | zero => simpa using hb
        | succ i =>
          have := hi i (by omega)
          rw [show a + (i + 1) = a + 1 + i by omega, this]; simp
      · cases h
    · rintro ⟨hl, hi⟩
      cases bs with
      | nil => simp at hl
      | cons b bs =>
        have h0 := hi 0 (by omega)
        have ht : memGetList m (a + 1) n = some bs := ih.2 ⟨by simpa using hl, fun i hlt => by
          have := hi (i + 1) (by omega)
          rw [show a + 1 + i = a + (i + 1) by omega, this]; simp⟩
        simp at h0
        simp [memGetList, h0, ht]

theorem wf_writeLanes {m : List Host.Cell} (z a : Nat) (v : BusWord) (i n : Nat)
    (h : Memory.wf m = true) : Memory.wf (writeLanes z m a v i n) = true := by
  induction n generalizing m i with
  | zero => exact h
  | succ n ih =>
    refine ih (i + 1) ?_
    split
    · exact wf_memSet _ _ h
    · exact h

/-- What each address reads after a host write of `n` lanes (20_memory.md R53). -/
theorem memGet_writeLanes (m : List Host.Cell) (z a : Nat) (v : BusWord) (i n x : Nat) :
    memGet (writeLanes z m a v i n) x =
      if a + i ≤ x ∧ x < a + i + n ∧ x < z then some (lane v (x - a)) else memGet m x := by
  induction n generalizing m i with
  | zero => rw [writeLanes, if_neg (by omega)]
  | succ n ih =>
    simp only [writeLanes, ih]
    by_cases hx : x = a + i
    · subst hx
      by_cases hz : a + i < z
      · simp [hz]
      · simp [hz]
    · by_cases h1 : a + (i + 1) ≤ x ∧ x < a + (i + 1) + n ∧ x < z
      · have h2 : a + i ≤ x ∧ x < a + i + (n + 1) ∧ x < z := by omega
        simp only [h1, h2, and_self, if_true]
      · have h2 : ¬ (a + i ≤ x ∧ x < a + i + (n + 1) ∧ x < z) := by omega
        rw [if_neg h1, if_neg h2]
        split
        · exact memGet_memSet_ne _ _ hx
        · rfl

/-- Every cell after a write is an old cell or the written one. -/
theorem mem_memSet {m : List Host.Cell} {a : Nat} {b : Byte} {c : Host.Cell}
    (h : c ∈ memSet m a b) : c = (a, b) ∨ c ∈ m := by
  induction m with
  | nil => simpa [memSet] using h
  | cons d m ih =>
    unfold memSet at h
    split at h
    · simpa using h
    · split at h
      · rcases List.mem_cons.1 h with h | h
        · exact .inl h
        · exact .inr (List.mem_cons_of_mem _ h)
      · rcases List.mem_cons.1 h with h | h
        · exact .inr (h ▸ List.mem_cons_self)
        · rcases ih h with h | h
          · exact .inl h
          · exact .inr (List.mem_cons_of_mem _ h)

/-- A list of bytes written inside `0 .. z` leaves every cell inside it. -/
theorem memSetList_inRange {m : List Host.Cell} {a z : Nat} {bs : List Byte}
    (hm : ∀ c ∈ m, c.1 < z) (h : a + bs.length ≤ z) : ∀ c ∈ memSetList m a bs, c.1 < z := by
  induction bs generalizing m a with
  | nil => exact hm
  | cons b bs ih =>
    simp only [List.length_cons] at h
    refine ih (fun c hc => ?_) (by omega)
    rcases mem_memSet hc with rfl | hc
    · show a < z; omega
    · exact hm c hc

theorem writeLanes_inRange {m : List Host.Cell} {z a i n : Nat} {v : BusWord}
    (hm : ∀ c ∈ m, c.1 < z) : ∀ c ∈ writeLanes z m a v i n, c.1 < z := by
  induction n generalizing m i with
  | zero => exact hm
  | succ n ih =>
    refine ih fun c hc => ?_
    split at hc
    · rcases mem_memSet hc with rfl | hc
      · assumption
      · exact hm c hc
    · exact hm c hc

end Sys2Proof.Machine
end

