-- ==== Sys2Proof/Laws/Values.lean ====
section
/-! SUPPORT. The value notation of 00_scope.md R13 and R14: `val`, `digits`, `sig`, `trimmed`, `BE` and
`toBE` are what the rule says they are. -/

namespace Sys2Proof.Machine

/-! ### Limb lists -/

@[simp] theorem readLimbs_putLimbs (L : List Nat) : readLimbs (putLimbs L) = some L := by
  induction L with
  | nil => rfl
  | cons x L ih => simp only [putLimbs] at ih; simp [putLimbs, readLimbs, ih]

theorem readLimbs_eq_some {L : List Limb} {M : List Nat} : readLimbs L = some M ↔ L = putLimbs M := by
  constructor
  · intro h
    induction L generalizing M with
    | nil => simp only [readLimbs, Option.some.injEq] at h; subst h; rfl
    | cons x L ih =>
      cases x with
      | none => simp [readLimbs] at h
      | some x =>
        simp only [readLimbs, Option.map_eq_some_iff] at h
        obtain ⟨N, hN, rfl⟩ := h
        simp [ih hN, putLimbs]
  · rintro rfl; exact readLimbs_putLimbs M

theorem readLimbs_eq_none {L : List Limb} : readLimbs L = none ↔ none ∈ L := by
  induction L with
  | nil => simp [readLimbs]
  | cons x L ih => cases x <;> simp [readLimbs, ih]

@[simp] theorem putLimbs_length (L : List Nat) : (putLimbs L).length = L.length := by simp [putLimbs]

@[simp] theorem some_mem_putLimbs {L : List Nat} {x : Nat} : some x ∈ putLimbs L ↔ x ∈ L := by
  simp [putLimbs]

/-! ### `val` and `digits` -/

@[simp] theorem digits_length (r v n : Nat) : (digits r v n).length = n := by
  induction n generalizing v with
  | zero => rfl
  | succ n ih => simp [digits, ih]

theorem mem_digits_lt {r v n x : Nat} (hr : 0 < r) (h : x ∈ digits r v n) : x < r := by
  induction n generalizing v with
  | zero => simp [digits] at h
  | succ n ih =>
    rcases List.mem_cons.1 h with rfl | h
    · exact Nat.mod_lt _ hr
    · exact ih h

theorem val_digits_mod (r v n : Nat) : val r (digits r v n) = v % r ^ n := by
  induction n generalizing v with
  | zero => simp [digits, val, Nat.mod_one]
  | succ n ih => rw [digits, val, ih, Nat.pow_succ', Nat.mod_mul]

theorem val_digits {r v n : Nat} (h : v < r ^ n) : val r (digits r v n) = v := by
  rw [val_digits_mod, Nat.mod_eq_of_lt h]

theorem val_lt {r : Nat} {L : List Nat} (h : ∀ x ∈ L, x < r) : val r L < r ^ L.length := by
  induction L with
  | nil => simp [val]
  | cons x L ih =>
    have hx := h x List.mem_cons_self
    have hL := ih fun y hy => h y (List.mem_cons_of_mem _ hy)
    have : r * (val r L + 1) ≤ r * r ^ L.length := Nat.mul_le_mul_left r hL
    simp only [val, List.length_cons, Nat.pow_succ']
    rw [Nat.mul_add] at this
    omega

theorem val_append (r : Nat) (A B : List Nat) : val r (A ++ B) = val r A + r ^ A.length * val r B := by
  induction A with
  | nil => simp [val]
  | cons x A ih => simp only [List.cons_append, val, ih, List.length_cons, Nat.pow_succ']; ring

theorem val_replicate_zero (r n : Nat) : val r (List.replicate n 0) = 0 := by
  induction n with
  | zero => rfl
  | succ n ih => simp [List.replicate_succ, val, ih]

/-- Two lists of limbs of one length with one value are one list. -/
theorem val_inj {r : Nat} {A B : List Nat} (hA : ∀ x ∈ A, x < r) (hB : ∀ x ∈ B, x < r)
    (hl : A.length = B.length) (h : val r A = val r B) : A = B := by
  induction A generalizing B with
  | nil => exact (List.length_eq_zero_iff.1 hl.symm).symm
  | cons x A ih =>
    cases B with
    | nil => simp at hl
    | cons y B =>
      have hx := hA x List.mem_cons_self
      have hy := hB y List.mem_cons_self
      simp only [val] at h
      have h1 : x = y := by
        have := congrArg (· % r) h
        simpa [Nat.add_mul_mod_self_left, Nat.mod_eq_of_lt hx, Nat.mod_eq_of_lt hy] using this
      have h2 : val r A = val r B := by
        subst h1
        exact Nat.eq_of_mul_eq_mul_left (by omega) (Nat.add_left_cancel h)
      rw [h1, ih (fun z hz => hA z (List.mem_cons_of_mem _ hz))
        (fun z hz => hB z (List.mem_cons_of_mem _ hz)) (by simpa using hl) h2]

/-! ### `sig`, `tlen`, `trimmed` -/

theorem lt_two_pow_bitLength (v : Nat) : v < 2 ^ bitLength v := by
  unfold bitLength
  split
  · subst_vars; decide
  · rw [Nat.add_comm]; exact Nat.lt_log2_self

theorem two_pow_le_of_bitLength {v : Nat} (h : v ≠ 0) : 2 ^ (bitLength v - 1) ≤ v := by
  simp only [bitLength, h, if_false, Nat.add_sub_cancel_left]
  exact Nat.log2_self_le h

/-- `v` fits in `n` bits exactly when its bit length is at most `n`. -/
theorem bitLength_le {v n : Nat} : bitLength v ≤ n ↔ v < 2 ^ n := by
  constructor
  · exact fun h => lt_of_lt_of_le (lt_two_pow_bitLength v) (Nat.pow_le_pow_right (by decide) h)
  · intro h
    by_cases hv : v = 0
    · subst hv; simp [bitLength]
    · by_contra hc
      have h1 := two_pow_le_of_bitLength hv
      have h2 : (2 : Nat) ^ n ≤ 2 ^ (bitLength v - 1) := Nat.pow_le_pow_right (by decide) (by omega)
      omega

/-- `v` fits in `n` limbs exactly when its number of digits is at most `n`. -/
theorem sig_le {w v n : Nat} (hw : 0 < w) : sig w v ≤ n ↔ v < (2 ^ w) ^ n := by
  rw [← Nat.pow_mul, ← bitLength_le, sig]
  constructor
  · intro h
    have := (Nat.div_le_iff_le_mul_add_pred hw).1 h
    rw [Nat.mul_comm] at this
    have e : w * n = n * w := Nat.mul_comm _ _
    omega
  · intro h
    rw [Nat.div_le_iff_le_mul_add_pred hw]
    omega

theorem lt_radix_pow_tlen {w : Nat} (hw : 0 < w) (v : Nat) : v < (2 ^ w) ^ tlen w v :=
  (sig_le hw).1 (le_max_right _ _)

theorem tlen_le {w v n : Nat} (hw : 0 < w) (hn : 1 ≤ n) (h : v < (2 ^ w) ^ n) : tlen w v ≤ n :=
  max_le hn ((sig_le hw).2 h)

theorem one_le_tlen (w v : Nat) : 1 ≤ tlen w v := le_max_left _ _

@[simp] theorem trimmed_length (w v : Nat) : (trimmed w v).length = tlen w v := by simp [trimmed]

/-- A trimmed value keeps the number (00_scope.md R13). -/
theorem val_trimmed {w : Nat} (hw : 0 < w) (v : Nat) : val (2 ^ w) (trimmed w v) = v :=
  val_digits (lt_radix_pow_tlen hw v)

theorem mem_trimmed_lt {w v x : Nat} (h : x ∈ trimmed w v) : x < 2 ^ w :=
  mem_digits_lt (Nat.two_pow_pos w) h

/-! ### Bytes -/

@[simp] theorem toBE_length (v n : Nat) : (toBE v n).length = n := by simp [toBE]

/-- `BE(toBE(v, n)) = v` for `v < 256^n` (00_scope.md R14). -/
theorem beValue_toBE {v n : Nat} (h : v < 256 ^ n) : beValue (toBE v n) = v := by
  have e : ((toBE v n).reverse.map BitVec.toNat) = digits 256 v n := by
    simp only [toBE, ← List.map_reverse, List.reverse_reverse, List.map_map]
    conv_rhs => rw [← List.map_id (digits 256 v n)]
    refine List.map_congr_left fun x hx => ?_
    have : x < 256 := mem_digits_lt (by decide) hx
    simp [Nat.mod_eq_of_lt this]
  rw [beValue, e, val_digits h]

theorem beValue_lt (bs : List Byte) : beValue bs < 256 ^ bs.length := by
  have := val_lt (r := 256) (L := bs.reverse.map BitVec.toNat) (by
    intro x hx
    obtain ⟨b, -, rfl⟩ := List.mem_map.1 hx
    exact b.isLt)
  simpa [beValue] using this

/-- Byte `i` of the big-endian form weighs `256^(n-1-i)` (20_memory.md R51, R52). -/
theorem digits_getElem? (r v n i : Nat) (h : i < n) : (digits r v n)[i]? = some (v / r ^ i % r) := by
  induction n generalizing v i with
  | zero => omega
  | succ n ih =>
    cases i with
    | zero => simp [digits]
    | succ i =>
      simp only [digits, List.getElem?_cons_succ]
      rw [ih _ _ (by omega), Nat.div_div_eq_div_mul, ← Nat.pow_succ']

theorem toBE_getElem? {v n i : Nat} (h : i < n) :
    (toBE v n)[i]? = some (BitVec.ofNat 8 (v / 256 ^ (n - 1 - i))) := by
  rw [toBE, List.getElem?_map, List.getElem?_reverse (by simpa using h), digits_length,
    digits_getElem? _ _ _ _ (by omega)]
  simp only [Option.map_some, Option.some.injEq]
  apply BitVec.eq_of_toNat_eq
  simp

end Sys2Proof.Machine
end

