-- ==== Sys2Proof/Laws/Ops.lean ====
section
/-! SUPPORT. For each shared operation on the handle table, the slots and the pool, what it can do
(10_state.md R38, R39, R40, R41, R42, R45), and what each operand check answers. -/

namespace Sys2Proof.Machine

/-! ### The handle table -/

theorem State.entry_of_le {s : State} {h : Nat} (hh : s.table.length ≤ h) : s.entry h = Entry.unused := by
  simp [State.entry, List.getD, List.getElem?_eq_none hh]

theorem State.lt_of_holds {s : State} {h : Nat} (hh : (s.entry h).holds = true) :
    h < s.table.length := by
  by_contra hc
  rw [State.entry_of_le (by omega)] at hh
  cases hh

/-- What every handle reads after one entry was written. -/
theorem State.entry_setEntry {s : State} {h : Nat} (e : Entry) (hh : h < s.table.length) (x : Nat) :
    (s.setEntry h e).entry x = if x = h then e else s.entry x := by
  by_cases hx : x = h
  · subst hx; simp [State.entry, List.getD, hh]
  · simp [State.entry, List.getD, hx, List.getElem?_set_ne (Ne.symm hx)]

@[simp] theorem State.entry_setRes (s : State) (v : BusWord) (x : Nat) :
    (s.setRes v).entry x = s.entry x := rfl

@[simp] theorem State.entry_memWrite (s : State) (a : Nat) (bs : List Byte) (x : Nat) :
    (s.memWrite a bs).entry x = s.entry x := rfl

@[simp] theorem State.entry_raise (s : State) (c : FaultCode) (x : Nat) :
    (s.raise c).entry x = s.entry x := rfl

theorem State.entry_setValue {s : State} {h : Nat} (L : List Limb) (hh : h < s.table.length) (x : Nat) :
    (s.setValue h L).entry x = if x = h then { s.entry h with limbs := L } else s.entry x :=
  State.entry_setEntry _ hh x

theorem State.entry_result {s : State} {h : Nat} (v : Nat) (hh : h < s.table.length) (x : Nat) :
    (s.result h v).entry x =
      if x = h then { s.entry h with limbs := putLimbs (trimmed s.par.w v) } else s.entry x :=
  State.entry_setEntry _ hh x

@[simp] theorem State.entry_clearContext (s : State) (x : Nat) :
    s.clearContext.entry x = Entry.unused := by
  simp only [State.entry, State.clearContext_table, List.getD, List.getElem?_replicate]
  split <;> rfl

/-! ### The slots -/

theorem Slots.get_set (m : Slots) (i j : Fin 3) (v : Option ModSlot) :
    (m.set i v).get j = if j = i then v else m.get j := by
  fin_cases i <;> fin_cases j <;> rfl

@[simp] theorem Slots.get_empty (i : Fin 3) : Slots.empty.get i = none := by
  fin_cases i <;> rfl

/-- `bound` says that some valid slot has the handle as its modulus (45_limb_buffer_context.md R108). -/
theorem Slots.bound_iff {m : Slots} {h : Nat} :
    m.bound h = true ↔ ∃ i x, m.get i = some x ∧ x.modh = h := by
  have key : ∀ o : Option ModSlot, ModSlot.isFor h o = true ↔ ∃ x, o = some x ∧ x.modh = h := by
    intro o; cases o <;> simp [ModSlot.isFor]
  simp only [Slots.bound, Bool.or_eq_true, key]
  constructor
  · rintro ((⟨x, hx⟩ | ⟨x, hx⟩) | ⟨x, hx⟩)
    · exact ⟨0, x, hx⟩
    · exact ⟨1, x, hx⟩
    · exact ⟨2, x, hx⟩
  · rintro ⟨i, x, hx⟩
    fin_cases i
    · exact .inl (.inl ⟨x, hx⟩)
    · exact .inl (.inr ⟨x, hx⟩)
    · exact .inr ⟨x, hx⟩

/-! ### The pool -/

theorem leastUnused_eq_some {t : List Entry} {i h : Nat} :
    leastUnused t i = some h ↔
      i ≤ h ∧ h - i < t.length ∧ (∃ e, t[h - i]? = some e ∧ e.st = .unused) ∧
        ∀ j, i ≤ j → j < h → ∀ e, t[j - i]? = some e → e.st ≠ .unused := by
  induction t generalizing i with
  | nil => simp [leastUnused]
  | cons e t ih =>
    unfold leastUnused
    split
    · rename_i hu
      constructor
      · intro he
        cases he
        exact ⟨le_rfl, by simp, ⟨e, by simp, hu⟩, fun j h1 h2 => by omega⟩
      · rintro ⟨h1, -, -, h4⟩
        by_cases hi : h = i
        · rw [hi]
        · exact absurd hu (h4 i le_rfl (by omega) e (by simp))
    · rename_i hu
      rw [ih]
      constructor
      · rintro ⟨h1, h2, ⟨e', h3, h3'⟩, h4⟩
        refine ⟨by omega, by simp; omega, ⟨e', ?_, h3'⟩, fun j hj1 hj2 e'' hj => ?_⟩
        · rw [show h - i = h - (i + 1) + 1 by omega]; simpa using h3
        · by_cases hji : j = i
          · subst hji; simp at hj; exact hj ▸ hu
          · rw [show j - i = j - (i + 1) + 1 by omega] at hj
            exact h4 j (by omega) hj2 e'' (by simpa using hj)
      · rintro ⟨h1, h2, ⟨e', h3, h3'⟩, h4⟩
        have hne : h ≠ i := by rintro rfl; simp at h3; exact hu (h3 ▸ h3')
        refine ⟨by omega, by simp at h2; omega, ⟨e', ?_, h3'⟩, fun j hj1 hj2 e'' hj => ?_⟩
        · rw [show h - i = h - (i + 1) + 1 by omega] at h3; simpa using h3
        · refine h4 j (by omega) hj2 e'' ?_
          rw [show j - i = j - (i + 1) + 1 by omega]; simpa using hj

theorem leastUnused_eq_none {t : List Entry} {i : Nat} :
    leastUnused t i = none ↔ ∀ e ∈ t, e.st ≠ .unused := by
  induction t generalizing i with
  | nil => simp [leastUnused]
  | cons e t ih => unfold leastUnused; split <;> simp_all

/-- Everything `AllocHandle()` can do (10_state.md R38): pop the top of FL, take the least UNUSED
handle, or raise one of its two faults. -/
theorem State.allocHandle_cases (s : State) :
    (∃ h fl, s.free = h :: fl ∧ (s.entry h).rc = 0 ∧
      s.allocHandle = .ok (h, { s with free := fl }.setEntry h Entry.fresh)) ∨
    (∃ h fl, s.free = h :: fl ∧ (s.entry h).rc ≠ 0 ∧ s.allocHandle = .error .poolConsistency) ∨
    (∃ h, s.free = [] ∧ leastUnused s.table 0 = some h ∧
      s.allocHandle = .ok (h, s.setEntry h Entry.fresh)) ∨
    (s.free = [] ∧ leastUnused s.table 0 = none ∧ s.allocHandle = .error .poolExhausted) := by
  unfold State.allocHandle
  split
  · rename_i h fl hf
    split
    · rename_i hr; exact .inr (.inl ⟨h, fl, hf, hr, rfl⟩)
    · rename_i hr; exact .inl ⟨h, fl, hf, not_not.1 hr, rfl⟩
  · rename_i hf
    split
    · rename_i h hu; exact .inr (.inr (.inl ⟨h, hf, hu, rfl⟩))
    · rename_i hu; exact .inr (.inr (.inr ⟨hf, hu, rfl⟩))

/-- Everything `ReleaseHandle(h)` can do (10_state.md R39). -/
theorem State.releaseHandle_cases (s : State) (h : Nat) :
    ((s.entry h).st = .perm ∧ s.releaseHandle h = s) ∨
    ((s.entry h).st ≠ .perm ∧ (s.entry h).rc - 1 = 0 ∧
      s.releaseHandle h = { s with free := h :: s.free }.setEntry h Entry.freed) ∨
    ((s.entry h).st ≠ .perm ∧ (s.entry h).rc - 1 ≠ 0 ∧
      s.releaseHandle h = s.setEntry h { s.entry h with rc := (s.entry h).rc - 1 }) := by
  simp only [State.releaseHandle]
  split
  · rename_i hp; exact .inl ⟨hp, rfl⟩
  · rename_i hp
    split
    · rename_i hr; exact .inr (.inl ⟨hp, hr, rfl⟩)
    · rename_i hr; exact .inr (.inr ⟨hp, hr, rfl⟩)

/-- A release touches the handle table and FL only. -/
theorem State.releaseHandle_frame (s : State) (h : Nat) :
    { s.releaseHandle h with table := s.table, free := s.free } = s := by
  rcases s.releaseHandle_cases h with ⟨-, e⟩ | ⟨-, -, e⟩ | ⟨-, -, e⟩ <;> rw [e] <;> rfl

/-- An allocation touches the handle table and FL only. -/
theorem State.allocHandle_frame {s t : State} {h : Nat} (e : s.allocHandle = .ok (h, t)) :
    { t with table := s.table, free := s.free } = s := by
  rcases s.allocHandle_cases with ⟨_, _, _, _, e'⟩ | ⟨_, _, _, _, e'⟩ | ⟨_, _, _, e'⟩ | ⟨_, _, e'⟩ <;>
    rw [e'] at e <;> cases e <;> rfl

/-! ### The operand checks -/

theorem need_eq_ok {p : Prop} [Decidable p] {c : FaultCode} {u : Unit} : need p c = .ok u ↔ p := by
  unfold need; split <;> simp_all

theorem need_pos {p : Prop} [Decidable p] (c : FaultCode) (h : p) : need p c = .ok () := by
  simp [need, h]

theorem need_neg {p : Prop} [Decidable p] (c : FaultCode) (h : ¬ p) : need p c = .error c := by
  simp [need, h]

theorem State.validHandle_iff {s : State} {h : Nat} :
    s.validHandle h = true ↔ h < s.par.nh ∧ ((s.entry h).st = .live ∨ (s.entry h).st = .perm) := by
  simp [State.validHandle, Entry.holds]

/-- A handle operand is its entry when the handle is valid, else INVALID_HANDLE (10_state.md R22). -/
theorem State.handle_eq (s : State) (h : Nat) :
    s.handle h = if s.validHandle h = true then .ok (s.entry h) else .error .invalidHandle := by
  unfold State.handle need; split <;> rfl

/-- The receiver checks in their order (10_state.md R41). -/
theorem State.receiver_eq (s : State) (h : Nat) :
    s.receiver h =
      if s.validHandle h = true then
        if (s.entry h).st = .perm then .error .permanentReceiver
        else if (s.entry h).rc = 1 then .ok (s.entry h) else .error .sharedReceiver
      else .error .invalidHandle := by
  simp only [State.receiver, State.handle_eq, need]
  repeat' split
  all_goals simp_all [bind, Except.bind, pure, Except.pure]

/-- The operand checks in their order (10_state.md R42). -/
theorem State.consumed_eq (s : State) (ha hb : Nat) :
    s.consumed ha hb =
      if s.validHandle hb = true then
        if hb = ha then .error .operandAlias else .ok (s.entry hb)
      else .error .invalidHandle := by
  simp only [State.consumed, State.handle_eq, need]
  repeat' split
  all_goals simp_all [bind, Except.bind, pure, Except.pure]

/-- A value is readable when no limb is `⊥` (10_state.md R21). -/
theorem Entry.readable_eq_ok {e : Entry} {L : List Nat} :
    e.readable = .ok L ↔ e.limbs = putLimbs L := by
  rw [← readLimbs_eq_some, Entry.readable]; split <;> simp_all

theorem Entry.readable_of_poison {e : Entry} (h : none ∈ e.limbs) :
    e.readable = .error .undefinedData := by
  rw [Entry.readable, readLimbs_eq_none.2 h]

theorem Entry.readable_cases (e : Entry) :
    (∃ L, e.limbs = putLimbs L ∧ e.readable = .ok L) ∨
      (none ∈ e.limbs ∧ e.readable = .error .undefinedData) := by
  by_cases h : none ∈ e.limbs
  · exact .inr ⟨h, Entry.readable_of_poison h⟩
  · cases hL : readLimbs e.limbs with
    | none => exact absurd (readLimbs_eq_none.1 hL) h
    | some L => exact .inl ⟨L, readLimbs_eq_some.1 hL, by rw [Entry.readable, hL]⟩

theorem slotOperand_eq (slot : Nat) :
    slotOperand slot = if h : slot < 3 then .ok ⟨slot, h⟩ else .error .badSlot := rfl

/-! ### Sequencing of checks, and the outcome of a command -/

@[simp] theorem except_ok_bind {ε α β : Type} (a : α) (f : α → Except ε β) :
    (Except.ok a >>= f) = f a := rfl

@[simp] theorem except_error_bind {ε α β : Type} (c : ε) (f : α → Except ε β) :
    (Except.error c >>= f : Except ε β) = .error c := rfl

/-- A sequence answers when its first part answers and the rest answers with that. -/
theorem except_bind_eq_ok {ε α β : Type} {x : Except ε α} {f : α → Except ε β} {b : β} :
    (x >>= f) = .ok b ↔ ∃ a, x = .ok a ∧ f a = .ok b := by
  cases x <;> simp

theorem finishCommand_eq_next {s t : State} {r : Except FaultCode State} :
    finishCommand s r = .next t ↔ r = .ok t ∨ ∃ c, r = .error c ∧ s.raise c = t := by
  cases r <;> simp [finishCommand]

/-- A command's outcome is always a next state. -/
theorem finishCommand_next (s : State) (r : Except FaultCode State) :
    ∃ t, finishCommand s r = .next t := by
  cases r <;> exact ⟨_, rfl⟩

end Sys2Proof.Machine
end

