-- ==== Sys2Proof/Laws/Engine.lean ====
section
/-! SUPPORT. The engine step, the host's accesses and the step of the machine: what each can do, said
once (10_state.md R33, R36; 60_exceptions.md R119, R121; 70_reset_and_hazards.md R131, R145). -/

namespace Sys2Proof.Machine

/-- Every command is a rule run by `finishCommand`. -/
theorem exec_eq_finish (i : Instr) (s : State) : ∃ r, exec i s = finishCommand s r := by
  cases i <;> exact ⟨_, rfl⟩

/-- A command answers a next state: what its rule computed, or a fault entry (60_exceptions.md R118). -/
theorem exec_next (i : Instr) (s : State) : ∃ t, exec i s = .next t := by
  obtain ⟨r, e⟩ := exec_eq_finish i s
  rw [e]
  exact finishCommand_next s r

/-- A script that is empty leaves the engine's own step. -/
theorem step_of_nil {s : State} (h : s.script = []) : step s = engineStep s := by
  rw [step, advance, h]

/-- The first event of the script happens, in the state without it. -/
theorem step_of_cons {s : State} {e : HostEvent} {rest : List HostEvent} (h : s.script = e :: rest) :
    step s = hostEvent e { s with script := rest } := by
  rw [step, advance, h]

/-- Nothing happens in the engine while `BUSY = 0`. -/
theorem engineStep_idle {s : State} (h : s.busy = false) : engineStep s = .next s := by
  simp [engineStep, h]

/-- An issued command runs, then the step ends. -/
theorem engineStep_of_exec {s t : State} {i : Instr} (hb : s.busy = true) (hh : s.halted = false)
    (hd : s.fetch = .ok i) (he : exec i s = .next t) : engineStep s = .next t.endStep := by
  simp [engineStep, execute, hb, hh, hd, he]

/-- A word that is no command takes ILLEGAL_COMMAND, then the step ends. -/
theorem engineStep_of_illegal {s : State} {d : DecodeError} (hb : s.busy = true) (hh : s.halted = false)
    (hd : s.fetch = .error d) : engineStep s = .next (s.raise .illegalCommand).endStep := by
  simp [engineStep, execute, hb, hh, hd]

/-- Everything the engine step can do. -/
theorem engineStep_cases (s : State) :
    (s.busy = false ∧ engineStep s = .next s) ∨
    (s.busy = true ∧ s.halted = true ∧ engineStep s = .next s.endStep) ∨
    (s.busy = true ∧ s.halted = false ∧ ∃ i t, s.fetch = .ok i ∧ exec i s = .next t ∧
      engineStep s = .next t.endStep) ∨
    (s.busy = true ∧ s.halted = false ∧ ∃ d, s.fetch = .error d ∧
      engineStep s = .next (s.raise .illegalCommand).endStep) := by
  cases hb : s.busy
  · exact .inl ⟨rfl, engineStep_idle hb⟩
  · cases hh : s.halted
    · cases hd : s.fetch with
      | ok i =>
        obtain ⟨t, he⟩ := exec_next i s
        exact .inr (.inr (.inl ⟨rfl, rfl, i, t, rfl, he, engineStep_of_exec hb hh hd he⟩))
      | error d => exact .inr (.inr (.inr ⟨rfl, rfl, d, rfl, engineStep_of_illegal hb hh hd⟩))
    · exact .inr (.inl ⟨rfl, rfl, by simp [engineStep, hb, hh]⟩)

/-- The end of the engine step: a conflict that is taken, or none. -/
theorem endStep_eq (s : State) :
    s.endStep = if s.pconf = true ∧ s.halted = false
      then { s.raise .busConflict with pconf := false, busy := false }
      else { s with pconf := false, busy := false } := by
  unfold State.endStep
  cases hp : s.pconf <;> cases hh : s.halted <;> simp [hh]

/-- Everything a host access can do: its effect, or one of the two stops. -/
theorem onBus_cases (w : Width) (offset : Nat) (t : State) :
    (0x20000 ≤ offset ∧ onBus w offset t = .fault .noSuchOffset) ∨
    (offset < 0x20000 ∧ accessOk w offset = true ∧ onBus w offset t = .next t) ∨
    (offset < 0x20000 ∧ accessOk w offset = false ∧ onBus w offset t = .refused .hostAccess) := by
  unfold onBus windowSize
  by_cases h : 0x20000 ≤ offset
  · exact .inl ⟨h, by simp [h]⟩
  · cases ha : accessOk w offset
    · exact .inr (.inr ⟨by omega, rfl, by simp [h]⟩)
    · exact .inr (.inl ⟨by omega, rfl, by simp [h]⟩)

/-- A step that answers a next state is a host write, a host read, a reset or an engine step. -/
theorem step_eq_next {s t : State} (h : step s = .next t) :
    (s.script = [] ∧ engineStep s = .next t) ∨
    (∃ rest, s.script = .engine :: rest ∧ engineStep { s with script := rest } = .next t) ∨
    (∃ rest, s.script = .reset :: rest ∧ t = { s with script := rest }.resetEvent) ∨
    (∃ w offset v rest, s.script = .write w offset v :: rest ∧ offset < 0x20000 ∧
      accessOk w offset = true ∧ t = { s with script := rest }.busStore w offset v) ∨
    (∃ w offset rest, s.script = .read w offset :: rest ∧ offset < 0x20000 ∧
      accessOk w offset = true ∧
      t = { s with
        script := rest
        reads := { s with script := rest }.busValue w offset :: s.reads
        draws := s.draws + 1 }) := by
  cases hs : s.script with
  | nil => rw [step_of_nil hs] at h; exact .inl ⟨rfl, h⟩
  | cons e rest =>
    rw [step_of_cons hs] at h
    cases e with
    | engine => exact .inr (.inl ⟨rest, rfl, h⟩)
    | reset => simp only [hostEvent] at h; cases h; exact .inr (.inr (.inl ⟨rest, rfl, rfl⟩))
    | write w offset v =>
      refine .inr (.inr (.inr (.inl ⟨w, offset, v, rest, rfl, ?_⟩)))
      rcases onBus_cases w offset ({ s with script := rest }.busStore w offset v) with
        ⟨_, e⟩ | ⟨h1, h2, e⟩ | ⟨_, _, e⟩ <;> simp only [hostEvent, busWrite] at h <;> rw [e] at h <;> cases h
      exact ⟨h1, h2, rfl⟩
    | read w offset =>
      refine .inr (.inr (.inr (.inr ⟨w, offset, rest, rfl, ?_⟩)))
      rcases onBus_cases w offset
          { s with
            script := rest
            reads := { s with script := rest }.busValue w offset :: s.reads
            draws := s.draws + 1 } with
        ⟨_, e⟩ | ⟨h1, h2, e⟩ | ⟨_, _, e⟩ <;> simp only [hostEvent, busRead] at h <;> rw [e] at h <;> cases h
      exact ⟨h1, h2, rfl⟩

end Sys2Proof.Machine
end

