-- ==== Sys2Proof/Laws/Claims.lean ====
section
/-! SUPPORT. The words of the statements against the operations of the model: what each check, each
release, each allocation and each in-place result is in the statements' terms. -/

namespace Sys2Proof.Claims
open Sys2Proof.Machine

/-! ### Checks -/

theorem valid_eq (s : State) (h : Nat) : valid s h = s.validHandle h := by
  simp [valid, State.validHandle, Entry.holds, Bool.decide_and, Bool.decide_or, BEq.beq]

theorem faulted_eq (s : State) (c : FaultCode) : faulted s c = s.raise c := rfl

@[simp] theorem firstFault_nil : firstFault [] = none := rfl

theorem firstFault_cons (b : Bool) (c : FaultCode) (L : List (Bool × FaultCode)) :
    firstFault ((b, c) :: L) = if b then some c else firstFault L := rfl

theorem firstFault_append (A B : List (Bool × FaultCode)) :
    firstFault (A ++ B) = (firstFault A).or (firstFault B) := by
  induction A with
  | nil => simp
  | cons x A ih => obtain ⟨b, c⟩ := x; simp only [List.cons_append, firstFault_cons, ih]; split <;> rfl

/-- All checks pass when each of them does. -/
theorem firstFault_eq_none {L : List (Bool × FaultCode)} : firstFault L = none ↔ ∀ x ∈ L, x.1 = false := by
  induction L with
  | nil => simp
  | cons x L ih =>
    obtain ⟨b, c⟩ := x
    rw [firstFault_cons]
    cases b <;> simp [ih]

/-- A value with no `⊥` is read as its limbs. -/
theorem readable_of_not_poison {s : State} {h : Nat} (hp : poison s h = false) :
    (s.entry h).readable = .ok (limbsOf s h) := by
  rcases Entry.readable_cases (s.entry h) with ⟨L, h1, h2⟩ | ⟨h1, h2⟩
  · rw [h2, limbsOf, h1]; simp [putLimbs, List.filterMap_map]
  · simp [poison, h1] at hp

theorem readable_of_poison {s : State} {h : Nat} (hp : poison s h = true) :
    (s.entry h).readable = .error .undefinedData :=
  Entry.readable_of_poison (by simpa [poison] using hp)

theorem limbs_of_not_poison {s : State} {h : Nat} (hp : poison s h = false) :
    (s.entry h).limbs = putLimbs (limbsOf s h) := Entry.readable_eq_ok.1 (readable_of_not_poison hp)

theorem limbsOf_length {s : State} {h : Nat} (hp : poison s h = false) :
    (limbsOf s h).length = lenOf s h := by
  rw [lenOf, limbs_of_not_poison hp, putLimbs_length]

theorem slotAt_eq (s : State) (i : Fin 3) : slotAt s i.val = s.ms.get i := by fin_cases i <;> rfl

theorem isModulus_eq (s : State) (h : Nat) : isModulus s h = s.ms.bound h := by
  have key : ∀ o : Option ModSlot, (o.any fun m => m.modh == h) = ModSlot.isFor h o := by
    intro o; cases o <;> rfl
  simp [isModulus, slotAt, key, Slots.bound, Bool.or_assoc]

/-- Both ways to the engine step are the one engine step. -/
theorem engineStepIs_iff {s t : State} : EngineStepIs s t ↔ engineStep s = .next t :=
  ⟨fun h => h.2, fun h => ⟨fun hs => (step_of_nil hs).trans h, h⟩⟩

/-! ### The pool -/

theorem lt_of_valid {s : State} {h : Nat} (hv : s.validHandle h = true) : h < s.table.length := by
  rw [State.validHandle, Bool.and_eq_true] at hv
  exact State.lt_of_holds hv.2

/-- What every handle reads after a release (10_state.md R39). -/
theorem entry_releaseHandle {s : State} {h : Nat} (hh : h < s.table.length) (x : Nat) :
    (s.releaseHandle h).entry x = if x = h then released (s.entry h) else s.entry x := by
  rcases s.releaseHandle_cases h with ⟨a, e⟩ | ⟨a, b, e⟩ | ⟨a, b, e⟩ <;> rw [e]
  · by_cases hx : x = h <;> simp only [hx, released, a, if_true, if_false]
  · have hle : (s.entry h).rc ≤ 1 := by omega
    rw [State.entry_setEntry (s := { s with free := h :: s.free }) Entry.freed hh, released, if_neg a,
      if_pos hle]
    rfl
  · have hle : ¬ (s.entry h).rc ≤ 1 := by omega
    rw [State.entry_setEntry _ hh, released, if_neg a, if_neg hle]

theorem free_releaseHandle (s : State) (h : Nat) : (s.releaseHandle h).free = releasedFree s h := by
  rcases s.releaseHandle_cases h with ⟨a, e⟩ | ⟨a, b, e⟩ | ⟨a, b, e⟩ <;> rw [e, releasedFree]
  · rw [if_neg (fun c => c.1 a)]
  · rw [if_pos ⟨a, by omega⟩]; rfl
  · rw [if_neg (fun c => b (by omega))]; rfl

@[simp] theorem length_releaseHandle (s : State) (h : Nat) :
    (s.releaseHandle h).table.length = s.table.length := by
  rcases s.releaseHandle_cases h with ⟨_, e⟩ | ⟨_, _, e⟩ | ⟨_, _, e⟩ <;> rw [e] <;> simp

@[simp] theorem res_releaseHandle (s : State) (h : Nat) : (s.releaseHandle h).res = s.res := by
  rcases s.releaseHandle_cases h with ⟨_, e⟩ | ⟨_, _, e⟩ | ⟨_, _, e⟩ <;> rw [e] <;> rfl

/-! ### Results -/

/-- A receiver that passed its checks is LIVE with one owner. -/
theorem receiver_live {s : State} {h : Nat} (hv : s.validHandle h = true) (hp : (s.entry h).st ≠ .perm) :
    (s.entry h).st = .live := by
  rcases (State.validHandle_iff.1 hv).2 with e | e
  · exact e
  · exact absurd e hp

theorem wroteReceiver_setValue {s : State} {ha : Nat} (L : List Limb) (hv : s.validHandle ha = true)
    (hp : (s.entry ha).st ≠ .perm) (hr : (s.entry ha).rc = 1) :
    WroteReceiver s ((s.setValue ha L).setRes (busNat ha)) ha (owned L) := by
  refine ⟨⟨by simp, fun x => ?_⟩, rfl, rfl⟩
  rw [State.entry_setRes, State.entry_setValue L (lt_of_valid hv), oneEntry]
  simp only [owned, ← receiver_live hv hp, ← hr]

theorem wroteReceiver_result {s : State} {ha : Nat} (v : Nat) (hv : s.validHandle ha = true)
    (hp : (s.entry ha).st ≠ .perm) (hr : (s.entry ha).rc = 1) :
    WroteReceiver s (s.result ha v) ha (inPlace s v) := wroteReceiver_setValue _ hv hp hr

/-- The shared end of the arithmetic commands that consume HB (10_state.md R40, R42). -/
theorem wroteAndConsumed_result {s : State} {ha hb : Nat} (v : Nat) (hv : s.validHandle ha = true)
    (hp : (s.entry ha).st ≠ .perm) (hr : (s.entry ha).rc = 1) (hw : s.validHandle hb = true)
    (hne : hb ≠ ha) :
    WroteAndConsumed s ((s.result ha v).releaseHandle hb) ha hb (inPlace s v) := by
  have hl : hb < (s.result ha v).table.length := by simpa using lt_of_valid hw
  have hb' : (s.result ha v).entry hb = s.entry hb := by
    rw [State.entry_result _ (lt_of_valid hv), if_neg hne]
  obtain ⟨⟨-, h1⟩, h2, -⟩ := wroteReceiver_result v hv hp hr
  refine ⟨⟨by simp, fun x => ?_⟩, ?_, ?_, ?_⟩
  · rw [entry_releaseHandle hl, hb', h1, oneEntry, afterConsuming]
    by_cases hx : x = hb
    · rw [if_pos hx, hx, if_neg hne, if_pos rfl]
    · rw [if_neg hx]; simp only [hx, if_false]
  · rw [free_releaseHandle, releasedFree, releasedFree, hb']; rfl
  · rw [res_releaseHandle]; exact h2
  · rcases (s.result ha v).releaseHandle_cases hb with ⟨_, e⟩ | ⟨_, _, e⟩ | ⟨_, _, e⟩ <;> rw [e] <;> rfl

/-! ### A command's rule, one check at a time -/

/-- The two halves of a command's statement, for what is left of its rule `r` and of its checks `L`: a
failing check is the fault entry, and with none the rule answers a state with `P`. -/
def Checked (s : State) (r : Except FaultCode State) (L : List (Bool × FaultCode)) (P : State → Prop) :
    Prop :=
  (∀ c, firstFault L = some c → finishCommand s r = .next (faulted s c)) ∧
    (firstFault L = none → ∃ t, finishCommand s r = .next t ∧ P t)

theorem Checked.done {s t : State} {P : State → Prop} (h : P t) : Checked s (.ok t) [] P :=
  ⟨nofun, fun _ => ⟨t, rfl, h⟩⟩

theorem Checked.need {s : State} {p : Prop} [Decidable p] {bad : Bool} {c : FaultCode}
    {k : Unit → Except FaultCode State} {L : List (Bool × FaultCode)} {P : State → Prop}
    (hb : bad = true ↔ ¬ p) (h : p → Checked s (k ()) L P) :
    Checked s (Machine.need p c >>= k) ((bad, c) :: L) P := by
  by_cases hp : p
  · have hf : bad = false := by simpa using fun hc => hb.1 hc hp
    rw [need_pos c hp, except_ok_bind]
    simpa only [Checked, firstFault_cons, hf, Bool.false_eq_true, if_false] using h hp
  · rw [need_neg c hp, except_error_bind]
    refine ⟨fun d hd => ?_, fun hd => ?_⟩ <;> rw [firstFault_cons, if_pos (hb.2 hp)] at hd
    · cases hd; rfl
    · cases hd

theorem Checked.context {s : State} {k : Unit → Except FaultCode State} {L : List (Bool × FaultCode)}
    {P : State → Prop} (h : s.ctx = true → Checked s (k ()) L P) :
    Checked s (s.needContext >>= k) (noContext s :: L) P := Checked.need (by simp) h

theorem handle_bind (s : State) (x : Nat) (k : Entry → Except FaultCode State) :
    s.handle x >>= k = (Machine.need (s.validHandle x = true) .invalidHandle >>= fun _ => k (s.entry x)) := by
  rw [State.handle, Machine.need]; split <;> rfl

theorem receiver_bind (s : State) (x : Nat) (k : Entry → Except FaultCode State) :
    s.receiver x >>= k = s.handle x >>= fun e =>
      Machine.need (e.st ≠ .perm) .permanentReceiver >>= fun _ =>
        Machine.need (e.rc = 1) .sharedReceiver >>= fun _ => k e := by
  rw [State.receiver]
  cases s.handle x with
  | error => rfl
  | ok e => simp only [except_ok_bind, Machine.need]; repeat' split <;> try rfl

theorem consumed_bind (s : State) (ha hb : Nat) (k : Entry → Except FaultCode State) :
    s.consumed ha hb >>= k = s.handle hb >>= fun e =>
      Machine.need (hb ≠ ha) .operandAlias >>= fun _ => k e := by
  rw [State.consumed]
  cases s.handle hb with
  | error => rfl
  | ok e => simp only [except_ok_bind, Machine.need]; split <;> rfl

theorem Checked.handle {s : State} {x : Nat} {k : Entry → Except FaultCode State}
    {L : List (Bool × FaultCode)} {P : State → Prop}
    (h : s.validHandle x = true → Checked s (k (s.entry x)) L P) :
    Checked s (s.handle x >>= k) (badHandle s x :: L) P := by
  rw [handle_bind]
  exact Checked.need (by simp [valid_eq]) h

theorem Checked.receiver {s : State} {x : Nat} {k : Entry → Except FaultCode State}
    {L : List (Bool × FaultCode)} {P : State → Prop}
    (h : s.validHandle x = true → (s.entry x).st ≠ .perm → (s.entry x).rc = 1 →
      Checked s (k (s.entry x)) L P) :
    Checked s (s.receiver x >>= k) (receiverChecks s x ++ L) P := by
  rw [receiver_bind]
  exact Checked.handle fun hv => Checked.need (by simp) fun hp => Checked.need (by simp) fun hr => h hv hp hr

theorem Checked.consumed {s : State} {ha hb : Nat} {k : Entry → Except FaultCode State}
    {L : List (Bool × FaultCode)} {P : State → Prop}
    (h : s.validHandle hb = true → hb ≠ ha → Checked s (k (s.entry hb)) L P) :
    Checked s (s.consumed ha hb >>= k) (operandChecks s ha hb ++ L) P := by
  rw [consumed_bind]
  exact Checked.handle fun hv => Checked.need (by simp) fun hne => h hv hne

theorem Checked.readable {s : State} {x : Nat} {k : List Nat → Except FaultCode State}
    {L : List (Bool × FaultCode)} {P : State → Prop}
    (h : poison s x = false → Checked s (k (limbsOf s x)) L P) :
    Checked s ((s.entry x).readable >>= k) (unreadable s x :: L) P := by
  cases hp : poison s x
  · rw [readable_of_not_poison hp, except_ok_bind]
    simpa only [Checked, unreadable, firstFault_cons, hp, Bool.false_eq_true, if_false] using h hp
  · rw [readable_of_poison hp, except_error_bind]
    refine ⟨fun d hd => ?_, fun hd => ?_⟩ <;> simp only [unreadable, firstFault_cons, hp, if_true] at hd
    · cases hd; rfl
    · cases hd

/-- A check that is known to pass is skipped. -/
theorem Checked.pass {s : State} {r : Except FaultCode State} {c : FaultCode}
    {L : List (Bool × FaultCode)} {P : State → Prop} (h : Checked s r L P) :
    Checked s r ((false, c) :: L) P := h

/-- A check that is known to fail ends the rule. -/
theorem Checked.stop {s : State} {c : FaultCode} {L : List (Bool × FaultCode)} {P : State → Prop} :
    Checked s (.error c) ((true, c) :: L) P := ⟨fun d hd => by cases hd; rfl, nofun⟩

/-- The allocation that ends ALLOC, ALLOCI, LOAD and CLONE (10_state.md R38). -/
theorem Checked.alloc {s : State} {k : Nat × State → Except FaultCode State} {P : State → Prop}
    (h : ∀ x t, (s.table.length = s.par.nh → NextHandle s x) → s.allocHandle = .ok (x, t) →
      Checked s (k (x, t)) [] P) :
    Checked s (s.allocHandle >>= k) (poolChecks s) P := by
  rcases s.allocHandle_cases with ⟨x, fl, hf, hr, e⟩ | ⟨x, fl, hf, hr, e⟩ | ⟨x, hf, hu, e⟩ | ⟨hf, hu, e⟩
  · have := h _ _ (fun _ => by simp [NextHandle, hf]) e
    rw [e, except_ok_bind]
    simpa [poolChecks, hf, hr, Checked, firstFault_cons] using this
  · rw [e, except_error_bind]
    simpa [poolChecks, hf, hr] using Checked.stop
  · have hx := leastUnused_eq_some.1 hu
    obtain ⟨-, hlt, ⟨y, hy, hyu⟩, hleast⟩ := hx
    simp only [Nat.sub_zero] at hlt hy hleast
    have hent : ∀ j, j < s.table.length → s.table[j]? = some (s.entry j) := by
      intro j hj; simp [State.entry, List.getD, hj]
    have := h _ _ (fun hl => by
      simp only [NextHandle, hf]
      refine ⟨by omega, ?_, fun j hj => hleast j (Nat.zero_le _) hj _ (hent j (by omega))⟩
      rw [hent x hlt] at hy; cases hy; exact hyu) e
    rw [e, except_ok_bind]
    have hall : (s.table.all fun e => decide (e.st ≠ .unused)) = false := by
      rw [List.all_eq_false]
      exact ⟨y, List.mem_of_getElem? hy, by simp [hyu]⟩
    simp only [poolChecks, hf, hall]
    exact Checked.pass (Checked.pass this)
  · rw [e, except_error_bind]
    have hall : (s.table.all fun e => decide (e.st ≠ .unused)) = true := by
      rw [List.all_eq_true]
      exact fun y hy => by simpa using leastUnused_eq_none.1 hu y hy
    simp only [poolChecks, hf, hall]
    exact Checked.pass Checked.stop

end Sys2Proof.Claims
end

