-- ==== Sys2Proof/Laws/PerInstr.lean ====
section
/-! SUPPORT. The family EncodesInRow of LAWS.json: the encoding of a well-formed command lies in its own
row of the opcode table, that is, its OP is the row's and every reserved bit of the row's format is 0
(30_encoding.md R70). -/

namespace Sys2Proof.Laws.EncodesInRow

/-- The encoding of a well-formed command matches the row of its opcode. -/
def Statement (i : Instr) : Prop :=
  i.wellFormed = true →
    opField (encode i) = i.opcode.code ∧ encode i &&& i.opcode.format.mask = i.opcode.pattern

theorem opField_assemble (op ha hb fl : BitVec 8) (imm : BitVec 32) :
    opField (assemble op ha hb fl imm) = op := by
  unfold opField assemble
  rw [BitVec.extractLsb'_append_eq_of_le (by decide), BitVec.extractLsb'_append_eq_of_le (by decide),
    BitVec.extractLsb'_append_eq_of_le (by decide), BitVec.extractLsb'_append_eq_of_le (by decide)]
  simp

/-- A mask acts on a command word field by field. -/
theorem assemble_and (op ha hb fl op' ha' hb' fl' : BitVec 8) (imm imm' : BitVec 32) :
    assemble op ha hb fl imm &&& assemble op' ha' hb' fl' imm' =
      assemble (op &&& op') (ha &&& ha') (hb &&& hb') (fl &&& fl') (imm &&& imm') := by
  unfold assemble
  refine BitVec.and_append.trans ?_
  rw [BitVec.and_append, BitVec.and_append, BitVec.and_append]

theorem flagByte_and (b : Bool) : flagByte b &&& 0xFE#8 = 0 := by cases b <;> rfl

theorem pairImm_zero_and (n : Nat) : pairImm 0 n &&& 0xFFFF0000#32 = 0 := by
  have h : (0xFFFF0000#32) = 0xFFFF#16 ++ 0#16 := by decide
  rw [h, pairImm, BitVec.and_append]
  simp

theorem pairImm_and_zero (a : Nat) : pairImm a 0 &&& 0x0000FFFF#32 = 0 := by
  have h : (0x0000FFFF#32) = 0#16 ++ 0xFFFF#16 := by decide
  rw [h, pairImm, BitVec.and_append]
  simp

theorem slot_and {slot : Nat} (h : fitsSlot slot = true) : BitVec.ofNat 8 slot &&& 0xFC#8 = 0 := by
  have h : slot < 4 := of_decide_eq_true h
  interval_cases slot <;> rfl

/-- A word whose fields vanish under the mask's fields matches the row. -/
theorem matches_row {o : Opcode} {ha hb fl : BitVec 8} {imm : BitVec 32} (mha mhb mfl : BitVec 8)
    (mimm : BitVec 32) (hm : o.format.mask = assemble 0xFF#8 mha mhb mfl mimm) (h1 : ha &&& mha = 0)
    (h2 : hb &&& mhb = 0) (h3 : fl &&& mfl = 0) (h4 : imm &&& mimm = 0) :
    opField (assemble o.code ha hb fl imm) = o.code ∧
      assemble o.code ha hb fl imm &&& o.format.mask = o.pattern := by
  refine ⟨opField_assemble _ _ _ _ _, ?_⟩
  rw [hm, assemble_and, h1, h2, h3, h4]
  cases o <;> decide

theorem ctxopen : Statement (.ctxopen) := fun  _ =>
  matches_row (o := .ctxopen) 0xFF 0xFF 0xFF 0xFFFFFFFF (by decide) (by simp) (by simp) (by simp) (by simp)

theorem ctxclose : Statement (.ctxclose) := fun  _ =>
  matches_row (o := .ctxclose) 0xFF 0xFF 0xFF 0xFFFFFFFF (by decide) (by simp) (by simp) (by simp) (by simp)

theorem query : ∀ ha imm, Statement (.query ha imm) := fun _ _ _ =>
  matches_row (o := .query) 0x00 0xFF 0xFF 0x00000000 (by decide) (by simp) (by simp) (by simp) (by simp)

theorem alloc : ∀ skip n, Statement (.alloc skip n) := fun _ _ _ =>
  matches_row (o := .alloc) 0xFF 0xFF 0xFE 0xFFFF0000 (by decide) (by simp) (by simp) (flagByte_and _) (pairImm_zero_and _)

theorem alloci : ∀ imm, Statement (.alloci imm) := fun _ _ =>
  matches_row (o := .alloci) 0xFF 0xFF 0xFF 0x00000000 (by decide) (by simp) (by simp) (by simp) (by simp)

theorem load : ∀ addr len, Statement (.load addr len) := fun _ _ _ =>
  matches_row (o := .load) 0xFF 0xFF 0xFF 0x00000000 (by decide) (by simp) (by simp) (by simp) (by simp)

theorem save : ∀ ha addr len, Statement (.save ha addr len) := fun _ _ _ _ =>
  matches_row (o := .save) 0x00 0xFF 0xFF 0x00000000 (by decide) (by simp) (by simp) (by simp) (by simp)

theorem hex : ∀ ha addr, Statement (.hex ha addr) := fun _ _ _ =>
  matches_row (o := .hex) 0x00 0xFF 0xFF 0x0000FFFF (by decide) (by simp) (by simp) (by simp) (pairImm_and_zero _)

theorem release : ∀ ha, Statement (.release ha) := fun _ _ =>
  matches_row (o := .release) 0x00 0xFF 0xFF 0xFFFFFFFF (by decide) (by simp) (by simp) (by simp) (by simp)

theorem copy : ∀ ha, Statement (.copy ha) := fun _ _ =>
  matches_row (o := .copy) 0x00 0xFF 0xFF 0xFFFFFFFF (by decide) (by simp) (by simp) (by simp) (by simp)

theorem clone : ∀ ha, Statement (.clone ha) := fun _ _ =>
  matches_row (o := .clone) 0x00 0xFF 0xFF 0xFFFFFFFF (by decide) (by simp) (by simp) (by simp) (by simp)

theorem setperm : ∀ ha, Statement (.setperm ha) := fun _ _ =>
  matches_row (o := .setperm) 0x00 0xFF 0xFF 0xFFFFFFFF (by decide) (by simp) (by simp) (by simp) (by simp)

theorem rstperm : ∀ ha rel, Statement (.rstperm ha rel) := fun _ _ _ =>
  matches_row (o := .rstperm) 0x00 0xFF 0xFE 0xFFFFFFFF (by decide) (by simp) (by simp) (flagByte_and _) (by simp)

theorem resize : ∀ ha skip n, Statement (.resize ha skip n) := fun _ _ _ _ =>
  matches_row (o := .resize) 0x00 0xFF 0xFE 0xFFFF0000 (by decide) (by simp) (by simp) (flagByte_and _) (pairImm_zero_and _)

theorem trim : ∀ ha, Statement (.trim ha) := fun _ _ =>
  matches_row (o := .trim) 0x00 0xFF 0xFF 0xFFFFFFFF (by decide) (by simp) (by simp) (by simp) (by simp)

theorem lshift : ∀ ha n, Statement (.lshift ha n) := fun _ _ _ =>
  matches_row (o := .lshift) 0x00 0xFF 0xFF 0xFFFF0000 (by decide) (by simp) (by simp) (by simp) (pairImm_zero_and _)

theorem rshift : ∀ ha n, Statement (.rshift ha n) := fun _ _ _ =>
  matches_row (o := .rshift) 0x00 0xFF 0xFF 0xFFFF0000 (by decide) (by simp) (by simp) (by simp) (pairImm_zero_and _)

theorem iszero : ∀ ha, Statement (.iszero ha) := fun _ _ =>
  matches_row (o := .iszero) 0x00 0xFF 0xFF 0xFFFFFFFF (by decide) (by simp) (by simp) (by simp) (by simp)

theorem bitset : ∀ ha imm, Statement (.bitset ha imm) := fun _ _ _ =>
  matches_row (o := .bitset) 0x00 0xFF 0xFF 0x00000000 (by decide) (by simp) (by simp) (by simp) (by simp)

theorem bitcount : ∀ ha, Statement (.bitcount ha) := fun _ _ =>
  matches_row (o := .bitcount) 0x00 0xFF 0xFF 0xFFFFFFFF (by decide) (by simp) (by simp) (by simp) (by simp)

theorem cmp : ∀ ha hb, Statement (.cmp ha hb) := fun _ _ _ =>
  matches_row (o := .cmp) 0x00 0x00 0xFF 0xFFFFFFFF (by decide) (by simp) (by simp) (by simp) (by simp)

theorem add : ∀ ha hb, Statement (.add ha hb) := fun _ _ _ =>
  matches_row (o := .add) 0x00 0x00 0xFF 0xFFFFFFFF (by decide) (by simp) (by simp) (by simp) (by simp)

theorem sub : ∀ ha hb, Statement (.sub ha hb) := fun _ _ _ =>
  matches_row (o := .sub) 0x00 0x00 0xFF 0xFFFFFFFF (by decide) (by simp) (by simp) (by simp) (by simp)

theorem mul : ∀ ha hb, Statement (.mul ha hb) := fun _ _ _ =>
  matches_row (o := .mul) 0x00 0x00 0xFF 0xFFFFFFFF (by decide) (by simp) (by simp) (by simp) (by simp)

theorem imul : ∀ ha imm, Statement (.imul ha imm) := fun _ _ _ =>
  matches_row (o := .imul) 0x00 0xFF 0xFF 0x00000000 (by decide) (by simp) (by simp) (by simp) (by simp)

theorem div : ∀ ha hb mod, Statement (.div ha hb mod) := fun _ _ _ _ =>
  matches_row (o := .div) 0x00 0x00 0xFE 0xFFFFFFFF (by decide) (by simp) (by simp) (flagByte_and _) (by simp)

theorem idiv : ∀ ha imm, Statement (.idiv ha imm) := fun _ _ _ =>
  matches_row (o := .idiv) 0x00 0xFF 0xFF 0x00000000 (by decide) (by simp) (by simp) (by simp) (by simp)

theorem setmod : ∀ ha slot, Statement (.setmod ha slot) := fun _ _ h =>
  matches_row (o := .setmod) 0x00 0xFF 0xFC 0xFFFFFFFF (by decide) (by simp) (by simp) (slot_and (by simp_all [Instr.wellFormed])) (by simp)

theorem rstmod : ∀ slot, Statement (.rstmod slot) := fun _ h =>
  matches_row (o := .rstmod) 0xFF 0xFF 0xFC 0xFFFFFFFF (by decide) (by simp) (by simp) (slot_and (by simp_all [Instr.wellFormed])) (by simp)

theorem selmod : ∀ slot, Statement (.selmod slot) := fun _ h =>
  matches_row (o := .selmod) 0xFF 0xFF 0xFC 0xFFFFFFFF (by decide) (by simp) (by simp) (slot_and (by simp_all [Instr.wellFormed])) (by simp)

theorem barrett : ∀ ha, Statement (.barrett ha) := fun _ _ =>
  matches_row (o := .barrett) 0x00 0xFF 0xFF 0xFFFFFFFF (by decide) (by simp) (by simp) (by simp) (by simp)

end Sys2Proof.Laws.EncodesInRow
end

