-- ==== Sys2Proof/Tests/Slice0.lean ====
section
/-! SUPPORT. The model's own tests. Expected values are those of spec/95_test_vectors.md (a vector is
named in each test's comment) or are worked out from the rule named there; the words are written out
from 30_encoding.md R68 to R70. The witnesses show that the hypotheses of each statement can be met,
clause by clause. -/

namespace Sys2Proof.Tests
open Sys2Proof.Machine Sys2Proof.Claims

/-! ### Small states -/

/-- A small legal instance: three handles, four limbs, sixteen bytes of BUF. -/
def small : Params := { nh := 3, lmax := 4, bufsz := 16 }

/-- A LIVE value with one owner. -/
def live (L : List Nat) : Entry := { st := .live, rc := 1, limbs := L.map some }

/-- A PERM value. -/
def perm (L : List Nat) : Entry := { st := .perm, rc := 1, limbs := L.map some }

/-- A LIVE value with two owners. -/
def shared (L : List Nat) : Entry := { st := .live, rc := 2, limbs := L.map some }

/-- A LIVE value all of whose `n` limbs are `⊥`. -/
def poisoned (n : Nat) : Entry := { st := .live, rc := 1, limbs := List.replicate n none }

/-- An open context of instance `p` with these entries from handle 0 on, the others UNUSED. -/
def context (p : Params) (es : List Entry) : State :=
  { State.resetWith p with ctx := true, table := es ++ List.replicate (p.nh - es.length) Entry.unused }

/-- The same in the small instance. -/
def opened (es : List Entry) : State := context small es

/-- The open context in which slot 0 holds the modulus `m` in handle 0. -/
def withModulus (m : List Nat) (es : List Entry) : State :=
  { opened (perm m :: es) with ms := { s0 := some (slotFor (2 ^ 32) 0 m), s1 := none, s2 := none } }

/-- `s` with these bytes at the start of BUF. -/
def withBytes (s : State) (bs : List Byte) : State := s.memWrite 0 bs

/-- The next step runs the word and leaves a state with `p`. -/
def runs (word : Nat) (s : State) (p : State → Bool) : Bool :=
  match step (s.withFetchWord 64 word) with
  | .next t => p t
  | _ => false

/-- The next step runs the word, which faults with this code and changes nothing else. -/
def faults (word : Nat) (s : State) (code : BitVec 8) : Bool :=
  runs word s fun t => t.halted && t.fcode.code == code && t.fcmd == BitVec.ofNat 64 word &&
    t.table == s.table && t.free == s.free && t.res == s.res && t.buf == s.buf && t.ms == s.ms && !t.busy

/-- The state after `n` steps, if each answers one. -/
def after : Nat → State → Option State
  | 0, s => some s
  | n + 1, s => match step s with
    | .next t => after n t
    | _ => none

/-! ### WellFormed refuses an operand that does not fit its field (30_encoding.md R68) -/

theorem test_wf_handle : (Instr.trim 255).wellFormed = true ∧ (Instr.trim 256).wellFormed = false := by decide
theorem test_wf_second_handle :
    (Instr.add 0 255).wellFormed = true ∧ (Instr.add 0 256).wellFormed = false := by decide
theorem test_wf_half :
    (Instr.lshift 0 65535).wellFormed = true ∧ (Instr.lshift 0 65536).wellFormed = false := by decide
theorem test_wf_imm :
    (Instr.alloci 4294967295).wellFormed = true ∧ (Instr.alloci 4294967296).wellFormed = false := by decide
theorem test_wf_slot : (Instr.selmod 3).wellFormed = true ∧ (Instr.selmod 4).wellFormed = false := by decide
theorem test_wf_three_fields : (Instr.save 256 0 0).wellFormed = false ∧
    (Instr.save 0 65536 0).wellFormed = false ∧ (Instr.save 0 0 65536).wellFormed = false := by decide

/-! ### Words written out from the encoding, one per command at least (30_encoding.md R68 to R70) -/

/-- T13. -/
theorem test_word_ctxopen : decode 0x0100000000000000#64 = .ok (.ctxopen) ∧
    encode (.ctxopen) = 0x0100000000000000#64 := ⟨rfl, rfl⟩
/-- T16. -/
theorem test_word_ctxclose : decode 0x0200000000000000#64 = .ok (.ctxclose) ∧
    encode (.ctxclose) = 0x0200000000000000#64 := ⟨rfl, rfl⟩
/-- T30. -/
theorem test_word_query : decode 0x0305000000000003#64 = .ok (.query 5 3) ∧
    encode (.query 5 3) = 0x0305000000000003#64 := ⟨rfl, rfl⟩
/-- T33. -/
theorem test_word_alloc : decode 0x0800000100000002#64 = .ok (.alloc true 2) ∧
    encode (.alloc true 2) = 0x0800000100000002#64 := ⟨rfl, rfl⟩
/-- T42. -/
theorem test_word_alloci : decode 0x09000000FFFFFFFF#64 = .ok (.alloci 0xFFFFFFFF) ∧
    encode (.alloci 0xFFFFFFFF) = 0x09000000FFFFFFFF#64 := ⟨rfl, rfl⟩
/-- T49. -/
theorem test_word_load : decode 0x0A000000000C0005#64 = .ok (.load 12 5) ∧
    encode (.load 12 5) = 0x0A000000000C0005#64 := ⟨rfl, rfl⟩
/-- T55. -/
theorem test_word_save : decode 0x0B00000001000008#64 = .ok (.save 0 0x100 8) ∧
    encode (.save 0 0x100 8) = 0x0B00000001000008#64 := ⟨rfl, rfl⟩
/-- T64. -/
theorem test_word_hex : decode 0x0C01000002000000#64 = .ok (.hex 1 0x200) ∧
    encode (.hex 1 0x200) = 0x0C01000002000000#64 := ⟨rfl, rfl⟩
/-- T72. -/
theorem test_word_release : decode 0x10FF000000000000#64 = .ok (.release 255) ∧
    encode (.release 255) = 0x10FF000000000000#64 := ⟨rfl, rfl⟩
/-- T73. -/
theorem test_word_copy : decode 0x1100000000000000#64 = .ok (.copy 0) ∧
    encode (.copy 0) = 0x1100000000000000#64 := ⟨rfl, rfl⟩
/-- P1. -/
theorem test_word_clone : decode 0x1201000000000000#64 = .ok (.clone 1) ∧
    encode (.clone 1) = 0x1201000000000000#64 := ⟨rfl, rfl⟩
/-- T81. -/
theorem test_word_setperm : decode 0x1300000000000000#64 = .ok (.setperm 0) ∧
    encode (.setperm 0) = 0x1300000000000000#64 := ⟨rfl, rfl⟩
/-- T85. -/
theorem test_word_rstperm : decode 0x1400000100000000#64 = .ok (.rstperm 0 true) ∧
    encode (.rstperm 0 true) = 0x1400000100000000#64 := ⟨rfl, rfl⟩
/-- T90. -/
theorem test_word_resize : decode 0x1800000100000003#64 = .ok (.resize 0 true 3) ∧
    encode (.resize 0 true 3) = 0x1800000100000003#64 := ⟨rfl, rfl⟩
/-- T96. -/
theorem test_word_trim : decode 0x1900000000000000#64 = .ok (.trim 0) ∧
    encode (.trim 0) = 0x1900000000000000#64 := ⟨rfl, rfl⟩
/-- T101. -/
theorem test_word_lshift : decode 0x1A00000000000004#64 = .ok (.lshift 0 4) ∧
    encode (.lshift 0 4) = 0x1A00000000000004#64 := ⟨rfl, rfl⟩
/-- T104. -/
theorem test_word_rshift : decode 0x1B00000000000003#64 = .ok (.rshift 0 3) ∧
    encode (.rshift 0 3) = 0x1B00000000000003#64 := ⟨rfl, rfl⟩
/-- T108. -/
theorem test_word_iszero : decode 0x20FF000000000000#64 = .ok (.iszero 255) ∧
    encode (.iszero 255) = 0x20FF000000000000#64 := ⟨rfl, rfl⟩
/-- T116. -/
theorem test_word_bitset : decode 0x2100000000000028#64 = .ok (.bitset 0 40) ∧
    encode (.bitset 0 40) = 0x2100000000000028#64 := ⟨rfl, rfl⟩
/-- T117. -/
theorem test_word_bitcount : decode 0x2200000000000000#64 = .ok (.bitcount 0) ∧
    encode (.bitcount 0) = 0x2200000000000000#64 := ⟨rfl, rfl⟩
/-- T122. -/
theorem test_word_cmp : decode 0x2301000000000000#64 = .ok (.cmp 1 0) ∧
    encode (.cmp 1 0) = 0x2301000000000000#64 := ⟨rfl, rfl⟩
/-- T127. -/
theorem test_word_add : decode 0x3000010000000000#64 = .ok (.add 0 1) ∧
    encode (.add 0 1) = 0x3000010000000000#64 := ⟨rfl, rfl⟩
/-- T145. -/
theorem test_word_sub : decode 0x3101000000000000#64 = .ok (.sub 1 0) ∧
    encode (.sub 1 0) = 0x3101000000000000#64 := ⟨rfl, rfl⟩
/-- T154. -/
theorem test_word_mul : decode 0x3800010000000000#64 = .ok (.mul 0 1) ∧
    encode (.mul 0 1) = 0x3800010000000000#64 := ⟨rfl, rfl⟩
/-- T152. -/
theorem test_word_imul : decode 0x3900000000010000#64 = .ok (.imul 0 0x10000) ∧
    encode (.imul 0 0x10000) = 0x3900000000010000#64 := ⟨rfl, rfl⟩
/-- T167. -/
theorem test_word_div : decode 0x4000010100000000#64 = .ok (.div 0 1 true) ∧
    encode (.div 0 1 true) = 0x4000010100000000#64 := ⟨rfl, rfl⟩
/-- T162. -/
theorem test_word_idiv : decode 0x4100000000000008#64 = .ok (.idiv 0 8) ∧
    encode (.idiv 0 8) = 0x4100000000000008#64 := ⟨rfl, rfl⟩
/-- T187. -/
theorem test_word_setmod : decode 0x4801000000000000#64 = .ok (.setmod 1 0) ∧
    encode (.setmod 1 0) = 0x4801000000000000#64 := ⟨rfl, rfl⟩
/-- T195. -/
theorem test_word_rstmod : decode 0x4900000300000000#64 = .ok (.rstmod 3) ∧
    encode (.rstmod 3) = 0x4900000300000000#64 := ⟨rfl, rfl⟩
/-- T196. -/
theorem test_word_selmod : decode 0x4A00000200000000#64 = .ok (.selmod 2) ∧
    encode (.selmod 2) = 0x4A00000200000000#64 := ⟨rfl, rfl⟩
/-- T198. -/
theorem test_word_barrett : decode 0x4B01000000000000#64 = .ok (.barrett 1) ∧
    encode (.barrett 1) = 0x4B01000000000000#64 := ⟨rfl, rfl⟩

/-- T1, T2, T12: OP values that are not in the map. -/
theorem test_word_undefined : decode 0x0000000000000000#64 = .error .undefinedOpcode ∧
    decode 0x0400000000000000#64 = .error .undefinedOpcode ∧
    decode 0xFF00000000000000#64 = .error .undefinedOpcode := ⟨rfl, rfl, rfl⟩
/-- T3 to T9: a reserved bit that is 1. -/
theorem test_word_reserved : decode 0x0100000000000001#64 = .error .reservedBit ∧
    decode 0x3800010000000001#64 = .error .reservedBit ∧ decode 0x3000010100000000#64 = .error .reservedBit ∧
    decode 0x4800000400000000#64 = .error .reservedBit ∧ decode 0x0801000000000001#64 = .error .reservedBit ∧
    decode 0x0C00000000000001#64 = .error .reservedBit ∧ decode 0x1400000200000000#64 = .error .reservedBit :=
  ⟨rfl, rfl, rfl, rfl, rfl, rfl, rfl⟩
/-- The form the opcode table numbers: SELMOD s2 is one 64-bit word. -/
theorem test_table_word : decodeTableWord 64 0x4A00000200000000 = some (.selmod 2) := by decide

/-! ### One step of each command, at most two each -/

/-- T13. -/
theorem test_ctxopen : runs 0x0100000000000000 (State.resetWith small)
    (fun t => t.ctx && t.res == 0 && t.status == 0x00000004#32) = true := by decide
/-- T14. -/
theorem test_ctxopen_twice : faults 0x0100000000000000 (opened []) 0x16#8 = true := by decide
/-- T16. -/
theorem test_ctxclose : runs 0x0200000000000000 ({ withModulus [7] [poisoned 2] with cur := 1 })
    (fun t => !t.ctx && t.cur == 0 && t.table == List.replicate 3 Entry.unused && t.ms == Slots.empty) = true := by decide
/-- T17. -/
theorem test_ctxclose_keeps_buf : runs 0x0200000000000000 (withBytes (opened [live [7]]) [0, 0, 0, 7])
    (fun t => t.byteAt 3 == some 7 && t.res == 0) = true := by decide
/-- T22. -/
theorem test_query_count : runs 0x0300000000000003 (opened [perm [1]])
    (fun t => t.res == 0xFFFFFFFF#32) = true := by decide
/-- T10. -/
theorem test_query_operand : faults 0x0301000000000000 (opened [live [5]]) 0x1B#8 = true := by decide
/-- T33. -/
theorem test_alloc_skip : runs 0x0800000100000002 (opened [])
    (fun t => t.entry 0 == poisoned 2 && t.res == 0) = true := by decide
/-- T35. -/
theorem test_alloc_capacity : faults 0x0800000000000005 (opened []) 0x20#8 = true := by decide
/-- T39. -/
theorem test_alloci_lifo : runs 0x0900000000000009 ({ opened [Entry.freed, live [2], Entry.freed] with free := [2, 0] })
    (fun t => t.entry 2 == live [9] && t.free == [0] && t.res == 2) = true := by decide
/-- T43, with W = 16. -/
theorem test_alloci_radix : faults 0x0900000000010000 (context { small with w := 16 } []) 0x1B#8 = true := by decide
/-- T45. -/
theorem test_load : runs 0x0A00000000000005 (withBytes (opened []) [1, 2, 3, 4, 5])
    (fun t => t.entry 0 == live [0x02030405, 1] && t.res == 0) = true := by decide
/-- T49. -/
theorem test_load_range : faults 0x0A000000000C0005 (opened []) 0x1C#8 = true := by decide
/-- T55, at BUFSZ = 16. -/
theorem test_save : runs 0x0B00000000080008 (opened [live [0x02030405, 1]])
    (fun t => t.memRead 8 8 == some [0, 0, 0, 1, 2, 3, 4, 5] && t.res == 8) = true := by decide
/-- T56, at address 0. -/
theorem test_save_overflow : faults 0x0B00000000000004 (opened [live [0x02030405, 1]]) 0x21#8 = true := by decide
/-- T64, at address 0. -/
theorem test_hex : runs 0x0C01000000000000 ({ opened [Entry.freed, live [0xDEADBEEF, 1]] with free := [0] })
    (fun t => t.memRead 0 16 == some [0x30, 0x30, 0x30, 0x30, 0x30, 0x30, 0x30, 0x31,
      0x44, 0x45, 0x41, 0x44, 0x42, 0x45, 0x45, 0x46] && t.res == 16) = true := by decide
/-- T67. -/
theorem test_hex_poison : faults 0x0C00000000000000 (opened [poisoned 1]) 0x1D#8 = true := by decide
/-- T69. -/
theorem test_release_last : runs 0x1000000000000000 (opened [live [1]])
    (fun t => t.entry 0 == Entry.freed && t.free == [0] && t.res == 0) = true := by decide
/-- T71. -/
theorem test_release_perm : runs 0x1000000000000000 (opened [perm [1]])
    (fun t => t.entry 0 == perm [1] && t.free == [] && t.res == 0xFFFFFFFF#32) = true := by decide
/-- T73. -/
theorem test_copy : runs 0x1100000000000000 (opened [live [1]])
    (fun t => t.entry 0 == shared [1] && t.res == 0) = true := by decide
/-- T74, with RCMAX = 2. -/
theorem test_copy_overflow : faults 0x1100000000000000 (context { small with rcmax := 2 } [shared [1]]) 0x22#8 = true := by decide
/-- T78. -/
theorem test_clone_perm : runs 0x1200000000000000 (opened [perm [7]])
    (fun t => t.entry 1 == live [7] && t.entry 0 == perm [7] && t.res == 1) = true := by decide
/-- T80, with NH = 1. -/
theorem test_clone_exhausted : faults 0x1200000000000000 (context { small with nh := 1 } [live [7]]) 0x23#8 = true := by decide
/-- T81. -/
theorem test_setperm : runs 0x1300000000000000 (opened [live [9]])
    (fun t => t.entry 0 == perm [9] && t.res == 0) = true := by decide
/-- T82. -/
theorem test_setperm_shared : faults 0x1300000000000000 (opened [shared [9]]) 0x03#8 = true := by decide
/-- T85. -/
theorem test_rstperm_release : runs 0x1400000100000000 (opened [perm [9]])
    (fun t => t.entry 0 == Entry.freed && t.free == [0] && t.res == 0) = true := by decide
/-- T87. -/
theorem test_rstperm_bound : faults 0x1400000000000000 (withModulus [5] []) 0x15#8 = true := by decide
/-- T89. -/
theorem test_resize_shrinks : runs 0x1800000000000001 (opened [live [0, 5]])
    (fun t => t.entry 0 == live [0]) = true := by decide
/-- T90. -/
theorem test_resize_skip : runs 0x1800000100000003 (opened [live [5]])
    (fun t => (t.entry 0).limbs == [some 5, none, none]) = true := by decide
/-- T97. -/
theorem test_trim : runs 0x1900000000000000 (opened [live [5, 0, 0]])
    (fun t => t.entry 0 == live [5]) = true := by decide
/-- T98. -/
theorem test_trim_poison : faults 0x1900000000000000 (opened [{ live [5] with limbs := [some 5, none, none] }]) 0x1D#8 = true := by decide
/-- T102. -/
theorem test_lshift : runs 0x1A00000000000003 (opened [live [1]])
    (fun t => t.entry 0 == live [0, 0, 0, 1]) = true := by decide
/-- T101. -/
theorem test_lshift_capacity : faults 0x1A00000000000004 (opened [live [1]]) 0x20#8 = true := by decide
/-- T105. -/
theorem test_rshift_untrimmed : runs 0x1B00000000000001 (opened [live [1, 0, 0]])
    (fun t => t.entry 0 == live [0, 0]) = true := by decide
/-- T104. -/
theorem test_rshift_all : runs 0x1B00000000000003 (opened [live [0, 0, 1]])
    (fun t => t.entry 0 == live [0]) = true := by decide
/-- T108. -/
theorem test_iszero_null : runs 0x20FF000000000000 (opened [])
    (fun t => t.res == 1) = true := by decide
/-- T111. -/
theorem test_iszero_free : faults 0x2000000000000000 ({ opened [Entry.freed] with free := [0] }) 0x11#8 = true := by decide
/-- T112. -/
theorem test_bitset : runs 0x2100000000000020 (opened [live [0, 1]])
    (fun t => t.res == 1) = true := by decide
/-- T114. -/
theorem test_bitset_operand : faults 0x2100000000000040 (opened [live [0, 1]]) 0x1B#8 = true := by decide
/-- T118. -/
theorem test_bitcount : runs 0x2200000000000000 (opened [live [0, 1]])
    (fun t => t.res == 33) = true := by decide
/-- T119. -/
theorem test_bitcount_zero : runs 0x2200000000000000 (opened [live [0, 0]])
    (fun t => t.res == 0) = true := by decide
/-- T122. -/
theorem test_cmp_less : runs 0x2301000000000000 (opened [live [1, 1], live [0xFFFFFFFF]])
    (fun t => t.res == 0xFFFFFFFF#32) = true := by decide
/-- T124. -/
theorem test_cmp_length : runs 0x2300010000000000 (opened [live [5, 0], live [7]])
    (fun t => t.res == 1 && t.free == []) = true := by decide
/-- T140. -/
theorem test_add_carry : runs 0x3000010000000000 (opened [live [0xFFFFFFFF, 0xFFFFFFFF], live [1]])
    (fun t => t.entry 0 == live [0, 0, 1] && t.entry 1 == Entry.freed && t.free == [1] && t.res == 0) = true := by decide
/-- T129. -/
theorem test_add_alias : faults 0x3000000000000000 (opened [live [5]]) 0x12#8 = true := by decide
/-- T146. -/
theorem test_sub_negative : runs 0x3100010000000000 (opened [live [5, 0, 0], live [7]])
    (fun t => t.entry 0 == live [2] && t.neg && t.free == [1]) = true := by decide
/-- T143, from NEG = 1 (R94). -/
theorem test_sub_clears_neg : runs 0x3100010000000000 ({ opened [live [7], live [7]] with neg := true })
    (fun t => !t.neg && t.entry 0 == live [0] && t.free == [1]) = true := by decide
/-- T154. -/
theorem test_mul : runs 0x3800010000000000 (opened [live [0xFFFFFFFF], live [0xFFFFFFFF]])
    (fun t => t.entry 0 == live [1, 0xFFFFFFFE] && t.free == [1]) = true := by decide
/-- T156. -/
theorem test_mul_capacity : faults 0x3800010000000000 (opened [live [0, 0, 1], live [0, 1]]) 0x20#8 = true := by decide
/-- T148. -/
theorem test_imul : runs 0x3900000000000002 (opened [live [0x80000000]])
    (fun t => t.entry 0 == live [0, 1]) = true := by decide
/-- T151. -/
theorem test_imul_capacity : faults 0x3900000000000001 (opened [live [0, 0, 0, 1]]) 0x20#8 = true := by decide
/-- T166. -/
theorem test_div : runs 0x4000010000000000 (opened [live [5, 1], live [0x10]])
    (fun t => t.entry 0 == live [0x10000000] && t.free == [1]) = true := by decide
/-- T175. -/
theorem test_div_mod_untouched : runs 0x4000010100000000 (opened [live [5, 0], live [0, 0, 1]])
    (fun t => t.entry 0 == live [5, 0] && t.free == [1] && t.res == 0) = true := by decide
/-- T160. -/
theorem test_idiv : runs 0x4100000000000003 (opened [live [0, 1]])
    (fun t => t.entry 0 == live [0x55555555]) = true := by decide
/-- T161. -/
theorem test_idiv_zero : faults 0x4100000000000000 (opened [live [7]]) 0x1E#8 = true := by decide
/-- T181. -/
theorem test_setmod : runs 0x4800000100000000 (opened [live [1, 1]])
    (fun t => t.entry 0 == perm [1, 1] && t.res == 1 && t.ms.s1 == some
      { modh := 0, k := 2, d := 0x80000000, norm := 0x8000000080000000,
        mu := 0xFFFFFFFF00000000FFFFFFFF, rk1 := 0x1000000000000000000000000 }) = true := by decide
/-- T187. -/
theorem test_setmod_busy : faults 0x4801000000000000 (withModulus [5] [live [7]]) 0x18#8 = true := by decide
/-- T193. -/
theorem test_rstmod : runs 0x4900000000000000 (withModulus [0xFFFFFFFB] [])
    (fun t => t.entry 0 == Entry.freed && t.free == [0] && t.ms == Slots.empty && t.res == 0) = true := by decide
/-- T194. -/
theorem test_rstmod_invalid : faults 0x4900000100000000 (opened []) 0x19#8 = true := by decide
/-- T196. -/
theorem test_selmod : runs 0x4A00000200000000 (opened [])
    (fun t => t.cur == 2 && t.res == 2 && t.status == 0x00020004#32) = true := by decide
/-- T197. -/
theorem test_selmod_three : faults 0x4A00000300000000 (opened []) 0x17#8 = true := by decide
/-- T198. -/
theorem test_barrett : runs 0x4B01000000000000 (withModulus [0xFFFFFFFB] [live [0, 1]])
    (fun t => t.entry 1 == live [5] && t.entry 0 == perm [0xFFFFFFFB] && t.res == 1) = true := by decide
/-- T203. -/
theorem test_barrett_slot : faults 0x4B01000000000000 ({ withModulus [7] [live [9]] with cur := 1 }) 0x19#8 = true := by decide
/-- T1. -/
theorem test_illegal : faults 0x0000000000000000 (State.resetWith small) 0x10#8 = true := by decide
/-- T15. -/
theorem test_null_context : faults 0x0900000000000001 (State.resetWith small) 0x01#8 = true := by decide

/-! ### The host's side (spec/95_test_vectors.md section 3), one event a step -/

/-- H1, rows 1 and 2. -/
theorem test_host_id : (after 2 ({ State.reset with script := [.read .b32 0, .read .b32 4] })).any
    (fun t => t.reads == [0x02002040#32, 0x4D414444#32]) = true := by decide
/-- H2, rows 2 and 3: the word is issued, and STATUS bit 0 then reads 1. -/
theorem test_host_busy_status :
    (after 1 { State.resetWith small with script := [.write .b32 0x14 0x01000000] }).any (fun t => t.busy) = true ∧
    (({ opened [] with busy := true } : State).busValue .b32 8).getLsbD 0 = true :=
  ⟨by decide, by simp [State.busValue, State.lowRead, bufWindow]⟩
/-- H3, row 4, with a read of one byte. -/
theorem test_host_lanes : (after 2 ({ State.resetWith small with script := [.write .b32 0x10000 0x04030201, .read .b8 0x10002] })).any
    (fun t => t.memRead 0 4 == some [1, 2, 3, 4] && t.reads == [3]) = true := by decide
/-- H4, rows 6 to 8. -/
theorem test_host_conflict : (after 3 ({ (opened []).withFetchWord 64 0x0900000000000007 with
      script := [.write .b8 0x10000 0xAA, .engine, .read .b32 8] })).any
    (fun t => t.entry 0 == live [7] && t.reads == [0x00002406#32] && t.byteAt 0 == none) = true := by decide
/-- H5, rows 5 and 6. -/
theorem test_host_halted : (after 2 ({ State.resetWith small with
      halted := true, fcode := .illegalCommand, script := [.write .b32 0x14 0x01000000, .read .b32 8] })).any
    (fun t => !t.busy && t.cmdHi == 0x01000000#32 && t.reads == [0x00001002#32]) = true := by decide
/-- H6, rows 6 to 8. -/
theorem test_host_conflict_dropped : (after 3 ({ (opened []).withFetchWord 64 0x0400000000000000 with
      script := [.write .b8 0x10004 0x55, .engine, .read .b32 8] })).any
    (fun t => t.reads == [0x00001006#32] && !t.pconf) = true := by decide
/-- H7, rows 5 and 6. -/
theorem test_host_past_bufsz : (after 2 ({ State.resetWith small with script := [.write .b32 0x10010 0xDEADBEEF, .read .b32 0x10010] })).any
    (fun t => t.reads == [0] && t.buf == []) = true := by decide
/-- H8, rows 4 to 8. -/
theorem test_host_reset : (after 1 ({ (State.resetWith small).withFetchWord 64 0x0100000000000000 with script := [.reset] })).any
    (fun t => t == State.resetWith small) = true := by decide

/-! ### The reference algorithms (spec/95_test_vectors.md section 4) -/

/-- K1. -/
theorem test_knuth_k1 : knuthDivide 32 [5, 1] [0x10] false = [0x10000000] ∧
    knuthDivide 32 [5, 1] [0x10] true = [5] := by decide
/-- K2, the add-back step. -/
theorem test_knuth_k2 : knuthDigit (2 ^ 32) 3 [0x80000000, 0, 0x80000000] [0, 0, 0x80000000, 0] 0 =
    (0, [0, 0, 0x80000000, 0]) ∧ knuthDivide 32 [0, 0, 1] [1, 0, 1] false = [0] := by decide
/-- K4. -/
theorem test_knuth_k4 :
    knuthDivide 32 [0xFFFFFFFF, 0xFFFFFFFF, 0xFFFFFFFF, 0xFFFFFFFF] [0xFFFFFFFF, 1] false =
      [0x20000000, 0x40000000, 0x80000000] ∧
    knuthDivide 32 [0xFFFFFFFF, 0xFFFFFFFF, 0xFFFFFFFF, 0xFFFFFFFF] [0xFFFFFFFF, 1] true = [0x1FFFFFFF] := by
  decide
/-- B1, exact and windowed. -/
theorem test_barrett_b1 :
    barrettReduce (2 ^ 32) 0xFFFFFFFB 1 0x100000005 (2 ^ 64) 0x100000000 = 5 ∧
    barrettWindowed 32 0xFFFFFFFB 1 0x100000005 (2 ^ 64) 0x100000000 = 5 := by decide
/-- B2, exact and windowed. -/
theorem test_barrett_b2 :
    barrettReduce (2 ^ 32) 0x100000001 2 0xFFFFFFFF00000000FFFFFFFF (2 ^ 96)
      0xFFFFFFFFFFFFFFFFFFFFFFFFFFFFFFFF = 0 ∧
    barrettWindowed 32 0x100000001 2 0xFFFFFFFF00000000FFFFFFFF (2 ^ 96)
      0xFFFFFFFFFFFFFFFFFFFFFFFFFFFFFFFF = 0 := by decide
/-- B3, the two corrections. -/
theorem test_barrett_b3 :
    barrettReduce (2 ^ 32) 0x10000000000000001 3 0xFFFFFFFFFFFFFFFF0000000000000000 (2 ^ 128)
      0xFD914B0E60307B7543C6ED1E5F186904CC342416BCE88796 = 0x85FE8206BE009A06 := by decide

/-! ### Witnesses: the hypotheses of each statement can be met -/

theorem entry_cases (s : State) (h : Nat) : s.entry h = Entry.unused ∨ s.entry h ∈ s.table := by
  unfold State.entry List.getD
  cases e : s.table[h]? with
  | none => exact .inl rfl
  | some x => exact .inr (List.mem_of_getElem? e)

/-- An open context whose entries are LIVE or PERM values that fit satisfies the invariants. -/
theorem dataInv_opened {es : List Entry} (hl : es.length ≤ 3)
    (he : ∀ e ∈ es, e.st ≠ .unused ∧ e.st ≠ .free ∧ e.Ok small) : (opened es).DataInv := by
  have key : ∀ h, (opened es).entry h = Entry.unused ∨ (opened es).entry h ∈ es := by
    intro h
    rcases entry_cases (opened es) h with e | e
    · exact .inl e
    · simp only [opened, context, List.mem_append, List.mem_replicate] at e
      rcases e with e | e
      · exact .inr e
      · exact .inl e.2
  have hp : (opened es).par = small := rfl
  refine ⟨hp ▸ by decide, ?_, fun h => ?_, List.nodup_nil, fun h => ?_, fun i m hm => ?_,
    fun i j m n hm => ?_, nofun, rfl, nofun⟩
  · simp only [opened, context, State.resetWith, List.length_append, List.length_replicate, small]; omega
  · rcases key h with e | e
    · rw [e]; rfl
    · exact (he _ e).2.2
  · rcases key h with e | e
    · rw [e]; simp [opened, context, State.resetWith, Entry.unused]
    · simpa [opened, context, State.resetWith] using (he _ e).2.1
  · fin_cases i <;> cases hm
  · fin_cases i <;> cases hm

theorem ok_live {L : List Nat} (h1 : 1 ≤ L.length) (h2 : L.length ≤ 4) (h3 : ∀ x ∈ L, x < 2 ^ 32) :
    (live L).st ≠ .unused ∧ (live L).st ≠ .free ∧ (live L).Ok small :=
  ⟨nofun, nofun, ⟨Nat.le_refl 1, (by decide : 1 ≤ small.rcmax)⟩, by simpa [live] using h1, by simpa [live, small] using h2, by
    simpa [live, Params.radix, small] using h3⟩

theorem dataInv_empty : (opened []).DataInv := dataInv_opened (by decide) nofun

theorem dataInv_two : (opened [live [5, 1], live [16]]).DataInv :=
  dataInv_opened (by decide) (by
    intro e he
    simp only [List.mem_cons, List.not_mem_nil, or_false] at he
    rcases he with rfl | rfl <;> exact ok_live (by decide) (by decide) (by decide))

theorem dataInv_bytes {s : State} (h : s.DataInv) (hb : s.buf = []) (hz : s.par.bufsz = 16) :
    (withBytes s [1, 2, 3, 4, 5]).DataInv := by
  refine ⟨h.legal, h.tableLength, h.entries, h.freeNodup, h.freeExact, h.slots, h.slotsDiffer, h.noContext,
    ?_, ?_⟩
  · simp only [withBytes, State.memWrite, hb]; decide
  · simp only [withBytes, State.memWrite, hb, hz]; decide

/-- A state with a primed slot satisfies the invariants. -/
theorem dataInv_modulus : (withModulus [7] [live [9, 9]]).DataInv := by
  have key : ∀ h, (withModulus [7] [live [9, 9]]).entry h = perm [7] ∨
      (withModulus [7] [live [9, 9]]).entry h = live [9, 9] ∨
      (withModulus [7] [live [9, 9]]).entry h = Entry.unused := by
    intro h
    rcases h with _ | _ | _ | h
    · exact .inl rfl
    · exact .inr (.inl rfl)
    · exact .inr (.inr rfl)
    · exact .inr (.inr rfl)
  refine ⟨by decide, rfl, fun h => ?_, List.nodup_nil, fun h => ?_, fun i m hm => ?_,
    fun i j m n hm hn _ => ?_, nofun, rfl, nofun⟩
  · rcases key h with e | e | e <;> rw [e]
    · exact ⟨by decide, by decide, by simp [perm, Params.radix, withModulus, opened, context, small,
        State.resetWith]⟩
    · exact ⟨⟨by decide, by decide⟩, by decide, by decide, by
        simp [live, Params.radix, withModulus, opened, context, small, State.resetWith]⟩
    · rfl
  · rcases key h with e | e | e <;> rw [e] <;>
      simp [withModulus, opened, context, State.resetWith, perm, live, Entry.unused]
  · fin_cases i <;> cases hm
    exact ⟨rfl, [7], rfl, by decide, by decide, rfl⟩
  · fin_cases i <;> cases hm
    fin_cases j <;> cases hn
    rfl

/-- CTXOPEN, CTXCLOSE and ContextBit. -/
theorem witness_context : (State.resetWith small).ctx = false ∧ (opened []).ctx = true ∧
    Instr.trim 0 ≠ .ctxopen ∧ Instr.trim 0 ≠ .ctxclose ∧ ∃ t, exec (.trim 0) (opened [live [5]]) = .next t :=
  ⟨rfl, rfl, nofun, nofun, _, rfl⟩

/-- QUERY: the selectors at their ends, a PERM and a counted entry, and each failing check. -/
theorem witness_query : firstFault (queryChecks (opened [live [1], perm [1]]) 0 0) = none ∧
    firstFault (queryChecks (opened []) 0 1) = none ∧
    firstFault (queryChecks (opened [live [1], perm [1]]) 0 2) = none ∧
    firstFault (queryChecks (opened [live [1], perm [1]]) 0 3) = none ∧
    firstFault (queryChecks (opened [live [1], perm [1]]) 1 3) = none ∧
    ((opened [live [1], perm [1]]).entry 1).st = .perm ∧
    ((opened [live [1], perm [1]]).entry 0).st ≠ .perm ∧
    ((opened [live [1], perm [1]]).entry 0).rc < 2 ^ 32 ∧
    small.rcmax < 2 ^ 32 ∧
    firstFault (queryChecks (opened []) 0 4) = none ∧
    firstFault (queryChecks (opened []) 0 5) = none ∧
    firstFault (queryChecks (opened []) 0 9) = none ∧
    firstFault (queryChecks (opened []) 0 10) = none ∧
    firstFault (queryChecks (opened []) 0 11) = some .badOperand ∧
    firstFault (queryChecks (opened [live [1]]) 1 0) = some .badOperand ∧
    firstFault (queryChecks (opened []) 0 2) = some .invalidHandle ∧
    firstFault (queryChecks (opened []) 2 3) = some .invalidHandle ∧
    firstFault (queryChecks (State.resetWith small) 0 0) = some .nullContext := by decide
/-- ALLOC: length 1 and LMAX, and each failing check. -/
theorem witness_alloc : firstFault (allocChecks (opened []) 1) = none ∧
    firstFault (allocChecks (opened []) 4) = none ∧
    firstFault (allocChecks (opened []) 5) = some .capacity ∧
    firstFault (allocChecks (opened []) 0) = some .badLength ∧
    firstFault (allocChecks (State.resetWith small) 1) = some .nullContext ∧
    firstFault (allocChecks (opened [live [1], live [1], live [1]]) 1) = some .poolExhausted ∧
    firstFault (allocChecks { opened [live [1]] with free := [0] } 1) = some .poolConsistency := by decide
theorem witness_alloc_inv : (opened []).DataInv ∧ firstFault (allocChecks (opened []) 4) = none :=
  ⟨dataInv_empty, by decide⟩
/-- ALLOCI: 0 and RADIX - 1, and each failing check. -/
theorem witness_alloci : firstFault (allociChecks (opened []) 0) = none ∧
    firstFault (allociChecks (opened []) 0xFFFFFFFF) = none ∧
    firstFault (allociChecks (opened []) 0x100000000) = some .badOperand ∧
    firstFault (allociChecks (State.resetWith small) 0) = some .nullContext ∧
    firstFault (allociChecks (opened [live [1], live [1], live [1]]) 0) = some .poolExhausted ∧
    firstFault (allociChecks { opened [live [1]] with free := [0] } 0) = some .poolConsistency := by decide
theorem witness_alloci_inv : (opened []).DataInv ∧ firstFault (allociChecks (opened []) 7) = none :=
  ⟨dataInv_empty, by decide⟩
/-- LOAD: the whole written range, and each failing check. -/
theorem witness_load : firstFault (loadChecks (withBytes (opened []) [1, 2, 3, 4, 5]) 0 5) = none ∧
    firstFault (loadChecks (withBytes (opened []) [1, 2, 3, 4, 5]) 4 1) = none ∧
    firstFault (loadChecks (withBytes (opened []) [1, 2, 3, 4, 5]) 0 0) = some .badLength ∧
    firstFault (loadChecks (withBytes (opened []) [1, 2, 3, 4, 5]) 12 5) = some .bufRange ∧
    firstFault (loadChecks (withBytes (opened []) [1, 2, 3, 4, 5]) 12 4) = some .undefinedData ∧
    firstFault (loadChecks (withBytes (opened []) [1, 2, 3, 4, 5]) 0 6) = some .undefinedData ∧
    firstFault (loadChecks (withBytes (context { small with bufsz := 17 } []) (List.replicate 17 0)) 0 17) = some .capacity ∧
    firstFault (loadChecks (State.resetWith small) 0 1) = some .nullContext ∧
    firstFault (loadChecks (withBytes (opened [live [1], live [1], live [1]]) [1]) 0 1) = some .poolExhausted ∧
    firstFault (loadChecks { withBytes (opened [live [1]]) [1] with free := [0] } 0 1) = some .poolConsistency := by decide
theorem witness_load_inv : (withBytes (opened []) [1, 2, 3, 4, 5]).DataInv ∧ firstFault (loadChecks (withBytes (opened []) [1, 2, 3, 4, 5]) 0 5) = none :=
  ⟨dataInv_bytes dataInv_empty rfl rfl, by decide⟩
/-- SAVE: the smallest length that fits, the end of BUF, and each failing check. -/
theorem witness_save : firstFault (saveChecks (opened [live [255]]) 0 15 1) = none ∧
    firstFault (saveChecks (opened [live [256]]) 0 15 1) = some .saveOverflow ∧
    firstFault (saveChecks (opened [live [256]]) 0 15 2) = some .bufRange ∧
    firstFault (saveChecks (opened [live [0]]) 0 0 0) = some .badLength ∧
    firstFault (saveChecks (opened [poisoned 1]) 0 0 4) = some .undefinedData ∧
    firstFault (saveChecks (opened []) 0 0 4) = some .invalidHandle ∧
    firstFault (saveChecks (State.resetWith small) 0 0 4) = some .nullContext := by decide
/-- HEX: a value that fills BUF, and each failing check. -/
theorem witness_hex : firstFault (hexChecks (opened [live [1, 2]]) 0 0) = none ∧
    firstFault (hexChecks (opened [live [1, 2]]) 0 1) = some .bufRange ∧
    firstFault (hexChecks (opened [poisoned 2]) 0 0) = some .undefinedData ∧
    firstFault (hexChecks (opened []) 2 0) = some .invalidHandle ∧
    firstFault (hexChecks (State.resetWith small) 0 0) = some .nullContext := by decide
/-- RELEASE: a PERM, a shared and a last owner, and each failing check. -/
theorem witness_release : firstFault ([noContext (opened [perm [1]]), badHandle (opened [perm [1]]) 0]) = none ∧
    ((opened [perm [1]]).entry 0).st = .perm ∧
    firstFault ([noContext (opened [shared [1]]), badHandle (opened [shared [1]]) 0]) = none ∧
    ((opened [shared [1]]).entry 0).rc - 1 < 2 ^ 32 ∧
    firstFault ([noContext (opened [live [1]]), badHandle (opened [live [1]]) 0]) = none ∧
    firstFault ([noContext (opened [live [1]]), badHandle (opened [live [1]]) 1]) = some .invalidHandle ∧
    firstFault ([noContext (State.resetWith small), badHandle (State.resetWith small) 0]) = some .nullContext := by decide
/-- COPY: a count just below RCMAX, a PERM value, and each failing check. -/
theorem witness_copy : firstFault (copyChecks (context { small with rcmax := 2 } [live [1]]) 0) = none ∧
    firstFault (copyChecks (context { small with rcmax := 2 } [shared [1]]) 0) = some .refcountOverflow ∧
    firstFault (copyChecks (opened [perm [1]]) 0) = none ∧
    firstFault (copyChecks (opened []) 0) = some .invalidHandle ∧
    firstFault (copyChecks (State.resetWith small) 0) = some .nullContext := by decide
/-- CLONE: the last unused handle, and each failing check. -/
theorem witness_clone : firstFault (cloneChecks (opened [live [1], live [1]]) 1) = none ∧
    firstFault (cloneChecks (opened [live [1], live [1], live [1]]) 1) = some .poolExhausted ∧
    firstFault (cloneChecks { opened [live [1]] with free := [0] } 0) = some .poolConsistency ∧
    firstFault (cloneChecks (opened []) 0) = some .invalidHandle ∧
    firstFault (cloneChecks (State.resetWith small) 0) = some .nullContext := by decide
theorem witness_clone_inv : (opened [live [5, 1], live [16]]).DataInv ∧
    firstFault (cloneChecks (opened [live [5, 1], live [16]]) 0) = none := ⟨dataInv_two, by decide⟩
/-- SETPERM: one owner, and each failing check. -/
theorem witness_setperm : firstFault (setpermChecks (opened [live [9]]) 0) = none ∧
    firstFault (setpermChecks (opened [shared [9]]) 0) = some .permMisuse ∧
    firstFault (setpermChecks (opened [perm [9]]) 0) = some .permMisuse ∧
    firstFault (setpermChecks (opened []) 0) = some .invalidHandle ∧
    firstFault (setpermChecks (State.resetWith small) 0) = some .nullContext := by decide
/-- RSTPERM: a free PERM value, and each failing check. -/
theorem witness_rstperm : firstFault (rstpermChecks (opened [perm [9]]) 0) = none ∧
    firstFault (rstpermChecks (withModulus [5] []) 0) = some .modBound ∧
    firstFault (rstpermChecks (opened [live [9]]) 0) = some .permMisuse ∧
    firstFault (rstpermChecks (opened []) 0) = some .invalidHandle ∧
    firstFault (rstpermChecks (State.resetWith small) 0) = some .nullContext := by decide
/-- RESIZE: lengths 1 and LMAX, and each failing check. -/
theorem witness_resize : firstFault (resizeChecks (opened [live [5]]) 0 1) = none ∧
    firstFault (resizeChecks (opened [live [5]]) 0 4) = none ∧
    firstFault (resizeChecks (opened [live [5]]) 0 5) = some .capacity ∧
    firstFault (resizeChecks (opened [live [5]]) 0 0) = some .badLength ∧
    firstFault (resizeChecks (opened [perm [5]]) 0 1) = some .permanentReceiver ∧
    firstFault (resizeChecks (opened [shared [5]]) 0 1) = some .sharedReceiver ∧
    firstFault (resizeChecks (opened []) 0 1) = some .invalidHandle ∧
    firstFault (resizeChecks (State.resetWith small) 0 1) = some .nullContext := by decide
/-- TRIM and RSHIFT: a readable receiver, and each failing check. -/
theorem witness_trim_rshift : firstFault (readReceiverChecks (opened [live [5, 0]]) 0) = none ∧
    firstFault (readReceiverChecks (opened [poisoned 1]) 0) = some .undefinedData ∧
    firstFault (readReceiverChecks (opened [perm [5]]) 0) = some .permanentReceiver ∧
    firstFault (readReceiverChecks (opened [shared [5]]) 0) = some .sharedReceiver ∧
    firstFault (readReceiverChecks (opened []) 0) = some .invalidHandle ∧
    firstFault (readReceiverChecks (State.resetWith small) 0) = some .nullContext := by decide
/-- LSHIFT: up to LMAX, and each failing check. -/
theorem witness_lshift : firstFault (lshiftChecks (opened [live [1]]) 0 3) = none ∧
    firstFault (lshiftChecks (opened [live [1]]) 0 4) = some .capacity ∧
    firstFault (lshiftChecks (opened [poisoned 1]) 0 0) = some .undefinedData ∧
    firstFault (lshiftChecks (opened [perm [5]]) 0 1) = some .permanentReceiver ∧
    firstFault (lshiftChecks (opened [shared [5]]) 0 1) = some .sharedReceiver ∧
    firstFault (lshiftChecks (opened []) 0 1) = some .invalidHandle ∧
    firstFault (lshiftChecks (State.resetWith small) 0 1) = some .nullContext := by decide
/-- ISZERO: NULL, a zero and a nonzero value, and each failing check. -/
theorem witness_iszero : firstFault (iszeroChecks (opened []) 0xFF) = none ∧
    firstFault (iszeroChecks (opened [live [0]]) 0) = none ∧
    firstFault (iszeroChecks (opened [live [3]]) 0) = none ∧
    firstFault (iszeroChecks (opened [poisoned 1]) 0) = some .undefinedData ∧
    firstFault (iszeroChecks (opened []) 0xFE) = some .invalidHandle ∧
    firstFault (iszeroChecks (State.resetWith small) 0xFF) = some .nullContext := by decide
/-- BITSET: the first and the last bit, and each failing check. -/
theorem witness_bitset : firstFault (bitsetChecks (opened [live [0, 1]]) 0 0) = none ∧
    firstFault (bitsetChecks (opened [live [0, 1]]) 0 63) = none ∧
    firstFault (bitsetChecks (opened [live [0, 1]]) 0 64) = some .badOperand ∧
    firstFault (bitsetChecks (opened [poisoned 1]) 0 31) = some .undefinedData ∧
    firstFault (bitsetChecks (opened []) 0 0) = some .invalidHandle ∧
    firstFault (bitsetChecks (State.resetWith small) 0 0) = some .nullContext := by decide
/-- BITCOUNT: a readable value, and each failing check. -/
theorem witness_bitcount : firstFault (bitcountChecks (opened [live [0, 0]]) 0) = none ∧
    firstFault (bitcountChecks (opened [poisoned 1]) 0) = some .undefinedData ∧
    firstFault (bitcountChecks (opened []) 0) = some .invalidHandle ∧
    firstFault (bitcountChecks (State.resetWith small) 0) = some .nullContext := by decide
/-- CMP: two values and one twice, and each failing check. -/
theorem witness_cmp : firstFault (cmpChecks (opened [live [5, 0], live [7]]) 0 1) = none ∧
    firstFault (cmpChecks (opened [live [7]]) 0 0) = none ∧
    firstFault (cmpChecks (opened [poisoned 1, live [7]]) 0 1) = some .undefinedData ∧
    firstFault (cmpChecks (opened [poisoned 1, live [7]]) 1 0) = some .undefinedData ∧
    firstFault (cmpChecks (opened [poisoned 1]) 0 1) = some .invalidHandle ∧
    firstFault (cmpChecks (opened []) 0 1) = some .invalidHandle ∧
    firstFault (cmpChecks (State.resetWith small) 0 1) = some .nullContext := by decide
/-- CMP's three cases, and the two of DIV.M: the first differing limb from the top decides. -/
theorem witness_lexLess : LexLess [7] [5, 0] ∧ LexLess [9, 1] [0, 2] ∧ LexLess [0, 2] [1, 2] ∧
    ¬ LexLess [5, 0] [7] ∧ ¬ LexLess [7] [7] ∧ limbsOf (opened [live [7]]) 0 = [7] := by
  refine ⟨.inl (by decide), .inr ⟨rfl, 1, by decide, by decide, fun j h1 h2 => ?_⟩,
    .inr ⟨rfl, 0, by decide, by decide, fun j h1 h2 => ?_⟩, ?_, ?_, rfl⟩
  · simp only [List.length_cons, List.length_nil] at h2; omega
  · simp only [List.length_cons, List.length_nil] at h2
    obtain rfl : j = 1 := by omega
    rfl
  · rintro (h | ⟨h, -⟩) <;> simp at h
  · rintro (h | ⟨-, i, h1, h2, -⟩)
    · simp at h
    · simp only [List.length_cons, List.length_nil] at h1
      obtain rfl : i = 0 := by omega
      simp at h2
/-- ADD: a sum that just fits, and each failing check. -/
theorem witness_add : firstFault (addChecks (opened [live [0, 0, 1], live [1]]) 0 1) = none ∧
    firstFault (addChecks (opened [live [0, 0, 0, 1], live [1]]) 0 1) = some .capacity ∧
    firstFault (addChecks (opened [perm [5], live [1]]) 0 1) = some .permanentReceiver ∧
    firstFault (addChecks (opened [shared [5], live [1]]) 0 1) = some .sharedReceiver ∧
    firstFault (addChecks (opened [live [5]]) 0 1) = some .invalidHandle ∧
    firstFault (addChecks (opened []) 0 0) = some .invalidHandle ∧
    firstFault (addChecks (opened [live [5]]) 0 0) = some .operandAlias ∧
    firstFault (addChecks (opened [live [5], poisoned 1]) 0 1) = some .undefinedData ∧
    firstFault (addChecks (opened [poisoned 1, live [1]]) 0 1) = some .undefinedData ∧
    firstFault (addChecks (State.resetWith small) 0 1) = some .nullContext := by decide
/-- SUB: either sign, and each failing check. -/
theorem witness_sub : firstFault (consumingChecks (opened [live [3], live [5]]) 0 1) = none ∧
    firstFault (consumingChecks (opened [live [3], live [5]]) 1 0) = none ∧
    firstFault (consumingChecks (opened [perm [5], live [1]]) 0 1) = some .permanentReceiver ∧
    firstFault (consumingChecks (opened [shared [5], live [1]]) 0 1) = some .sharedReceiver ∧
    firstFault (consumingChecks (opened [live [5]]) 0 1) = some .invalidHandle ∧
    firstFault (consumingChecks (opened []) 0 0) = some .invalidHandle ∧
    firstFault (consumingChecks (opened [live [5]]) 0 0) = some .operandAlias ∧
    firstFault (consumingChecks (opened [live [5], poisoned 1]) 0 1) = some .undefinedData ∧
    firstFault (consumingChecks (opened [poisoned 1, live [1]]) 0 1) = some .undefinedData ∧
    firstFault (consumingChecks (State.resetWith small) 0 1) = some .nullContext := by decide
/-- MUL: a product that just fits, and each failing check. -/
theorem witness_mul : firstFault (mulChecks (opened [live [0, 1], live [0, 1]]) 0 1) = none ∧
    firstFault (mulChecks (opened [live [0, 0, 1], live [0, 1]]) 0 1) = some .capacity ∧
    firstFault (mulChecks (opened [perm [5], live [1]]) 0 1) = some .permanentReceiver ∧
    firstFault (mulChecks (opened [shared [5], live [1]]) 0 1) = some .sharedReceiver ∧
    firstFault (mulChecks (opened [live [5]]) 0 1) = some .invalidHandle ∧
    firstFault (mulChecks (opened []) 0 0) = some .invalidHandle ∧
    firstFault (mulChecks (opened [live [5]]) 0 0) = some .operandAlias ∧
    firstFault (mulChecks (opened [live [5], poisoned 1]) 0 1) = some .undefinedData ∧
    firstFault (mulChecks (opened [poisoned 1, live [1]]) 0 1) = some .undefinedData ∧
    firstFault (mulChecks (State.resetWith small) 0 1) = some .nullContext := by decide
/-- DIV: a divisor of 1, and each failing check. -/
theorem witness_div : firstFault (divChecks (opened [live [5], live [1]]) 0 1) = none ∧
    firstFault (divChecks (opened [live [5], live [3, 0]]) 0 1) = some .divideByZero ∧
    firstFault (divChecks (opened [perm [5], live [1]]) 0 1) = some .permanentReceiver ∧
    firstFault (divChecks (opened [shared [5], live [1]]) 0 1) = some .sharedReceiver ∧
    firstFault (divChecks (opened [live [5]]) 0 1) = some .invalidHandle ∧
    firstFault (divChecks (opened []) 0 0) = some .invalidHandle ∧
    firstFault (divChecks (opened [live [5]]) 0 0) = some .operandAlias ∧
    firstFault (divChecks (opened [live [5], poisoned 1]) 0 1) = some .undefinedData ∧
    firstFault (divChecks (opened [poisoned 1, live [1]]) 0 1) = some .undefinedData ∧
    firstFault (divChecks (State.resetWith small) 0 1) = some .nullContext := by decide
/-- IMUL: factors 0 and RADIX - 1, and each failing check. -/
theorem witness_imul : firstFault (imulChecks (opened [live [5]]) 0 0) = none ∧
    firstFault (imulChecks (opened [live [5]]) 0 0xFFFFFFFF) = none ∧
    firstFault (imulChecks (opened [live [5]]) 0 0x100000000) = some .badOperand ∧
    firstFault (imulChecks (opened [live [0, 0, 0, 1]]) 0 1) = some .capacity ∧
    firstFault (imulChecks (opened [poisoned 1]) 0 1) = some .undefinedData ∧
    firstFault (imulChecks (opened [perm [5]]) 0 1) = some .permanentReceiver ∧
    firstFault (imulChecks (opened [shared [5]]) 0 1) = some .sharedReceiver ∧
    firstFault (imulChecks (opened []) 0 1) = some .invalidHandle ∧
    firstFault (imulChecks (State.resetWith small) 0 1) = some .nullContext := by decide
/-- IDIV: divisors 1 and RADIX - 1, and each failing check. -/
theorem witness_idiv : firstFault (idivChecks (opened [live [5]]) 0 1) = none ∧
    firstFault (idivChecks (opened [live [5]]) 0 0xFFFFFFFF) = none ∧
    firstFault (idivChecks (opened [live [5]]) 0 0x100000000) = some .badOperand ∧
    firstFault (idivChecks (opened [live [5]]) 0 0) = some .divideByZero ∧
    firstFault (idivChecks (opened [poisoned 1]) 0 0) = some .undefinedData ∧
    firstFault (idivChecks (opened [perm [5]]) 0 1) = some .permanentReceiver ∧
    firstFault (idivChecks (opened [shared [5]]) 0 1) = some .sharedReceiver ∧
    firstFault (idivChecks (opened []) 0 1) = some .invalidHandle ∧
    firstFault (idivChecks (State.resetWith small) 0 1) = some .nullContext := by decide
/-- SETMOD: a modulus that just fits, the last slot, and each failing check. -/
theorem witness_setmod : firstFault (setmodChecks (opened [live [0, 1]]) 0 2) = none ∧
    firstFault (setmodChecks (opened [live [0, 0, 1]]) 0 2) = some .capacity ∧
    firstFault (setmodChecks (opened [live [5]]) 0 3) = some .badSlot ∧
    firstFault (setmodChecks (opened []) 0 0) = some .invalidHandle ∧
    firstFault (setmodChecks (opened [shared [5]]) 0 0) = some .permMisuse ∧
    firstFault (setmodChecks (withModulus [5] []) 0 1) = some .permMisuse ∧
    firstFault (setmodChecks (withModulus [5] [live [7]]) 1 0) = some .slotBusy ∧
    firstFault (setmodChecks (opened [poisoned 1]) 0 0) = some .undefinedData ∧
    firstFault (setmodChecks (opened [live [5, 0]]) 0 0) = some .badModulus ∧
    firstFault (setmodChecks (State.resetWith small) 0 0) = some .nullContext := by decide
/-- RSTMOD: a valid slot, and each failing check (the last in a state no run reaches). -/
theorem witness_rstmod : firstFault (rstmodChecks (withModulus [5] []) 0) = none ∧
    firstFault (rstmodChecks (withModulus [5] []) 2) = some .noModulus ∧
    firstFault (rstmodChecks (withModulus [5] []) 3) = some .badSlot ∧
    firstFault (rstmodChecks { withModulus [5] [] with table := [live [5]] } 0) = some .permMisuse ∧
    firstFault (rstmodChecks (State.resetWith small) 0) = some .nullContext := by decide
/-- SELMOD: the last slot, and each failing check. -/
theorem witness_selmod : firstFault (selmodChecks (opened []) 2) = none ∧
    firstFault (selmodChecks (opened []) 3) = some .badSlot ∧
    firstFault (selmodChecks (State.resetWith small) 0) = some .nullContext := by decide
/-- BARRETT: each failing check. -/
theorem witness_barrett : firstFault (barrettChecks (withModulus [7] [live [9, 9]]) 1) = none ∧
    firstFault (barrettChecks (withModulus [7] [perm [9]]) 1) = some .permanentReceiver ∧
    firstFault (barrettChecks (withModulus [7] [shared [9]]) 1) = some .sharedReceiver ∧
    firstFault (barrettChecks (withModulus [7] []) 1) = some .invalidHandle ∧
    firstFault (barrettChecks (opened [poisoned 1]) 0) = some .noModulus ∧
    firstFault (barrettChecks (withModulus [7] [poisoned 1]) 1) = some .undefinedData ∧
    firstFault (barrettChecks (State.resetWith small) 0) = some .nullContext := by decide
theorem witness_barrett_inv : (withModulus [7] [live [9, 9]]).DataInv ∧
    firstFault (barrettChecks (withModulus [7] [live [9, 9]]) 1) = none := ⟨dataInv_modulus, by decide⟩

/-- DecodeOfEncode, EncodeOfDecode: every field at its largest value. -/
theorem witness_encoding : (Instr.save 255 65535 65535).wellFormed = true ∧
    (Instr.setmod 255 3).wellFormed = true ∧ decode 0x0BFF0000FFFFFFFF#64 = .ok (.save 255 65535 65535) :=
  ⟨by decide, by decide, rfl⟩

/-- A state whose next event is `e`. -/
def facing (e : HostEvent) (s : State) : State := { s with script := [e] }

/-- IllegalWordFaults: an issued word 0, with an empty script and with a read to come after the engine. -/
theorem witness_illegal : ((opened []).withFetchWord 64 0).busy = true ∧
    ((opened []).withFetchWord 64 0).halted = false ∧
    { (opened []).withFetchWord 64 0 with script := [] }.script = [] ∧
    ((facing (.read .b32 8) (opened [])).withFetchWord 64 0).script = .engine :: [.read .b32 8] ∧
    ∀ o : Opcode, (((opened []).withFetchWord 64 0).cmdHi ++ ((opened []).withFetchWord 64 0).cmdLo) &&&
      o.format.mask ≠ o.pattern :=
  ⟨rfl, rfl, rfl, rfl, fun o => by cases o <;> decide⟩

/-- StepRunsDecoded, FaultEntryPrecise and BusConflictRule: an issued command, ended by either way to the
engine step, once completing and once faulting. -/
theorem witness_issued :
    ((opened []).withFetchWord 64 0x0900000000000007).script = .engine :: [] ∧
    ((opened []).withFetchWord 64 0x0900000000000007).busy = true ∧
    ((opened []).withFetchWord 64 0x0900000000000007).halted = false ∧
    decode (((opened []).withFetchWord 64 0x0900000000000007).cmdHi ++
      ((opened []).withFetchWord 64 0x0900000000000007).cmdLo) = .ok (.alloci 7) ∧
    (∃ t, exec (.alloci 7) { (opened []).withFetchWord 64 0x0900000000000007 with
      script := [], pconf := true } = .next t ∧ t.halted = false) ∧
    (∃ t, exec (.trim 0) { (opened []).withFetchWord 64 0x1900000000000000 with
      script := [], pconf := true } = .next t ∧ t.halted = true) :=
  ⟨rfl, rfl, rfl, rfl, ⟨_, rfl, rfl⟩, ⟨_, rfl, rfl⟩⟩

/-- A halted state between steps. -/
def haltedState (e : HostEvent) : State :=
  { State.resetWith small with halted := true, fcode := .illegalCommand, script := [e] }

theorem control_halted (e : HostEvent) : (haltedState e).ControlInv :=
  ⟨⟨nofun, fun _ => rfl⟩, nofun, nofun, nofun⟩

/-- HaltedExecutesNothing: a write to CMD_HI, and a byte to the last address of BUF. -/
theorem witness_halted :
    (haltedState (.write .b32 0x14 1)).ControlInv ∧ (haltedState (.write .b32 0x14 1)).halted = true ∧
    (haltedState (.write .b32 0x14 1)).script.head? ≠ some .reset ∧
    (∃ t, step (haltedState (.write .b32 0x14 1)) = .next t) ∧
    (haltedState (.write .b8 (0x10000 + 15) 1)).ControlInv ∧ 15 < (haltedState .engine).par.bufsz ∧
    (∃ t, step (haltedState (.write .b8 (0x10000 + 15) 1)) = .next t) :=
  ⟨control_halted _, rfl, by decide, ⟨_, rfl⟩, control_halted _, by decide, ⟨_, rfl⟩⟩

/-- IdleEngineWaits: both ways to the engine step. -/
theorem witness_idle : State.reset.busy = false ∧ State.reset.script = [] ∧
    (facing .engine State.reset).busy = false ∧ (facing .engine State.reset).script = .engine :: [] :=
  ⟨rfl, rfl, rfl, rfl⟩

/-- HostWriteIssues: its three clauses. -/
theorem witness_issue_writes :
    (facing (.write .b32 0x10 7) (opened [])).busy = false ∧
    (facing (.write .b32 0x10 7) (opened [])).script = .write .b32 0x10 7 :: [] ∧
    (facing (.write .b32 0x14 7) (opened [])).busy = false ∧
    (facing (.write .b32 0x14 7) (opened [])).script = .write .b32 0x14 7 :: [] ∧
    (facing (.write .b32 0x14 7) (opened [])).halted = false ∧
    (haltedState (.write .b32 0x14 7)).busy = false ∧
    (haltedState (.write .b32 0x14 7)).script = .write .b32 0x14 7 :: [] ∧
    (haltedState (.write .b32 0x14 7)).halted = true := ⟨rfl, rfl, rfl, rfl, rfl, rfl, rfl, rfl⟩

/-- BusConflictRule: a busy state that faces a write, at both ends of each side of its range. -/
theorem witness_conflict :
    (facing (.write .b8 0x10000 1) ((opened []).withFetchWord 64 0)).script = .write .b8 0x10000 1 :: [] ∧
    (facing (.write .b8 0x10000 1) ((opened []).withFetchWord 64 0)).busy = true ∧
    accessOk .b32 0x10 = true ∧ accessOk .b32 0x14 = true ∧ accessOk .b8 0x10000 = true ∧
    accessOk .b32 0x1FFFC = true ∧ 0x1FFFC < 0x20000 ∧ accessOk .b32 0xFFFC = true ∧
    accessOk .b32 0x0C = true ∧ accessOk .b32 0x18 = true := by decide

/-- StatusFields: a read of STATUS while BUSY = 0 and while BUSY = 1. -/
theorem witness_status :
    (facing (.read .b32 0x08) (opened [])).script = .read .b32 0x08 :: [] ∧
    (facing (.read .b32 0x08) (opened [])).busy = false ∧
    (facing (.read .b32 0x08) ((opened []).withFetchWord 64 0)).busy = true := ⟨rfl, rfl, rfl⟩

/-- RegisterReads: the first and the last register, the first and the last reserved offset; a read at the
last offset; a write to the first and to the last register that is not CMD_LO or CMD_HI. -/
theorem witness_registers :
    (facing (.read .b32 0x0C) (opened [])).script = .read .b32 0x0C :: [] ∧
    (facing (.read .b32 0x0C) (opened [])).busy = false ∧ (facing (.read .b32 0x04) (opened [])).par.Legal ∧
    0x1C % 4 = 0 ∧ 0x20 % 4 = 0 ∧ 0xFFFC % 4 = 0 ∧ 0xFFFC < 0x10000 ∧
    (∃ t, step (facing (.read .b8 0x1FFFF) (opened [])) = .next t) ∧
    (facing (.write .b32 0x00 1) (opened [])).script = .write .b32 0x00 1 :: [] ∧
    (facing (.write .b32 0x1C 1) (opened [])).script = .write .b32 0x1C 1 :: [] :=
  ⟨rfl, rfl, by decide, rfl, rfl, rfl, by decide, ⟨_, rfl⟩, rfl, rfl⟩

/-- BufWindowLanes: the last byte of BUF that holds a value, and an access past BUFSZ, written and read. -/
theorem witness_window :
    (facing (.read .b8 (0x10000 + 4)) (withBytes (opened []) [1, 2, 3, 4, 5])).busy = false ∧
    (facing (.read .b8 (0x10000 + 4)) (withBytes (opened []) [1, 2, 3, 4, 5])).byteAt (4 + 0) = some 5 ∧
    4 + 0 < (opened []).par.bufsz ∧ 4 % Width.b8.bytes = 0 ∧ 12 % Width.b32.bytes = 0 ∧
    12 + 3 < (opened []).par.bufsz ∧ 16 % Width.b32.bytes = 0 ∧ (opened []).par.bufsz ≤ 16 + 0 ∧
    0xFFFF % Width.b8.bytes = 0 ∧ 0xFFFF < 0x10000 ∧
    (facing (.write .b32 (0x10000 + 12) 7) (opened [])).script = .write .b32 (0x10000 + 12) 7 :: [] := by
  decide

/-- BufWindowLanes: a 32-bit access across the end of a BUF of 14 bytes, two lanes below it and two above. -/
theorem witness_window_across : 12 % Width.b32.bytes = 0 ∧
    12 + 1 < (context { small with bufsz := 14 } []).par.bufsz ∧
    (context { small with bufsz := 14 } []).par.bufsz ≤ 12 + 2 ∧ 3 < Width.b32.bytes ∧
    (facing (.write .b32 (0x10000 + 12) 7) (context { small with bufsz := 14 } [])).busy = false ∧
    (facing (.write .b32 (0x10000 + 12) 7) (context { small with bufsz := 14 } [])).script =
      .write .b32 (0x10000 + 12) 7 :: [] ∧
    (facing (.read .b32 (0x10000 + 12)) (context { small with bufsz := 14 } [])).script =
      .read .b32 (0x10000 + 12) :: [] := by decide

/-- UnsupportedHostAccess: the ends of each clause. -/
theorem witness_unsupported :
    (facing (.read .b8 0x20000) (opened [])).script = .read .b8 0x20000 :: [] ∧ 0x20000 ≤ 0x20000 ∧
    ¬ 0x20000 ≤ 0x1FFFF ∧ ¬ (Width.b16 = .b32 ∧ 0xFFFC % 4 = 0) ∧ ¬ (Width.b32 = .b32 ∧ 0x0E % 4 = 0) ∧
    0xFFFC < 0x10000 ∧ 0x10002 % Width.b32.bytes ≠ 0 ∧ 0x1FFFF % Width.b16.bytes ≠ 0 ∧
    0x1FFFF % Width.b8.bytes = 0 ∧ 0x10000 % Width.b32.bytes = 0 := by decide

/-- ResetEventValues: reset while a command is issued. -/
theorem witness_reset :
    (facing .reset ((opened []).withFetchWord 64 0)).script = .reset :: [] ∧
    (facing .reset ((opened []).withFetchWord 64 0)).busy = true := ⟨rfl, rfl⟩

/-- TrimmedIsCanonical: its second part, at 0 and at a value of two limbs. -/
theorem witness_trimmed : ([0].length = 1 ∨ [0].getLastD 0 ≠ 0) ∧ val (2 ^ 32) [0] = 0 ∧
    [5, 1].getLastD 0 ≠ 0 ∧ val (2 ^ 32) [5, 1] = 0x100000005 ∧ ∀ x ∈ [5, 1], x < 2 ^ 32 := by
  decide

/-- SaveOfLoadRoundTrip: the whole range, saved at the last place where it fits. -/
theorem witness_round_trip : (withBytes (opened []) [1, 2, 3, 4, 5]).DataInv ∧
    (withBytes (opened []) [1, 2, 3, 4, 5]).halted = false ∧
    (∃ t, exec (.load 0 5) (withBytes (opened []) [1, 2, 3, 4, 5]) = .next t ∧ t.halted = false) ∧
    11 + 5 ≤ (withBytes (opened []) [1, 2, 3, 4, 5]).par.bufsz :=
  ⟨dataInv_bytes dataInv_empty rfl rfl, rfl, ⟨_, rfl, rfl⟩, by decide⟩

/-- DivisionIdentity. -/
theorem witness_division : (opened [live [5, 1], live [16]]).DataInv ∧
    (opened [live [5, 1], live [16]]).halted = false ∧
    (∃ q, exec (.div 0 1 false) (opened [live [5, 1], live [16]]) = .next q ∧ q.halted = false) ∧
    (∃ r, exec (.div 0 1 true) (opened [live [5, 1], live [16]]) = .next r) :=
  ⟨dataInv_two, rfl, ⟨_, rfl, rfl⟩, ⟨_, rfl⟩⟩

/-- BarrettAlgorithmExact: B3, with `q3` and the start of the loop, which turns twice. -/
theorem witness_barrett_algorithm : 4 ≤ 2 ^ 32 ∧ (2 ^ 32) ^ (3 - 1) ≤ 0x10000000000000001 ∧
    0x10000000000000001 < (2 ^ 32) ^ 3 ∧
    0xFD914B0E60307B7543C6ED1E5F186904CC342416BCE88796 < (2 ^ 32) ^ (2 * 3) ∧
    0xFD914B0E60307B744635A20FFEE7ED8E = (0xFD914B0E60307B7543C6ED1E5F186904CC342416BCE88796 /
      (2 ^ 32) ^ (3 - 1)) * ((2 ^ 32) ^ (2 * 3) / 0x10000000000000001) / (2 ^ 32) ^ (3 + 1) ∧
    0x285FE8206BE009A08 = barrettStart ((2 ^ 32) ^ (3 + 1)) 0x43C6ED1E5F186904CC342416BCE88796
      0x43C6ED1E5F1869024635A20FFEE7ED8E ∧
    0x285FE8206BE009A08 / 0x10000000000000001 = 2 := by decide

/-- KnuthAlgorithmExact: K1; its two cases of MOD = 1 are those of `witness_lexLess`. -/
theorem witness_knuth_algorithm : (∀ x ∈ [5, 1], x < 2 ^ 32) ∧ (∀ x ∈ [16], x < 2 ^ 32) ∧ topLimb [16] ≠ 0 ∧
    LexLess [16] [5, 1] := ⟨by decide, by decide, by decide, .inl (by decide)⟩

/-- ResetIsSound: the defaults, and the smallest and the largest legal parameters. -/
theorem witness_legal : State.reset.par.Legal ∧
    ({ w := 16, nh := 1, lmax := 4, bufsz := 1, rcmax := 2 } : Params).Legal ∧
    ({ w := 32, nh := 255, lmax := 65535, bufsz := 65536, rcmax := 2 } : Params).Legal := by decide

/-- CommandsKeepDataInv, PoolConsistencyNeverRaised: a command that runs in a sound state. -/
theorem witness_command : (withModulus [7] [live [9, 9]]).DataInv ∧
    (withModulus [7] [live [9, 9]]).fcode ≠ .poolConsistency ∧
    ∃ t, exec (.barrett 1) (withModulus [7] [live [9, 9]]) = .next t ∧ t.halted = false :=
  ⟨dataInv_modulus, nofun, _, rfl, rfl⟩

/-- StepKeepsInv: a sound state with an issued command, and its step. -/
theorem witness_step : ((opened [live [5, 1], live [16]]).withFetchWord 64 0x4000010100000000).Inv ∧
    ∃ t, step ((opened [live [5, 1], live [16]]).withFetchWord 64 0x4000010100000000) = .next t := by
  have h := dataInv_two
  exact ⟨⟨⟨h.legal, h.tableLength, h.entries, h.freeNodup, h.freeExact, h.slots, h.slotsDiffer, h.noContext,
    h.bufCanonical, h.bufInRange⟩, ⟨⟨nofun, fun h => absurd rfl h⟩, fun _ => rfl, fun _ => rfl, nofun⟩⟩,
    _, rfl⟩

/-- OnlySkipCreatesPoison, WritersOfNegAndBuf: a state without `⊥` limbs and a command that runs. -/
theorem witness_no_poison : skips (.resize 0 false 3) = false ∧ (∀ h, none ∉ ((opened []).entry h).limbs) ∧
    Instr.opcode (.resize 0 false 3) ≠ .sub ∧ Instr.opcode (.resize 0 false 3) ≠ .save ∧
    Instr.opcode (.resize 0 false 3) ≠ .hex ∧ ∃ t, exec (.alloc false 3) (opened []) = .next t := by
  refine ⟨rfl, fun h => ?_, nofun, nofun, nofun, _, rfl⟩
  rcases h with _ | _ | _ | h <;> exact nofun

end Sys2Proof.Tests
end

section
/-! SUPPORT. The length of a canonical limb list, and `TrimmedIsCanonical` (00_scope.md R13). -/

namespace Sys2Proof.Machine

/-- The top limb is nonzero exactly when the value does not fit in one limb less. -/
theorem getLastD_ne_zero_iff {r : Nat} {L : List Nat} (hne : L ≠ []) (hL : ∀ x ∈ L, x < r) :
    L.getLastD 0 ≠ 0 ↔ r ^ (L.length - 1) ≤ val r L := by
  obtain ⟨A, x, rfl⟩ := List.eq_nil_or_concat' L |>.resolve_left hne
  have hA : val r A < r ^ A.length := val_lt fun y hy => hL y (List.mem_append_left _ hy)
  have hval : val r (A ++ [x]) = val r A + r ^ A.length * x := by simp [val_append, val]
  rw [hval, List.getLastD_concat, List.length_append, List.length_singleton, Nat.add_sub_cancel]
  constructor
  · intro hx
    exact le_add_left (Nat.le_mul_of_pos_right _ (Nat.pos_of_ne_zero hx))
  · rintro h rfl
    omega

/-- Canonical form is a matter of length alone: `tlen` counts the limbs of exactly the lists that are one
limb or have a nonzero top limb. -/
theorem length_eq_tlen_iff {w : Nat} {L : List Nat} (hw : 0 < w) (hne : L ≠ [])
    (hL : ∀ x ∈ L, x < 2 ^ w) :
    L.length = tlen w (val (2 ^ w) L) ↔ L.length = 1 ∨ L.getLastD 0 ≠ 0 := by
  have hpos : 0 < L.length := List.length_pos_iff.2 hne
  have hfits : sig w (val (2 ^ w) L) ≤ L.length := (sig_le hw).2 (val_lt hL)
  rw [getLastD_ne_zero_iff hne hL, ← Nat.not_lt, ← sig_le hw, tlen]
  omega

theorem trimmed_ne_nil (w v : Nat) : trimmed w v ≠ [] :=
  List.ne_nil_of_length_pos (by rw [trimmed_length]; exact one_le_tlen w v)

theorem trimmed_length_eq_one_or_getLastD_ne_zero {w : Nat} (hw : 0 < w) (v : Nat) :
    (trimmed w v).length = 1 ∨ (trimmed w v).getLastD 0 ≠ 0 :=
  (length_eq_tlen_iff hw (trimmed_ne_nil w v) fun _ => mem_trimmed_lt).1 (by simp [val_trimmed hw])

/-- The uniqueness half of 00_scope.md R13. -/
theorem eq_trimmed_val {w : Nat} {L : List Nat} (hw : 0 < w) (hne : L ≠ []) (hL : ∀ x ∈ L, x < 2 ^ w)
    (htop : L.length = 1 ∨ L.getLastD 0 ≠ 0) : L = trimmed w (val (2 ^ w) L) :=
  val_inj hL (fun _ => mem_trimmed_lt)
    (by rw [trimmed_length, (length_eq_tlen_iff hw hne hL).2 htop]) (val_trimmed hw _).symm

/-- Settles O47: a canonical list of limbs is as long as the trimmed form of its value, and lists of limbs
of one length and one value are equal. -/
theorem trimmedIsCanonical : Obligations.TrimmedIsCanonical := by
  unfold Obligations.TrimmedIsCanonical
  intro w v hw
  refine ⟨⟨val_trimmed hw v, fun _ => mem_trimmed_lt, trimmed_length_eq_one_or_getLastD_ne_zero hw v,
    trimmed_ne_nil w v⟩, ?_⟩
  rintro L hne hL htop rfl
  exact eq_trimmed_val hw hne hL htop

end Sys2Proof.Machine
end

section
/-! SUPPORT. What a command can do, said once: it takes a fault of its own list, or it opens a context, or
it runs in an open context and has one of the effects below (45_limb_buffer_context.md R100 to R108 and the
rules of the arithmetic units). Every rule about all commands is a case analysis of this. -/

namespace Sys2Proof.Claims
open Sys2Proof.Machine

/-- A limb list the command `i` may store in `s`: a value as R19 bounds it when the state is sound, and,
unless `i` skips, with no `⊥` when no entry has one (10_state.md R19, R21). -/
structure Storable (s : State) (i : Instr) (L : List Limb) : Prop where
  value : s.DataInv → ValueOk s.par L
  defined : skips i = false → (∀ h, none ∉ (s.entry h).limbs) → none ∉ L

/-- The effects of the commands other than CTXOPEN, with the checks they have passed; RES (`v`) is left
open. -/
inductive Effect (s : State) (i : Instr) : State → Prop where
  /-- CTXCLOSE (45_limb_buffer_context.md R101). -/
  | closes (hi : i = .ctxclose) (v : BusWord) : Effect s i ({ s.clearContext with ctx := false }.setRes v)
  /-- Only RES is written: QUERY, ISZERO, BITSET, BITCOUNT, CMP, and COPY of a PERM handle. -/
  | reports (v : BusWord) : Effect s i (s.setRes v)
  /-- SELMOD (46_barrett_reduction_engine.md R111). -/
  | selects (j : Fin 3) (v : BusWord) : Effect s i ({ s with cur := j }.setRes v)
  /-- SAVE and HEX (40_limb_buffer_values.md R91, R92). -/
  | writesBuf (a : Nat) (bs : List Byte) (v : BusWord) (hi : i.opcode = .save ∨ i.opcode = .hex)
      (hr : a + bs.length ≤ s.par.bufsz) : Effect s i ((s.memWrite a bs).setRes v)
  /-- ALLOC, ALLOCI, LOAD and CLONE: a fresh value with one owner (10_state.md R38). -/
  | allocates (h : Nat) (L : List Limb) (v : BusWord) (hn : s.table.length = s.par.nh → NextHandle s h)
      (hL : Storable s i L) :
      Effect s i (({ s with free := s.free.tail }.setEntry h (owned L)).setRes v)
  /-- A receiver written in place (10_state.md R40, R41). -/
  | rewrites (h : Nat) (L : List Limb) (v : BusWord) (hv : s.validHandle h = true)
      (hp : (s.entry h).st ≠ .perm) (hr : (s.entry h).rc = 1) (hL : Storable s i L) :
      Effect s i ((s.setValue h L).setRes v)
  /-- A receiver written in place, NEG by SUB, and the second operand released (10_state.md R42). -/
  | consumes (ha hb : Nat) (L : List Limb) (n : Bool) (v : BusWord) (hv : s.validHandle ha = true)
      (hp : (s.entry ha).st ≠ .perm) (hr : (s.entry ha).rc = 1) (hL : Storable s i L)
      (hw : s.validHandle hb = true) (hne : hb ≠ ha) (hneg : i.opcode ≠ .sub → n = s.neg) :
      Effect s i (({ s.setValue ha L with neg := n }.setRes v).releaseHandle hb)
  /-- RELEASE (45_limb_buffer_context.md R106). -/
  | releases (h : Nat) (v : BusWord) (hv : s.validHandle h = true) :
      Effect s i ((s.releaseHandle h).setRes v)
  /-- COPY of a LIVE handle (40_limb_buffer_values.md R89). -/
  | shares (h : Nat) (v : BusWord) (hl : (s.entry h).st = .live) (hr : (s.entry h).rc ≠ s.par.rcmax) :
      Effect s i ((s.setEntry h { s.entry h with rc := (s.entry h).rc + 1 }).setRes v)
  /-- SETPERM (45_limb_buffer_context.md R107). -/
  | pins (h : Nat) (v : BusWord) (hl : (s.entry h).st = .live) (hr : (s.entry h).rc = 1) :
      Effect s i ((s.setEntry h { s.entry h with st := .perm }).setRes v)
  /-- RSTPERM (45_limb_buffer_context.md R108). -/
  | unpins (h : Nat) (v : BusWord) (hp : (s.entry h).st = .perm) (hb : s.ms.bound h = false) :
      Effect s i ((s.setEntry h (owned (s.entry h).limbs)).setRes v)
  /-- RSTPERM.R (45_limb_buffer_context.md R108). -/
  | frees (h : Nat) (v : BusWord) (hp : (s.entry h).st = .perm) (hb : s.ms.bound h = false) :
      Effect s i (({ s with free := h :: s.free }.setEntry h Entry.freed).setRes v)
  /-- SETMOD (46_barrett_reduction_engine.md R109). -/
  | setsModulus (h : Nat) (j : Fin 3) (L : List Nat) (v : BusWord) (hl : (s.entry h).st = .live)
      (hr : (s.entry h).rc = 1) (hL : (s.entry h).limbs = putLimbs L) (htop : topLimb L ≠ 0)
      (hcap : L.length + 2 ≤ s.par.lmax) :
      Effect s i ({ s.setEntry h { s.entry h with st := .perm } with
        ms := s.ms.set j (some (slotFor s.par.radix h L)) }.setRes v)
  /-- RSTMOD (46_barrett_reduction_engine.md R110). -/
  | clearsModulus (j : Fin 3) (m : ModSlot) (v : BusWord) (hm : s.ms.get j = some m)
      (hp : (s.entry m.modh).st = .perm) :
      Effect s i ({ { s with free := m.modh :: s.free }.setEntry m.modh Entry.freed with
        ms := s.ms.set j none }.setRes v)

/-! ### A command's rule, one check at a time -/

/-- What is left of the rule of `i` takes a fault of `i`'s list or answers a state with `P`. -/
def Answers (i : Instr) (P : State → Prop) : Except FaultCode State → Prop
  | .ok t => P t
  | .error c => c ∈ commandFaults i

section Checks
variable {s : State} {i : Instr} {P : State → Prop}

theorem Answers.done {t : State} (h : P t) : Answers i P (.ok t) := h

theorem Answers.bind {α : Type} {x : Except FaultCode α} {k : α → Except FaultCode State}
    (hc : ∀ c, x = .error c → c ∈ commandFaults i) (h : ∀ a, x = .ok a → Answers i P (k a)) :
    Answers i P (x >>= k) := by
  cases x with
  | error c => exact hc c rfl
  | ok a => exact h a rfl

theorem Answers.need {p : Prop} [Decidable p] {c : FaultCode} {k : Unit → Except FaultCode State}
    (h : p → Answers i P (k ())) (hc : c ∈ commandFaults i := by simp [commandFaults]) :
    Answers i P (Machine.need p c >>= k) := by
  by_cases hp : p
  · rw [need_pos c hp]; exact h hp
  · rw [need_neg c hp]; exact hc

theorem Answers.context {k : Unit → Except FaultCode State} (h : s.ctx = true → Answers i P (k ()))
    (hc : .nullContext ∈ commandFaults i := by simp [commandFaults]) :
    Answers i P (s.needContext >>= k) := Answers.need h hc

theorem Answers.handle {x : Nat} {k : Entry → Except FaultCode State}
    (h : s.validHandle x = true → Answers i P (k (s.entry x)))
    (hc : .invalidHandle ∈ commandFaults i := by simp [commandFaults]) :
    Answers i P (s.handle x >>= k) := by
  rw [handle_bind]; exact Answers.need h hc

theorem Answers.receiver {x : Nat} {k : Entry → Except FaultCode State}
    (h : s.validHandle x = true → (s.entry x).st ≠ .perm → (s.entry x).rc = 1 →
      Answers i P (k (s.entry x)))
    (hc : [.invalidHandle, .permanentReceiver, .sharedReceiver] ⊆ commandFaults i := by
      simp [commandFaults]) :
    Answers i P (s.receiver x >>= k) := by
  simp only [List.cons_subset, List.nil_subset, and_true] at hc
  obtain ⟨h1, h2, h3⟩ := hc
  rw [receiver_bind]
  exact .handle (fun hv => .need (fun hp => .need (fun hr => h hv hp hr) h3) h2) h1

theorem Answers.consumed {ha hb : Nat} {k : Entry → Except FaultCode State}
    (h : s.validHandle hb = true → hb ≠ ha → Answers i P (k (s.entry hb)))
    (hc : [.invalidHandle, .operandAlias] ⊆ commandFaults i := by simp [commandFaults]) :
    Answers i P (s.consumed ha hb >>= k) := by
  simp only [List.cons_subset, List.nil_subset, and_true] at hc
  obtain ⟨h1, h2⟩ := hc
  rw [consumed_bind]
  exact .handle (fun hv => .need (fun hne => h hv hne) h2) h1

theorem Answers.readable {e : Entry} {k : List Nat → Except FaultCode State}
    (h : ∀ L, e.limbs = putLimbs L → Answers i P (k L))
    (hc : .undefinedData ∈ commandFaults i := by simp [commandFaults]) :
    Answers i P (e.readable >>= k) := by
  rcases e.readable_cases with ⟨L, hL, he⟩ | ⟨-, he⟩ <;> rw [he]
  · exact h L hL
  · exact hc

theorem Answers.readBytes {a n : Nat} {k : List Byte → Except FaultCode State}
    (h : ∀ bs, Answers i P (k bs)) (hc : .undefinedData ∈ commandFaults i := by simp [commandFaults]) :
    Answers i P (s.readBytes a n >>= k) := by
  rw [State.readBytes]
  cases s.memRead a n with
  | some bs => exact h bs
  | none => exact hc

theorem Answers.slot {n : Nat} {k : Fin 3 → Except FaultCode State} (h : ∀ j, Answers i P (k j))
    (hc : .badSlot ∈ commandFaults i := by simp [commandFaults]) : Answers i P (slotOperand n >>= k) := by
  rw [slotOperand_eq]
  split
  · exact h _
  · exact hc

theorem Answers.modulus {j : Fin 3} {k : ModSlot → Except FaultCode State}
    (h : ∀ m, s.ms.get j = some m → Answers i P (k m))
    (hc : .noModulus ∈ commandFaults i := by simp [commandFaults]) :
    Answers i P (s.modulus j >>= k) := by
  rw [State.modulus]
  cases hm : s.ms.get j with
  | some m => exact h m hm
  | none => exact hc

/-- Writing the value of the entry an allocation left (10_state.md R38, R40). -/
theorem setValue_setEntry_fresh (s : State) (h : Nat) (L : List Limb) :
    (s.setEntry h Entry.fresh).setValue h L = s.setEntry h (owned L) := by
  by_cases hh : h < s.table.length
  · rw [State.setValue, State.entry_setEntry _ hh, if_pos rfl]
    simp [State.setEntry, Entry.fresh, owned]
  · simp [State.setValue, State.setEntry, List.set_eq_of_length_le (Nat.le_of_not_lt hh)]

/-- The least UNUSED handle is the next one when FL is empty (10_state.md R38). -/
theorem nextHandle_of_leastUnused {x : Nat} (hl : s.table.length = s.par.nh) (hf : s.free = [])
    (hu : leastUnused s.table 0 = some x) : NextHandle s x := by
  obtain ⟨-, hlt, ⟨e, he, hst⟩, hleast⟩ := leastUnused_eq_some.1 hu
  simp only [Nat.sub_zero] at hlt he hleast
  simp only [NextHandle, hf]
  refine ⟨by omega, by simpa [State.entry, List.getD, he] using hst, fun j hj => ?_⟩
  have hj' : j < s.table.length := by omega
  have hst : s.table[j].st ≠ .unused := hleast j (Nat.zero_le _) hj _ (by simp [hj'])
  simpa [State.entry, List.getD, hj'] using hst

theorem Answers.alloc {k : Nat × State → Except FaultCode State}
    (h : ∀ x t, (s.table.length = s.par.nh → NextHandle s x) →
      (∀ L, t.setValue x L = { s with free := s.free.tail }.setEntry x (owned L)) → Answers i P (k (x, t)))
    (hc : [.poolConsistency, .poolExhausted] ⊆ commandFaults i := by simp [commandFaults]) :
    Answers i P (s.allocHandle >>= k) := by
  simp only [List.cons_subset, List.nil_subset, and_true] at hc
  rcases s.allocHandle_cases with ⟨x, fl, hf, -, e⟩ | ⟨x, fl, hf, -, e⟩ | ⟨x, hf, hu, e⟩ | ⟨hf, -, e⟩ <;>
    rw [e]
  · exact h x _ (fun _ => by simp [NextHandle, hf]) fun L => by simp [setValue_setEntry_fresh, hf]
  · exact hc.1
  · have htail : { s with free := s.free.tail } = s := by cases s; subst hf; rfl
    exact h x _ (fun hl => nextHandle_of_leastUnused hl hf hu) fun L => by
      rw [setValue_setEntry_fresh, htail]
  · exact hc.2

end Checks

end Sys2Proof.Claims
end

section
/-! SUPPORT. The lists the commands store are values (10_state.md R19, R40): each result fits in LMAX limbs,
by the command's capacity check or because it is at most an operand. -/

namespace Sys2Proof.Machine

theorem w_pos {p : Params} (hp : p.Legal) : 0 < p.w := by
  rcases hp.1 with h | h <;> omega

theorem radix_pos (p : Params) : 0 < p.radix := Nat.two_pow_pos p.w

theorem two_le_radix {p : Params} (hp : p.Legal) : 2 ≤ p.radix := by
  rcases hp.1 with h | h <;> rw [Params.radix, h] <;> decide

theorem bpl_pos {p : Params} (hp : p.Legal) : 0 < p.bpl := by
  rcases hp.1 with h | h <;> rw [Params.bpl, h] <;> decide

theorem one_le_lmax {p : Params} (hp : p.Legal) : 1 ≤ p.lmax := by
  obtain ⟨-, -, ⟨h, -⟩, -⟩ := hp
  omega

theorem none_notMem_putLimbs (L : List Nat) : none ∉ putLimbs L := by simp [putLimbs]

section Values
variable {p : Params}

theorem valueOk_putLimbs {L : List Nat} (h1 : L ≠ []) (h2 : L.length ≤ p.lmax)
    (h3 : ∀ x ∈ L, x < p.radix) : ValueOk p (putLimbs L) where
  nonempty := by simpa [Nat.one_le_iff_ne_zero] using h1
  bounded := by simpa using h2
  limbs := fun x hx => h3 x (some_mem_putLimbs.1 hx)

theorem ValueOk.mem_lt {L : List Nat} (h : ValueOk p (putLimbs L)) : ∀ x ∈ L, x < p.radix :=
  fun x hx => h.limbs x (some_mem_putLimbs.2 hx)

theorem ValueOk.length_le {L : List Nat} (h : ValueOk p (putLimbs L)) : L.length ≤ p.lmax := by
  simpa using h.bounded

theorem ValueOk.ne_nil {L : List Nat} (h : ValueOk p (putLimbs L)) : L ≠ [] := by
  rintro rfl; exact absurd h.nonempty (by decide)

theorem ValueOk.val_lt {L : List Nat} (h : ValueOk p (putLimbs L)) :
    val p.radix L < p.radix ^ L.length := Machine.val_lt h.mem_lt

/-- A trimmed result is a value when it fits in LMAX limbs. -/
theorem valueOk_trimmed {v n : Nat} (hp : p.Legal) (hn : n ≤ p.lmax) (hv : v < p.radix ^ n) :
    ValueOk p (putLimbs (trimmed p.w v)) := by
  refine valueOk_putLimbs (trimmed_ne_nil _ _) ?_ fun x hx => mem_trimmed_lt hx
  rw [trimmed_length]
  exact tlen_le (w_pos hp) (one_le_lmax hp) (hv.trans_le (Nat.pow_le_pow_right (Nat.two_pow_pos _) hn))

/-- A result that is at most an operand fits wherever the operand does. -/
theorem ValueOk.trimmed_le {v : Nat} {L : List Nat} (h : ValueOk p (putLimbs L)) (hp : p.Legal)
    (hv : v ≤ val p.radix L) : ValueOk p (putLimbs (trimmed p.w v)) :=
  valueOk_trimmed hp h.length_le (hv.trans_lt h.val_lt)

theorem ValueOk.trimmed_add {A B : List Nat} (hA : ValueOk p (putLimbs A)) (hB : ValueOk p (putLimbs B))
    (hp : p.Legal) (hn : max A.length B.length + 1 ≤ p.lmax) :
    ValueOk p (putLimbs (trimmed p.w (val p.radix A + val p.radix B))) := by
  have hle : ∀ n, n ≤ max A.length B.length → p.radix ^ n ≤ p.radix ^ max A.length B.length :=
    fun n h => Nat.pow_le_pow_right (radix_pos p) h
  have ha := hA.val_lt.trans_le (hle _ (le_max_left _ _))
  have hb := hB.val_lt.trans_le (hle _ (le_max_right _ _))
  have h2 : 2 * p.radix ^ max A.length B.length ≤ p.radix * p.radix ^ max A.length B.length :=
    Nat.mul_le_mul_right _ (two_le_radix hp)
  refine valueOk_trimmed hp hn ?_
  rw [Nat.pow_succ']
  omega

theorem ValueOk.trimmed_mul {A B : List Nat} (hA : ValueOk p (putLimbs A)) (hB : ValueOk p (putLimbs B))
    (hp : p.Legal) (hn : A.length + B.length ≤ p.lmax) :
    ValueOk p (putLimbs (trimmed p.w (val p.radix A * val p.radix B))) := by
  refine valueOk_trimmed hp hn ?_
  rw [Nat.pow_add]
  exact Nat.mul_lt_mul'' hA.val_lt hB.val_lt

theorem ValueOk.trimmed_imul {A : List Nat} {t : Nat} (hA : ValueOk p (putLimbs A)) (ht : t < p.radix)
    (hp : p.Legal) (hn : A.length + 1 ≤ p.lmax) :
    ValueOk p (putLimbs (trimmed p.w (val p.radix A * t))) := by
  refine valueOk_trimmed hp hn ?_
  rw [Nat.pow_succ]
  exact Nat.mul_lt_mul'' hA.val_lt ht

theorem ValueOk.trimmed_sub {A B : List Nat} (hA : ValueOk p (putLimbs A)) (hB : ValueOk p (putLimbs B))
    (hp : p.Legal) :
    ValueOk p (putLimbs (trimmed p.w (if val p.radix A ≥ val p.radix B
      then val p.radix A - val p.radix B else val p.radix B - val p.radix A))) := by
  split
  · exact hA.trimmed_le hp (Nat.sub_le _ _)
  · exact hB.trimmed_le hp (Nat.sub_le _ _)

/-- The bytes LOAD reads fill at least one limb (45_limb_buffer_context.md R105). -/
theorem valueOk_digits {v len : Nat} (hp : p.Legal) (hl : len ≠ 0) (hn : ceilDiv len p.bpl ≤ p.lmax) :
    ValueOk p (putLimbs (digits p.radix v (ceilDiv len p.bpl))) := by
  have hpos : 0 < ceilDiv len p.bpl := Nat.div_pos (by omega) (bpl_pos hp)
  refine valueOk_putLimbs (List.ne_nil_of_length_pos (by simpa using hpos)) (by simpa using hn) fun x hx => ?_
  exact mem_digits_lt (radix_pos p) hx

theorem valueOk_replicate {n : Nat} {x : Limb} (h1 : n ≠ 0) (h2 : n ≤ p.lmax)
    (hx : ∀ y, x = some y → y < p.radix) : ValueOk p (List.replicate n x) where
  nonempty := by simp; omega
  bounded := by simpa using h2
  limbs := fun y hy => hx y (List.eq_of_mem_replicate hy).symm

/-- RESIZE to a larger length (40_limb_buffer_values.md R81). -/
theorem ValueOk.append_replicate {L : List Limb} {n : Nat} {x : Limb} (h : ValueOk p L) (hn : n ≤ p.lmax)
    (hL : L.length < n) (hx : ∀ y, x = some y → y < p.radix) :
    ValueOk p (L ++ List.replicate (n - L.length) x) where
  nonempty := by simp; omega
  bounded := by simp; omega
  limbs := fun y hy => by
    rcases List.mem_append.1 hy with hy | hy
    · exact h.limbs y hy
    · exact hx y (List.eq_of_mem_replicate hy).symm

/-- RESIZE to a smaller length (40_limb_buffer_values.md R81). -/
theorem ValueOk.take {L : List Limb} {n : Nat} (h : ValueOk p L) (hn : n ≠ 0) : ValueOk p (L.take n) where
  nonempty := by have := h.nonempty; simp; omega
  bounded := by have := h.bounded; simp; omega
  limbs := fun y hy => h.limbs y (List.mem_of_mem_take hy)

theorem ValueOk.lshift {L : List Nat} {n : Nat} (h : ValueOk p (putLimbs L))
    (hn : L.length + n ≤ p.lmax) : ValueOk p (putLimbs (List.replicate n 0 ++ L)) := by
  refine valueOk_putLimbs (by simp [h.ne_nil]) (by simp; omega) fun x hx => ?_
  rcases List.mem_append.1 hx with hx | hx
  · exact List.eq_of_mem_replicate hx ▸ radix_pos p
  · exact h.mem_lt x hx

theorem valueOk_singleton {x : Nat} (hp : p.Legal) (hx : x < p.radix) : ValueOk p (putLimbs [x]) := by
  exact valueOk_putLimbs (by simp) (one_le_lmax hp) (by simpa using hx)

theorem ValueOk.rshift {L : List Nat} {n : Nat} (h : ValueOk p (putLimbs L)) (hp : p.Legal) :
    ValueOk p (putLimbs (if L.length ≤ n then [0] else L.drop n)) := by
  have hle := h.length_le
  split
  · exact valueOk_singleton hp (radix_pos p)
  · refine valueOk_putLimbs (List.ne_nil_of_length_pos (by simp; omega)) (by simp; omega) fun x hx => ?_
    exact h.mem_lt x (List.mem_of_mem_drop hx)

end Values

theorem Entry.ok_of_live {p : Params} {e : Entry} (h : e.st = .live) :
    e.Ok p ↔ (1 ≤ e.rc ∧ e.rc ≤ p.rcmax) ∧ ValueOk p e.limbs := by simp only [Entry.Ok, h]

theorem Entry.ok_of_perm {p : Params} {e : Entry} (h : e.st = .perm) : e.Ok p ↔ ValueOk p e.limbs := by
  simp only [Entry.Ok, h]

/-- A valid handle holds a value (10_state.md R19, R43). -/
theorem State.DataInv.value {s : State} {h : Nat} (hs : s.DataInv) (hv : s.validHandle h = true) :
    ValueOk s.par (s.entry h).limbs := by
  rcases (State.validHandle_iff.1 hv).2 with hst | hst
  · exact ((Entry.ok_of_live hst).1 (hs.entries h)).2
  · exact (Entry.ok_of_perm hst).1 (hs.entries h)

/-- The limbs read as data from a valid handle are a value. -/
theorem State.DataInv.readable {s : State} {h : Nat} {L : List Nat} (hs : s.DataInv)
    (hv : s.validHandle h = true) (hL : (s.entry h).limbs = putLimbs L) : ValueOk s.par (putLimbs L) :=
  hL ▸ hs.value hv

end Sys2Proof.Machine
end

section
/-! SUPPORT. The effect of each command, by its rule, and what every command can do (`exec_cases`). -/

namespace Sys2Proof.Claims
open Sys2Proof.Machine

theorem Storable.ofLimbs {s : State} {i : Instr} {L : List Nat}
    (h : s.DataInv → ValueOk s.par (putLimbs L)) : Storable s i (putLimbs L) :=
  ⟨h, fun _ _ => none_notMem_putLimbs L⟩

/-- What a valid handle holds can be stored again. -/
theorem Storable.ofEntry {s : State} {i : Instr} {h : Nat} (hv : s.validHandle h = true) :
    Storable s i (s.entry h).limbs := ⟨fun hs => hs.value hv, fun _ hp => hp h⟩

/-- `i` is a rule run by `finishCommand` that takes one of `i`'s faults, or runs in an open context and has
one of the effects of `i`. -/
def HasEffect (s : State) (i : Instr) : Prop :=
  ∃ r, exec i s = finishCommand s r ∧ Answers i (fun t => s.ctx = true ∧ Effect s i t) r

section Commands
variable (s : State)

/-! ### Context, diagnostics, allocation (45_limb_buffer_context.md R101 to R104) -/

theorem effect_ctxclose : HasEffect s .ctxclose :=
  ⟨_, rfl, .context fun hx => .done ⟨hx, .closes rfl 0⟩⟩

theorem effect_query (ha imm : Nat) : HasEffect s (.query ha imm) := by
  have hplain : ∀ c, s.queryPlain imm = .error c → c ∈ commandFaults (.query ha imm) := by
    intro c hc
    unfold State.queryPlain at hc
    split at hc <;> cases hc
    simp [commandFaults]
  refine ⟨_, rfl, .context fun hx => ?_⟩
  split
  · exact .handle fun _ => .done ⟨hx, .reports _⟩
  · split
    · exact .handle fun _ => .done ⟨hx, .reports _⟩
    · exact .need fun _ => .bind hplain fun v _ => .done ⟨hx, .reports v⟩

theorem effect_alloc (skip : Bool) (n : Nat) : HasEffect s (.alloc skip n) := by
  refine ⟨_, rfl, .context fun hx => .need fun hn => .need fun hcap => .alloc fun h t hnext ht => ?_⟩
  simp only [ht]
  refine .done ⟨hx, .allocates h _ _ hnext ⟨fun _ => valueOk_replicate hn hcap fun y hy => ?_,
    fun hk _ hm => ?_⟩⟩
  · cases skip <;> cases hy
    exact radix_pos s.par
  · have hk : skip = false := hk
    subst hk
    exact absurd (List.eq_of_mem_replicate hm) nofun

theorem effect_alloci (imm : Nat) : HasEffect s (.alloci imm) := by
  refine ⟨_, rfl, .context fun hx => .need fun hi => .alloc fun h t hnext ht => ?_⟩
  simp only [ht]
  exact .done ⟨hx, .allocates h _ _ hnext (.ofLimbs fun hs => valueOk_singleton hs.legal hi)⟩

/-! ### BUF (45_limb_buffer_context.md R105, 40_limb_buffer_values.md R91, R92) -/

theorem effect_load (addr len : Nat) : HasEffect s (.load addr len) := by
  refine ⟨_, rfl, .context fun hx => .need fun hl => .need fun _ => .readBytes fun bs =>
    .need fun hcap => .alloc fun h t hnext ht => ?_⟩
  simp only [ht]
  exact .done ⟨hx, .allocates h _ _ hnext (.ofLimbs fun hs => valueOk_digits hs.legal hl hcap)⟩

theorem effect_save (ha addr len : Nat) : HasEffect s (.save ha addr len) :=
  ⟨_, rfl, .context fun hx => .handle fun _ => .need fun _ => .need fun hr => .readable fun _ _ =>
    .need fun _ => .done ⟨hx, .writesBuf addr _ _ (.inl rfl) (by simpa using hr)⟩⟩

theorem hexText_length (bs : List Byte) : (hexText bs).length = 2 * bs.length := by
  simp [hexText, List.length_flatMap, Nat.mul_comm]

theorem effect_hex (ha addr : Nat) : HasEffect s (.hex ha addr) :=
  ⟨_, rfl, .context fun hx => .handle fun _ => .need fun hr => .readable fun _ _ =>
    .done ⟨hx, .writesBuf addr _ _ (.inr rfl) (by simpa [hexText_length] using hr)⟩⟩

/-! ### Ownership (45_limb_buffer_context.md R106 to R108, 40_limb_buffer_values.md R89, R90) -/

theorem effect_release (ha : Nat) : HasEffect s (.release ha) :=
  ⟨_, rfl, .context fun hx => .handle fun hv => .done ⟨hx, .releases ha _ hv⟩⟩

theorem effect_copy (ha : Nat) : HasEffect s (.copy ha) := by
  refine ⟨_, rfl, .context fun hx => .handle fun _ => .need fun hr => ?_⟩
  split
  next hl => exact .done ⟨hx, .shares ha _ hl (hr hl)⟩
  next => exact .done ⟨hx, .reports _⟩

theorem effect_clone (ha : Nat) : HasEffect s (.clone ha) := by
  refine ⟨_, rfl, .context fun hx => .handle fun hv => .alloc fun h t hnext ht => ?_⟩
  simp only [ht]
  exact .done ⟨hx, .allocates h _ _ hnext (.ofEntry hv)⟩

theorem effect_setperm (ha : Nat) : HasEffect s (.setperm ha) := by
  refine ⟨_, rfl, .context fun hx => .handle fun hv => .need fun hp => ?_⟩
  rw [not_or, not_not] at hp
  exact .done ⟨hx, .pins ha _ (receiver_live hv hp.1) hp.2⟩

/-- A released handle with one owner goes back to the pool (10_state.md R39). -/
theorem releaseHandle_setEntry_owned {s : State} {h : Nat} (L : List Limb) (hh : h < s.table.length) :
    (s.setEntry h (owned L)).releaseHandle h =
      { s with free := h :: s.free }.setEntry h Entry.freed := by
  rcases (s.setEntry h (owned L)).releaseHandle_cases h with ⟨hp, -⟩ | ⟨-, -, e⟩ | ⟨-, hr, -⟩
  · simp [State.entry_setEntry _ hh, owned] at hp
  · rw [e]; simp [State.setEntry]
  · simp [State.entry_setEntry _ hh, owned] at hr

theorem lt_of_perm {s : State} {h : Nat} (hp : (s.entry h).st = .perm) : h < s.table.length :=
  State.lt_of_holds (by simp [Entry.holds, hp])

theorem effect_rstperm (ha : Nat) (rel : Bool) : HasEffect s (.rstperm ha rel) := by
  refine ⟨_, rfl, .context fun hx => .handle fun _ => .need fun hb => .need fun hp => ?_⟩
  cases rel
  · exact .done ⟨hx, .unpins ha _ hp hb⟩
  · have hfree := releaseHandle_setEntry_owned (s.entry ha).limbs (lt_of_perm hp)
    simp only [owned] at hfree
    simp only [if_true, hfree]
    exact .done ⟨hx, .frees ha _ hp hb⟩

/-! ### Structure and inspection (40_limb_buffer_values.md R81 to R88) -/

theorem effect_resize (ha : Nat) (skip : Bool) (n : Nat) : HasEffect s (.resize ha skip n) := by
  refine ⟨_, rfl, .context fun hx => .receiver fun hv hp hr => .need fun hn => .need fun hcap =>
    .done ⟨hx, .rewrites ha _ _ hv hp hr ⟨fun hs => ?_, fun hk hd => ?_⟩⟩⟩
  · split
    · refine (hs.value hv).append_replicate hcap ‹_› fun y hy => ?_
      cases skip <;> cases hy
      exact radix_pos s.par
    · exact (hs.value hv).take hn
  · have hk : skip = false := hk
    subst hk
    split
    · simp [hd ha]
    · exact fun hm => hd ha (List.mem_of_mem_take hm)

theorem effect_trim (ha : Nat) : HasEffect s (.trim ha) :=
  ⟨_, rfl, .context fun hx => .receiver fun hv hp hr => .readable fun _ hL =>
    .done ⟨hx, .rewrites ha _ _ hv hp hr
      (.ofLimbs fun hs => (hs.readable hv hL).trimmed_le hs.legal le_rfl)⟩⟩

theorem effect_lshift (ha n : Nat) : HasEffect s (.lshift ha n) :=
  ⟨_, rfl, .context fun hx => .receiver fun hv hp hr => .readable fun _ hL => .need fun hcap =>
    .done ⟨hx, .rewrites ha _ _ hv hp hr (.ofLimbs fun hs => (hs.readable hv hL).lshift hcap)⟩⟩

theorem effect_rshift (ha n : Nat) : HasEffect s (.rshift ha n) :=
  ⟨_, rfl, .context fun hx => .receiver fun hv hp hr => .readable fun _ hL =>
    .done ⟨hx, .rewrites ha _ _ hv hp hr (.ofLimbs fun hs => (hs.readable hv hL).rshift hs.legal)⟩⟩

theorem effect_iszero (ha : Nat) : HasEffect s (.iszero ha) := by
  refine ⟨_, rfl, .context fun hx => ?_⟩
  split
  · exact .done ⟨hx, .reports 1⟩
  · exact .handle fun _ => .readable fun _ _ => .done ⟨hx, .reports _⟩

theorem effect_bitset (ha imm : Nat) : HasEffect s (.bitset ha imm) :=
  ⟨_, rfl, .context fun hx => .handle fun _ => .need fun _ => .readable fun _ _ =>
    .done ⟨hx, .reports _⟩⟩

theorem effect_bitcount (ha : Nat) : HasEffect s (.bitcount ha) :=
  ⟨_, rfl, .context fun hx => .handle fun _ => .readable fun _ _ => .done ⟨hx, .reports _⟩⟩

theorem effect_cmp (ha hb : Nat) : HasEffect s (.cmp ha hb) :=
  ⟨_, rfl, .context fun hx => .handle fun _ => .handle fun _ => .readable fun _ _ =>
    .readable fun _ _ => .done ⟨hx, .reports _⟩⟩

/-! ### Arithmetic (41_modular_adder.md R93 to 44_knuth_divider.md R98) -/

theorem effect_add (ha hb : Nat) : HasEffect s (.add ha hb) :=
  ⟨_, rfl, .context fun hx => .receiver fun hv hp hr => .consumed fun hw hne =>
    .readable fun _ hA => .readable fun _ hB => .need fun hcap =>
      .done ⟨hx, .consumes ha hb _ s.neg _ hv hp hr (.ofLimbs fun hs =>
        (hs.readable hv hA).trimmed_add (hs.readable hw hB) hs.legal hcap) hw hne fun _ => rfl⟩⟩

theorem effect_sub (ha hb : Nat) : HasEffect s (.sub ha hb) :=
  ⟨_, rfl, .context fun hx => .receiver fun hv hp hr => .consumed fun hw hne =>
    .readable fun _ hA => .readable fun _ hB =>
      .done ⟨hx, .consumes ha hb _ _ _ hv hp hr (.ofLimbs fun hs =>
        (hs.readable hv hA).trimmed_sub (hs.readable hw hB) hs.legal) hw hne fun h => absurd rfl h⟩⟩

theorem effect_mul (ha hb : Nat) : HasEffect s (.mul ha hb) :=
  ⟨_, rfl, .context fun hx => .receiver fun hv hp hr => .consumed fun hw hne =>
    .readable fun _ hA => .readable fun _ hB => .need fun hcap =>
      .done ⟨hx, .consumes ha hb _ s.neg _ hv hp hr (.ofLimbs fun hs =>
        (hs.readable hv hA).trimmed_mul (hs.readable hw hB) hs.legal hcap) hw hne fun _ => rfl⟩⟩

theorem effect_imul (ha imm : Nat) : HasEffect s (.imul ha imm) :=
  ⟨_, rfl, .context fun hx => .receiver fun hv hp hr => .need fun hi => .readable fun _ hL =>
    .need fun hcap => .done ⟨hx, .rewrites ha _ _ hv hp hr
      (.ofLimbs fun hs => (hs.readable hv hL).trimmed_imul hi hs.legal hcap)⟩⟩

/-- A receiver that DIV.M leaves untouched is rewritten with what it holds (44_knuth_divider.md R98). -/
theorem setValue_self (s : State) (h : Nat) : s.setValue h (s.entry h).limbs = s := by
  have : s.table.set h (s.entry h) = s.table := by
    by_cases hh : h < s.table.length
    · simp [State.entry, List.getD, hh]
    · exact List.set_eq_of_length_le (Nat.le_of_not_lt hh)
  rw [State.setValue, State.setEntry, this]

theorem effect_div (ha hb : Nat) (mod : Bool) : HasEffect s (.div ha hb mod) := by
  refine ⟨_, rfl, .context fun hx => .receiver fun hv hp hr => .consumed fun hw hne =>
    .readable fun La hA => .readable fun Lv _ => .need fun _ => .done ⟨hx, ?_⟩⟩
  have result : ∀ v, v ≤ val s.par.radix La →
      Effect s (.div ha hb mod) ((s.result ha v).releaseHandle hb) := fun v hle =>
    .consumes ha hb _ s.neg _ hv hp hr
      (.ofLimbs fun hs => (hs.readable hv hA).trimmed_le hs.legal hle) hw hne fun _ => rfl
  cases mod
  · exact result _ (Nat.div_le_self _ _)
  · by_cases hlt : cmpLex La Lv = .lt
    · have untouched := Effect.consumes (i := .div ha hb true) ha hb _ s.neg (busNat ha) hv hp hr
        (.ofEntry hv) hw hne fun _ => rfl
      simpa only [setValue_self, hlt, if_true] using untouched
    · simpa only [hlt, if_true, if_false] using result _ (Nat.mod_le _ _)

theorem effect_idiv (ha imm : Nat) : HasEffect s (.idiv ha imm) :=
  ⟨_, rfl, .context fun hx => .receiver fun hv hp hr => .need fun _ => .readable fun _ hL =>
    .need fun _ => .done ⟨hx, .rewrites ha _ _ hv hp hr
      (.ofLimbs fun hs => (hs.readable hv hL).trimmed_le hs.legal (Nat.div_le_self _ _))⟩⟩

/-! ### The modulus slots (46_barrett_reduction_engine.md R109 to R112) -/

theorem effect_setmod (ha slot : Nat) : HasEffect s (.setmod ha slot) := by
  refine ⟨_, rfl, .context fun hx => .slot fun j => .handle fun _ => .need fun hp => .need fun _ =>
    .readable fun L hL => .need fun htop => .need fun hcap => .done ⟨hx, ?_⟩⟩
  simp only [not_or, not_not] at hp
  exact .setsModulus ha j L _ hp.1 hp.2 hL htop hcap

theorem effect_rstmod (slot : Nat) : HasEffect s (.rstmod slot) := by
  refine ⟨_, rfl, .context fun hx => .slot fun j => .modulus fun m hm => .need fun hp =>
    .done ⟨hx, ?_⟩⟩
  have hfree := releaseHandle_setEntry_owned (s.entry m.modh).limbs (lt_of_perm hp)
  simp only [owned] at hfree
  simp only [hfree]
  exact .clearsModulus j m _ hm hp

theorem effect_selmod (slot : Nat) : HasEffect s (.selmod slot) :=
  ⟨_, rfl, .context fun hx => .slot fun j => .done ⟨hx, .selects j _⟩⟩

theorem effect_barrett (ha : Nat) : HasEffect s (.barrett ha) :=
  ⟨_, rfl, .context fun hx => .receiver fun hv hp hr => .modulus fun _ _ => .readable fun _ hL =>
    .readable fun _ _ => .done ⟨hx, .rewrites ha _ _ hv hp hr
      (.ofLimbs fun hs => (hs.readable hv hL).trimmed_le hs.legal (Nat.mod_le _ _))⟩⟩

end Commands

theorem hasEffect (s : State) {i : Instr} (hi : i ≠ .ctxopen) : HasEffect s i := by
  cases i with
  | ctxopen => exact absurd rfl hi
  | ctxclose => exact effect_ctxclose s
  | query ha imm => exact effect_query s ha imm
  | alloc skip n => exact effect_alloc s skip n
  | alloci imm => exact effect_alloci s imm
  | load addr len => exact effect_load s addr len
  | save ha addr len => exact effect_save s ha addr len
  | hex ha addr => exact effect_hex s ha addr
  | release ha => exact effect_release s ha
  | copy ha => exact effect_copy s ha
  | clone ha => exact effect_clone s ha
  | setperm ha => exact effect_setperm s ha
  | rstperm ha rel => exact effect_rstperm s ha rel
  | resize ha skip n => exact effect_resize s ha skip n
  | trim ha => exact effect_trim s ha
  | lshift ha n => exact effect_lshift s ha n
  | rshift ha n => exact effect_rshift s ha n
  | iszero ha => exact effect_iszero s ha
  | bitset ha imm => exact effect_bitset s ha imm
  | bitcount ha => exact effect_bitcount s ha
  | cmp ha hb => exact effect_cmp s ha hb
  | add ha hb => exact effect_add s ha hb
  | sub ha hb => exact effect_sub s ha hb
  | mul ha hb => exact effect_mul s ha hb
  | imul ha imm => exact effect_imul s ha imm
  | div ha hb mod => exact effect_div s ha hb mod
  | idiv ha imm => exact effect_idiv s ha imm
  | setmod ha slot => exact effect_setmod s ha slot
  | rstmod slot => exact effect_rstmod s slot
  | selmod slot => exact effect_selmod s slot
  | barrett ha => exact effect_barrett s ha

/-- CTXOPEN opens an empty context or faults with CTX_STATE (45_limb_buffer_context.md R100). -/
theorem exec_ctxopen (s : State) :
    exec .ctxopen s = .next (if s.ctx = false then { s.clearContext with ctx := true }.setRes 0
      else s.raise .ctxState) := by
  simp only [exec, execCtxopen, Machine.need]
  split <;> rfl

/-- Everything a command can do: take one of its faults, open a context, or run in an open one. -/
theorem exec_cases {i : Instr} {s t : State} (h : exec i s = .next t) :
    (∃ c, c ∈ commandFaults i ∧ t = s.raise c) ∨
    (i = .ctxopen ∧ s.ctx = false ∧ t = { s.clearContext with ctx := true }.setRes 0) ∨
    (s.ctx = true ∧ Effect s i t) := by
  by_cases hi : i = .ctxopen
  · subst hi
    rw [exec_ctxopen] at h
    cases h
    split
    · exact .inr (.inl ⟨rfl, ‹_›, rfl⟩)
    · exact .inl ⟨.ctxState, by simp [commandFaults], rfl⟩
  · obtain ⟨r, he, hr⟩ := hasEffect s hi
    rw [he, finishCommand_eq_next] at h
    rcases h with rfl | ⟨c, rfl, rfl⟩
    · exact .inr (.inr hr)
    · exact .inl ⟨c, hr, rfl⟩

end Sys2Proof.Claims
end

section
/-! SUPPORT. What each operation on the state does to the invariants of 10_state.md R43, and O53. The slots
are the one coupling: an entry may change when no valid slot has its handle as modulus. -/

namespace Sys2Proof.Machine

section Operations
variable {s : State}

theorem Entry.holds_of_live {e : Entry} (h : e.st = .live) : e.holds = true := by simp [Entry.holds, h]

theorem Entry.holds_of_perm {e : Entry} (h : e.st = .perm) : e.holds = true := by simp [Entry.holds, h]

theorem Entry.ne_free_of_holds {e : Entry} (h : e.holds = true) : e.st ≠ .free := fun hc => by
  simp [Entry.holds, hc] at h

theorem State.holds_of_valid {h : Nat} (hv : s.validHandle h = true) : (s.entry h).holds = true := by
  rw [State.validHandle, Bool.and_eq_true] at hv
  exact hv.2

/-- The invariants read the parameters, the data and CTX, and CUR only while there is no context. -/
theorem State.DataInv.congr {t : State} (hs : s.DataInv)
    (hcur : s.ctx = false → t.cur = s.cur := by exact fun _ => rfl) (hpar : t.par = s.par := by rfl)
    (htable : t.table = s.table := by rfl) (hfree : t.free = s.free := by rfl)
    (hms : t.ms = s.ms := by rfl) (hctx : t.ctx = s.ctx := by rfl) (hbuf : t.buf = s.buf := by rfl) :
    t.DataInv := by
  cases t
  cases hpar; cases htable; cases hfree; cases hms; cases hctx; cases hbuf
  exact ⟨hs.legal, hs.tableLength, hs.entries, hs.freeNodup, hs.freeExact, hs.slots, hs.slotsDiffer,
    fun hx => by
      obtain ⟨hunused, hfl, hslots, hz⟩ := hs.noContext hx
      exact ⟨hunused, hfl, hslots, (hcur hx).trans hz⟩,
    hs.bufCanonical, hs.bufInRange⟩

theorem State.DataInv.setRes (hs : s.DataInv) (v : BusWord) : (s.setRes v).DataInv :=
  hs.congr

/-- A write to BUF that keeps its form and its range. -/
theorem State.DataInv.withBuf {m : List Host.Cell} (hs : s.DataInv) (hwf : Memory.wf m = true)
    (hr : ∀ c ∈ m, c.1 < s.par.bufsz) : { s with buf := m }.DataInv :=
  ⟨hs.legal, hs.tableLength, hs.entries, hs.freeNodup, hs.freeExact, hs.slots, hs.slotsDiffer, hs.noContext,
    hwf, hr⟩

/-- A state with an empty table, free list and slots is sound, whether its context is open or not. -/
theorem dataInv_of_cleared (hlegal : s.par.Legal) (htable : s.table = List.replicate s.par.nh Entry.unused)
    (hfree : s.free = []) (hms : s.ms = Slots.empty) (hcur : s.cur = 0) (hwf : Memory.wf s.buf = true)
    (hr : ∀ c ∈ s.buf, c.1 < s.par.bufsz) : s.DataInv := by
  have hentry : ∀ h, s.entry h = Entry.unused := fun h =>
    (congrArg (·.getD h Entry.unused) htable).trans (s.entry_clearContext h)
  exact {
    legal := hlegal
    tableLength := by simp [htable]
    entries := fun h => by rw [hentry]; rfl
    freeNodup := by simp [hfree]
    freeExact := fun h => by simp [hfree, hentry, Entry.unused]
    slots := fun j m hm => by simp [hms] at hm
    slotsDiffer := fun i j m n hm _ => by simp [hms] at hm
    noContext := fun _ => ⟨fun h => by rw [hentry]; rfl, hfree, hms, hcur⟩
    bufCanonical := hwf
    bufInRange := hr }

/-- ClearContext (10_state.md R45). -/
theorem State.DataInv.clearContext (hs : s.DataInv) (b : Bool) (v : BusWord) :
    ({ s.clearContext with ctx := b }.setRes v).DataInv :=
  dataInv_of_cleared hs.legal rfl rfl rfl rfl hs.bufCanonical hs.bufInRange

/-- The modulus handle of a valid slot is PERM (10_state.md R43 invariant 3). -/
theorem State.DataInv.not_bound {h : Nat} (hs : s.DataInv) (hp : (s.entry h).st ≠ .perm) :
    s.ms.bound h = false := by
  rw [Bool.eq_false_iff, Ne, Slots.bound_iff]
  rintro ⟨j, m, hm, rfl⟩
  exact hp (hs.slots j m hm).1

/-- FL holds no handle that is in use. -/
theorem State.DataInv.notMem_free {h : Nat} (hs : s.DataInv) (hst : (s.entry h).st ≠ .free) : h ∉ s.free :=
  fun hm => hst ((hs.freeExact h).1 hm)

theorem modh_ne_of_not_bound {h : Nat} {j : Fin 3} {m : ModSlot} (hb : s.ms.bound h = false)
    (hm : s.ms.get j = some m) : m.modh ≠ h := fun he =>
  absurd (Slots.bound_iff.2 ⟨j, m, hm, he⟩) (by simp [hb])

/-- The entry of a handle that is no modulus is written, and FL with it. -/
theorem State.DataInv.setEntry {h : Nat} {e : Entry} {fl : List Nat} (hs : s.DataInv) (hx : s.ctx = true)
    (hh : h < s.table.length) (hok : e.Ok s.par) (hb : s.ms.bound h = false) (hnd : fl.Nodup)
    (hfl : ∀ x, x ∈ fl ↔ if x = h then e.st = .free else x ∈ s.free) :
    ({ s with free := fl }.setEntry h e).DataInv := by
  have hentry := State.entry_setEntry (s := { s with free := fl }) e hh
  exact {
    legal := hs.legal
    tableLength := by simpa using hs.tableLength
    entries := fun x => by
      rw [hentry]
      split
      · exact hok
      · exact hs.entries x
    freeNodup := hnd
    freeExact := fun x => by
      rw [hentry]
      refine (hfl x).trans ?_
      split
      · rfl
      · exact hs.freeExact x
    slots := fun j m hm => by
      have hslot := hs.slots j m hm
      have hsame : ({ s with free := fl }.setEntry h e).entry m.modh = s.entry m.modh := by
        rw [hentry, if_neg (modh_ne_of_not_bound hb hm)]; rfl
      unfold SlotOk
      rw [hsame]
      exact hslot
    slotsDiffer := hs.slotsDiffer
    noContext := fun hc => absurd (hx.symm.trans hc) nofun
    bufCanonical := hs.bufCanonical
    bufInRange := hs.bufInRange }

theorem State.lt_of_ne_unused {h : Nat} (hst : (s.entry h).st ≠ .unused) : h < s.table.length := by
  by_contra hc
  exact hst (by rw [State.entry_of_le (Nat.le_of_not_lt hc)]; rfl)

/-- An entry in use gets new contents and stays in use. -/
theorem State.DataInv.rewrite {h : Nat} {e : Entry} (hs : s.DataInv) (hx : s.ctx = true)
    (hold : (s.entry h).holds = true) (hb : s.ms.bound h = false) (hok : e.Ok s.par) (hnew : e.st ≠ .free) :
    (s.setEntry h e).DataInv := by
  have hst := Entry.ne_free_of_holds hold
  refine hs.setEntry hx (State.lt_of_holds hold) hok hb hs.freeNodup fun x => ?_
  split
  · subst_vars; simp [hnew, hs.notMem_free hst]
  · rfl

/-- An entry in use goes back to the pool (10_state.md R39). -/
theorem State.DataInv.freed {h : Nat} (hs : s.DataInv) (hx : s.ctx = true)
    (hold : (s.entry h).holds = true) (hb : s.ms.bound h = false) :
    ({ s with free := h :: s.free }.setEntry h Entry.freed).DataInv := by
  have hst := Entry.ne_free_of_holds hold
  refine hs.setEntry hx (State.lt_of_holds hold) rfl hb
    (List.nodup_cons.2 ⟨hs.notMem_free hst, hs.freeNodup⟩) fun x => ?_
  by_cases hxh : x = h <;> simp [hxh, Entry.freed]

/-- Release of a valid handle (10_state.md R39). -/
theorem State.DataInv.releaseHandle {h : Nat} (hs : s.DataInv) (hx : s.ctx = true)
    (hv : (s.entry h).holds = true) : (s.releaseHandle h).DataInv := by
  rcases s.releaseHandle_cases h with ⟨-, e⟩ | ⟨hp, -, e⟩ | ⟨hp, hr, e⟩ <;> rw [e]
  · exact hs
  · exact hs.freed hx hv (hs.not_bound hp)
  · have hl : (s.entry h).st = .live := by simpa [Entry.holds, hp] using hv
    obtain ⟨hrc, hval⟩ := (Entry.ok_of_live hl).1 (hs.entries h)
    exact hs.rewrite hx hv (hs.not_bound hp) ((Entry.ok_of_live (by exact hl)).2 ⟨by dsimp only; omega, hval⟩)
      (by simp [hl])

/-- A slot is invalidated (46_barrett_reduction_engine.md R110). -/
theorem State.DataInv.clearSlot (hs : s.DataInv) (hx : s.ctx = true) (j : Fin 3) :
    { s with ms := s.ms.set j none }.DataInv := by
  have hget : ∀ k m, (s.ms.set j none).get k = some m → s.ms.get k = some m := fun k m hm => by
    rw [Slots.get_set] at hm
    split at hm
    · cases hm
    · exact hm
  exact {
    legal := hs.legal
    tableLength := hs.tableLength
    entries := hs.entries
    freeNodup := hs.freeNodup
    freeExact := hs.freeExact
    slots := fun k m hm => hs.slots k m (hget k m hm)
    slotsDiffer := fun k l m n hm hn => hs.slotsDiffer k l m n (hget k m hm) (hget l n hn)
    noContext := fun hc => absurd (hx.symm.trans hc) nofun
    bufCanonical := hs.bufCanonical
    bufInRange := hs.bufInRange }

/-- A slot gets a modulus that no slot has (46_barrett_reduction_engine.md R109). -/
theorem State.DataInv.fillSlot {m : ModSlot} (hs : s.DataInv) (hx : s.ctx = true) (j : Fin 3)
    (hm : SlotOk s m) (hb : s.ms.bound m.modh = false) : { s with ms := s.ms.set j (some m) }.DataInv where
  legal := hs.legal
  tableLength := hs.tableLength
  entries := hs.entries
  freeNodup := hs.freeNodup
  freeExact := hs.freeExact
  slots := fun k n hn => by
    rw [Slots.get_set] at hn
    split at hn
    · cases hn; exact hm
    · exact hs.slots k n hn
  slotsDiffer := fun k l n q hn hq he => by
    rw [Slots.get_set] at hn hq
    split at hn <;> split at hq
    · subst_vars; rfl
    · cases hn; exact absurd he.symm (modh_ne_of_not_bound hb hq)
    · cases hq; exact absurd he (modh_ne_of_not_bound hb hn)
    · exact hs.slotsDiffer k l n q hn hq he
  noContext := fun hc => absurd (hx.symm.trans hc) nofun
  bufCanonical := hs.bufCanonical
  bufInRange := hs.bufInRange

end Operations

end Sys2Proof.Machine

namespace Sys2Proof.Claims
open Sys2Proof.Machine

/-- A value with one owner, whatever RCMAX is (00_scope.md R10). -/
theorem ok_owned {p : Params} {L : List Limb} (hp : p.Legal) (hL : ValueOk p L) : (owned L).Ok p := by
  obtain ⟨-, -, -, -, hrc⟩ := hp
  exact ⟨⟨le_rfl, Nat.le_of_succ_le hrc⟩, hL⟩

/-- The handle AllocHandle takes is the top of FL, or is UNUSED with FL empty (10_state.md R38). -/
theorem dataInv_allocate {s : State} {h : Nat} {L : List Limb} (hs : s.DataInv) (hx : s.ctx = true)
    (hn : NextHandle s h) (hL : ValueOk s.par L) :
    ({ s with free := s.free.tail }.setEntry h (owned L)).DataInv := by
  have hok := ok_owned hs.legal hL
  cases hf : s.free with
  | nil =>
    simp only [NextHandle, hf] at hn
    obtain ⟨hlt, hst, -⟩ := hn
    refine hs.setEntry hx (hs.tableLength ▸ hlt) hok (hs.not_bound (by simp [hst])) List.nodup_nil fun x => ?_
    simp [hf, owned]
  | cons y fl =>
    simp only [NextHandle, hf] at hn
    subst hn
    have hst : (s.entry h).st = .free := (hs.freeExact h).1 (by simp [hf])
    have hnd := hs.freeNodup
    rw [hf, List.nodup_cons] at hnd
    refine hs.setEntry hx (State.lt_of_ne_unused (by simp [hst])) hok (hs.not_bound (by simp [hst]))
      hnd.2 fun x => ?_
    by_cases hxh : x = h
    · simp [hxh, hnd.1, owned]
    · simp [hxh, hf]

/-- A receiver is rewritten with a value (10_state.md R40). -/
theorem dataInv_setValue {s : State} {h : Nat} {L : List Limb} (hs : s.DataInv) (hx : s.ctx = true)
    (hv : s.validHandle h = true) (hp : (s.entry h).st ≠ .perm) (hL : ValueOk s.par L) :
    (s.setValue h L).DataInv := by
  have hl := receiver_live hv hp
  obtain ⟨hrc, -⟩ := (Entry.ok_of_live hl).1 (hs.entries h)
  exact hs.rewrite hx (State.holds_of_valid hv) (hs.not_bound hp) ((Entry.ok_of_live (by exact hl)).2 ⟨hrc, hL⟩)
    (by simp [hl])

/-- COPY adds an owner below RCMAX (40_limb_buffer_values.md R89). -/
theorem dataInv_share {s : State} {h : Nat} (hs : s.DataInv) (hx : s.ctx = true)
    (hl : (s.entry h).st = .live) (hr : (s.entry h).rc ≠ s.par.rcmax) :
    (s.setEntry h { s.entry h with rc := (s.entry h).rc + 1 }).DataInv := by
  obtain ⟨⟨-, hrc⟩, hval⟩ := (Entry.ok_of_live hl).1 (hs.entries h)
  exact hs.rewrite hx (Entry.holds_of_live hl) (hs.not_bound (by simp [hl]))
    ((Entry.ok_of_live (by exact hl)).2 ⟨⟨Nat.le_add_left 1 _, Nat.lt_of_le_of_ne hrc hr⟩, hval⟩) (by simp [hl])

/-- A LIVE value becomes PERM (45_limb_buffer_context.md R107). -/
theorem dataInv_pin {s : State} {h : Nat} (hs : s.DataInv) (hx : s.ctx = true)
    (hl : (s.entry h).st = .live) : (s.setEntry h { s.entry h with st := .perm }).DataInv := by
  obtain ⟨-, hval⟩ := (Entry.ok_of_live hl).1 (hs.entries h)
  exact hs.rewrite hx (Entry.holds_of_live hl) (hs.not_bound (by simp [hl])) ((Entry.ok_of_perm rfl).2 hval)
    nofun

/-- A PERM value that is no modulus becomes LIVE (45_limb_buffer_context.md R108). -/
theorem dataInv_unpin {s : State} {h : Nat} (hs : s.DataInv) (hx : s.ctx = true)
    (hp : (s.entry h).st = .perm) (hb : s.ms.bound h = false) :
    (s.setEntry h (owned (s.entry h).limbs)).DataInv :=
  hs.rewrite hx (Entry.holds_of_perm hp) hb (ok_owned hs.legal ((Entry.ok_of_perm hp).1 (hs.entries h)))
    nofun

/-- A LIVE value becomes the modulus of a slot (46_barrett_reduction_engine.md R109). -/
theorem dataInv_setModulus {s : State} {h : Nat} {L : List Nat} (hs : s.DataInv) (hx : s.ctx = true)
    (j : Fin 3) (hl : (s.entry h).st = .live) (hL : (s.entry h).limbs = putLimbs L) (htop : topLimb L ≠ 0)
    (hcap : L.length + 2 ≤ s.par.lmax) :
    { s.setEntry h { s.entry h with st := .perm } with
      ms := s.ms.set j (some (slotFor s.par.radix h L)) }.DataInv := by
  have hentry : (s.setEntry h { s.entry h with st := .perm }).entry h =
      { s.entry h with st := .perm } := by
    rw [State.entry_setEntry _ (State.lt_of_holds (Entry.holds_of_live hl)), if_pos rfl]
  have hslot : SlotOk (s.setEntry h { s.entry h with st := .perm }) (slotFor s.par.radix h L) := by
    rw [SlotOk, show (slotFor s.par.radix h L).modh = h from rfl, hentry]
    exact ⟨rfl, L, hL, htop, hcap, rfl⟩
  exact (dataInv_pin hs hx hl).fillSlot hx j hslot (hs.not_bound (h := h) (by simp [hl]))

/-- A slot is invalidated and its modulus freed: no other slot has that modulus
(46_barrett_reduction_engine.md R110). -/
theorem dataInv_clearModulus {s : State} {j : Fin 3} {m : ModSlot} (hs : s.DataInv) (hx : s.ctx = true)
    (hm : s.ms.get j = some m) :
    { { s with free := m.modh :: s.free }.setEntry m.modh Entry.freed with
      ms := s.ms.set j none }.DataInv := by
  have hb : (s.ms.set j none).bound m.modh = false := by
    rw [Bool.eq_false_iff, Ne, Slots.bound_iff]
    rintro ⟨k, n, hn, he⟩
    rw [Slots.get_set] at hn
    split at hn
    · cases hn
    · exact ‹¬ k = j› (hs.slotsDiffer k j n m hn hm he)
  have hholds : (s.entry m.modh).holds = true := Entry.holds_of_perm (hs.slots j m hm).1
  exact (hs.clearSlot hx j).freed hx hholds hb

/-- Every effect keeps the invariants of 10_state.md R43. -/
theorem Effect.dataInv {s t : State} {i : Instr} (h : Effect s i t) (hx : s.ctx = true) (hs : s.DataInv) :
    t.DataInv := by
  cases h with
  | closes _ v => exact hs.clearContext false v
  | reports v => exact hs.setRes v
  | selects j v => exact hs.congr (fun hc => absurd (hx.symm.trans hc) nofun)
  | writesBuf a bs v _ hr =>
    exact (hs.withBuf (wf_memSetList a bs hs.bufCanonical) (memSetList_inRange hs.bufInRange hr)).setRes v
  | allocates h L v hn hL => exact (dataInv_allocate hs hx (hn hs.tableLength) (hL.value hs)).setRes v
  | rewrites h L v hv hp _ hL => exact (dataInv_setValue hs hx hv hp (hL.value hs)).setRes v
  | consumes ha hb L n v hv hp _ hL hw hne _ =>
    have hset := dataInv_setValue hs hx hv hp (hL.value hs)
    have hsame : (s.setValue ha L).entry hb = s.entry hb := by
      rw [State.entry_setValue _ (lt_of_valid hv), if_neg hne]
    exact State.DataInv.releaseHandle hset.congr hx
      (hsame ▸ State.holds_of_valid hw)
  | releases h v hv => exact (hs.releaseHandle hx (State.holds_of_valid hv)).setRes v
  | shares h v hl hr => exact (dataInv_share hs hx hl hr).setRes v
  | pins h v hl _ => exact (dataInv_pin hs hx hl).setRes v
  | unpins h v hp hb => exact (dataInv_unpin hs hx hp hb).setRes v
  | frees h v hp hb => exact (hs.freed hx (Entry.holds_of_perm hp) hb).setRes v
  | setsModulus h j L v hl _ hL htop hcap =>
    exact (dataInv_setModulus hs hx j hl hL htop hcap).setRes v
  | clearsModulus j m v hm _ => exact (dataInv_clearModulus hs hx hm).setRes v

/-- Settles O53, by the effects of the commands. -/
theorem commandsKeepDataInv : Obligations.CommandsKeepDataInv := by
  unfold Obligations.CommandsKeepDataInv
  intro i s t hs h
  rcases exec_cases h with ⟨c, -, rfl⟩ | ⟨-, -, rfl⟩ | ⟨hx, he⟩
  · exact hs.congr
  · exact hs.clearContext true 0
  · exact he.dataInv hx hs

end Sys2Proof.Claims
end

section
/-! SUPPORT. What no command touches, who writes NEG, BUF and CTX, and where `⊥` comes from: O60, O56, O57,
O55, by the effects of the commands. -/

namespace Sys2Proof.Claims
open Sys2Proof.Machine

/-! ### What no command touches -/

theorem releaseHandle_eq (s : State) (h : Nat) :
    ∃ T F, s.releaseHandle h = { s with table := T, free := F } := by
  rcases s.releaseHandle_cases h with ⟨-, e⟩ | ⟨-, -, e⟩ | ⟨-, -, e⟩ <;> exact ⟨_, _, e⟩

theorem Effect.frame {s t : State} {i : Instr} (h : Effect s i t) :
    { t with table := s.table, free := s.free, ms := s.ms, cur := s.cur, ctx := s.ctx, res := s.res,
             neg := s.neg, buf := s.buf } = s := by
  cases h with
  | consumes ha hb L n v =>
    obtain ⟨T, F, e⟩ := releaseHandle_eq ({ s.setValue ha L with neg := n }.setRes v) hb
    rw [e]; rfl
  | releases h v =>
    obtain ⟨T, F, e⟩ := releaseHandle_eq s h
    rw [e]; rfl
  | _ => rfl

/-- Only a fault writes HALTED, FCODE and FCMD (60_exceptions.md R118). -/
theorem Effect.faultRegisters {s t : State} {i : Instr} (h : Effect s i t) :
    t.halted = s.halted ∧ t.fcode = s.fcode ∧ t.fcmd = s.fcmd :=
  ⟨(congrArg State.halted h.frame :), (congrArg State.fcode h.frame :), (congrArg State.fcmd h.frame :)⟩

theorem exec_frame {s t : State} {i : Instr} (h : exec i s = .next t) :
    { t with table := s.table, free := s.free, ms := s.ms, cur := s.cur, ctx := s.ctx, res := s.res,
             neg := s.neg, buf := s.buf, halted := s.halted, fcode := s.fcode, fcmd := s.fcmd } = s := by
  rcases exec_cases h with ⟨c, -, rfl⟩ | ⟨-, -, rfl⟩ | ⟨-, he⟩
  · rfl
  · rfl
  · obtain ⟨hhalted, hcode, hword⟩ := he.faultRegisters
    rw [← hhalted, ← hcode, ← hword]
    exact he.frame

/-- Settles O60: a command answers, and writes none of these fields. -/
theorem everyCommandAnswers : Obligations.EveryCommandAnswers := by
  unfold Obligations.EveryCommandAnswers
  intro i s
  obtain ⟨t, h⟩ := exec_next i s
  have hf := exec_frame h
  exact ⟨t, h, (congrArg State.par hf :), (congrArg State.cmdLo hf :), (congrArg State.cmdHi hf :),
    (congrArg State.busy hf :), (congrArg State.pconf hf :), (congrArg State.script hf :),
    (congrArg State.reads hf :), (congrArg State.draws hf :)⟩

/-! ### The writers of NEG, BUF and CTX -/

@[simp] theorem neg_releaseHandle (s : State) (h : Nat) : (s.releaseHandle h).neg = s.neg :=
  (congrArg State.neg (s.releaseHandle_frame h) :)

@[simp] theorem buf_releaseHandle (s : State) (h : Nat) : (s.releaseHandle h).buf = s.buf :=
  (congrArg State.buf (s.releaseHandle_frame h) :)

@[simp] theorem ctx_releaseHandle (s : State) (h : Nat) : (s.releaseHandle h).ctx = s.ctx :=
  (congrArg State.ctx (s.releaseHandle_frame h) :)

theorem Effect.neg {s t : State} {i : Instr} (h : Effect s i t) (hi : i.opcode ≠ .sub) : t.neg = s.neg := by
  cases h with
  | consumes ha hb L n v _ _ _ _ _ _ hneg => simpa using hneg hi
  | releases => simp
  | _ => rfl

theorem Effect.buf {s t : State} {i : Instr} (h : Effect s i t) (h1 : i.opcode ≠ .save)
    (h2 : i.opcode ≠ .hex) : t.buf = s.buf := by
  cases h with
  | writesBuf a bs v hi => rcases hi with hi | hi <;> contradiction
  | consumes => simp
  | releases => simp
  | _ => rfl

theorem Effect.ctx {s t : State} {i : Instr} (h : Effect s i t) (hi : i ≠ .ctxclose) : t.ctx = s.ctx := by
  cases h with
  | closes hc => contradiction
  | consumes => simp
  | releases => simp
  | _ => rfl

/-- Settles O56: no other effect and no fault writes NEG or BUF. -/
theorem writersOfNegAndBuf : Obligations.WritersOfNegAndBuf := by
  unfold Obligations.WritersOfNegAndBuf
  intro i s t h
  rcases exec_cases h with ⟨c, -, rfl⟩ | ⟨-, -, rfl⟩ | ⟨-, he⟩
  · exact ⟨fun _ => rfl, fun _ _ _ => rfl⟩
  · exact ⟨fun _ => rfl, fun _ _ _ => rfl⟩
  · exact ⟨he.neg, fun h1 h2 a => congrArg (memGet · a) (he.buf h1 h2)⟩

/-- With no context every command but CTXOPEN ends at its first check (10_state.md R27). -/
theorem exec_of_no_context {i : Instr} {s : State} (hi : i ≠ .ctxopen) (hx : s.ctx = false) :
    exec i s = .next (s.raise .nullContext) := by
  have hrule : ∃ k, exec i s = finishCommand s (s.needContext >>= k) := by
    cases i with
    | ctxopen => exact absurd rfl hi
    | _ => exact ⟨_, rfl⟩
  obtain ⟨k, e⟩ := hrule
  rw [e, State.needContext, need_neg _ (by simp [hx])]
  rfl

/-- Settles O57: CTXOPEN and CTXCLOSE by their rules, the others by their effects. -/
theorem contextBit : Obligations.ContextBit := by
  unfold Obligations.ContextBit
  refine ⟨rfl, fun s hx => ?_, fun s hx => ?_, fun i s t h1 h2 h => ?_, fun i s hi hx => ?_⟩
  · exact ⟨_, (exec_ctxopen s).trans (by rw [if_pos hx]), rfl⟩
  · refine ⟨{ s.clearContext with ctx := false }.setRes 0, ?_, rfl⟩
    simp [exec, execCtxclose, State.needContext, Machine.need, hx, finishCommand, pure, Except.pure]
  · rcases exec_cases h with ⟨c, -, rfl⟩ | ⟨hi, -, -⟩ | ⟨-, he⟩
    · rfl
    · exact absurd hi h1
    · exact he.ctx h2
  · exact exec_of_no_context hi hx

/-! ### Where `⊥` comes from -/

/-- No entry has a `⊥` limb (10_state.md R21). -/
def Defined (s : State) : Prop := ∀ h, none ∉ (s.entry h).limbs

theorem Defined.setEntry {s : State} {h : Nat} {e : Entry} (hs : Defined s) (he : none ∉ e.limbs) :
    Defined (s.setEntry h e) := fun x => by
  by_cases hh : h < s.table.length
  · rw [State.entry_setEntry e hh]
    split
    · exact he
    · exact hs x
  · rw [State.setEntry, List.set_eq_of_length_le (Nat.le_of_not_lt hh)]
    exact hs x

theorem Defined.releaseHandle {s : State} (h : Nat) (hs : Defined s) : Defined (s.releaseHandle h) := by
  rcases s.releaseHandle_cases h with ⟨-, e⟩ | ⟨-, -, e⟩ | ⟨-, -, e⟩ <;> rw [e]
  · exact hs
  · exact Defined.setEntry (s := { s with free := h :: s.free }) hs nofun
  · exact hs.setEntry (hs h)

theorem Effect.defined {s t : State} {i : Instr} (h : Effect s i t) (hi : skips i = false) (hs : Defined s) :
    Defined t := by
  cases h with
  | closes => exact fun x => s.entry_clearContext x ▸ nofun
  | allocates h L v _ hL =>
    exact Defined.setEntry (s := { s with free := s.free.tail }) hs (hL.defined hi hs)
  | rewrites h L v _ _ _ hL => exact Defined.setEntry hs (hL.defined hi hs)
  | consumes ha hb L n v _ _ _ hL =>
    have hset : Defined (s.setValue ha L) := Defined.setEntry hs (hL.defined hi hs)
    exact Defined.releaseHandle (s := { s.setValue ha L with neg := n }.setRes v) hb hset
  | releases h v => exact hs.releaseHandle h
  | frees h v => exact Defined.setEntry (s := { s with free := h :: s.free }) hs nofun
  | clearsModulus j m v => exact Defined.setEntry (s := { s with free := m.modh :: s.free }) hs nofun
  | shares h => exact Defined.setEntry hs (hs h)
  | pins h => exact Defined.setEntry hs (hs h)
  | unpins h => exact Defined.setEntry hs (hs h)
  | setsModulus h => exact Defined.setEntry hs (hs h)
  | reports => exact hs
  | selects => exact hs
  | writesBuf => exact hs

/-- Settles O55: what a command stores without SKIP holds no `⊥`. -/
theorem onlySkipCreatesPoison : Obligations.OnlySkipCreatesPoison := by
  unfold Obligations.OnlySkipCreatesPoison
  intro i s t hi hs h
  rcases exec_cases h with ⟨c, -, rfl⟩ | ⟨-, -, rfl⟩ | ⟨-, he⟩
  · exact hs
  · exact fun x => s.entry_clearContext x ▸ nofun
  · exact he.defined hi hs

end Sys2Proof.Claims
end

section
/-! SUPPORT. Sound states: reset makes one (O52) and every step keeps it (O54). The data invariants are those
of the commands; what is new is the control bits (10_state.md R31, R32, R36). -/

namespace Sys2Proof.Claims
open Sys2Proof.Machine

/-- Settles O52: after reset there is no data and no fault. -/
theorem resetIsSound : Obligations.ResetIsSound := by
  unfold Obligations.ResetIsSound
  intro p hp
  exact ⟨dataInv_of_cleared hp rfl rfl rfl rfl rfl nofun,
    ⟨⟨nofun, fun hc => absurd rfl hc⟩, fun _ => rfl, nofun, nofun⟩⟩

/-- The host's side is no part of a sound state (log 2). -/
theorem inv_withHost {s : State} (hs : s.Inv) (script : List HostEvent) (reads : List BusWord) (draws : Nat) :
    { s with script := script, reads := reads, draws := draws }.Inv :=
  ⟨hs.data.congr,
    ⟨hs.control.haltedCode, hs.control.noFaultWord, hs.control.busyRuns, hs.control.conflictBusy⟩⟩

/-! ### The fault registers and the end of the engine step -/

/-- HALTED says that FCODE holds a fault, and FCMD holds no word before one (10_state.md R31). -/
def FaultRegistersOk (s : State) : Prop :=
  (s.halted = true ↔ s.fcode ≠ .none) ∧ (s.halted = false → s.fcmd = 0)

theorem faultRegistersOk_raise (s : State) {c : FaultCode} (hc : c ≠ .none) : FaultRegistersOk (s.raise c) :=
  ⟨⟨fun _ => hc, fun _ => rfl⟩, nofun⟩

theorem none_notMem_commandFaults (i : Instr) : .none ∉ commandFaults i := by
  cases i <;> simp [commandFaults]

theorem faultRegistersOk_exec {s t : State} {i : Instr} (hs : FaultRegistersOk s) (h : exec i s = .next t) :
    FaultRegistersOk t := by
  rcases exec_cases h with ⟨c, hc, rfl⟩ | ⟨-, -, rfl⟩ | ⟨-, he⟩
  · exact faultRegistersOk_raise s fun h0 => none_notMem_commandFaults i (h0 ▸ hc)
  · exact hs
  · obtain ⟨hhalted, hcode, hword⟩ := he.faultRegisters
    rw [FaultRegistersOk, hhalted, hcode, hword]
    exact hs

/-- The end of the engine step clears BUSY and PCONF, and a conflict it takes is a fault. -/
theorem inv_endStep {s : State} (hd : s.DataInv) (hf : FaultRegistersOk s) : s.endStep.Inv := by
  rw [endStep_eq]
  split
  · exact ⟨hd.congr, ⟨⟨fun _ => nofun, fun _ => rfl⟩, nofun, nofun, nofun⟩⟩
  · exact ⟨hd.congr, ⟨hf.1, hf.2, nofun, nofun⟩⟩

/-! ### Each kind of step -/

theorem inv_engineStep {s t : State} (hs : s.Inv) (h : engineStep s = .next t) : t.Inv := by
  have hf : FaultRegistersOk s := ⟨hs.control.haltedCode, hs.control.noFaultWord⟩
  rcases engineStep_cases s with ⟨-, e⟩ | ⟨hb, hh, -⟩ | ⟨-, -, i, u, -, he, e⟩ | ⟨-, -, d, -, e⟩
  · cases e.symm.trans h
    exact hs
  · exact absurd (hh.symm.trans (hs.control.busyRuns hb)) nofun
  · cases e.symm.trans h
    exact inv_endStep (commandsKeepDataInv i s u hs.data he) (faultRegistersOk_exec hf he)
  · cases e.symm.trans h
    exact inv_endStep hs.data.congr (faultRegistersOk_raise s nofun)

/-- A write while BUSY = 1 only records the conflict (60_exceptions.md R121). -/
theorem inv_conflict {s : State} (hs : s.Inv) (hb : s.busy = true) : { s with pconf := true }.Inv :=
  ⟨hs.data.congr,
    ⟨hs.control.haltedCode, hs.control.noFaultWord, hs.control.busyRuns, fun _ => hb⟩⟩

theorem inv_lowWrite {s : State} (hs : s.Inv) (offset : Nat) (v : BusWord) : (s.lowWrite offset v).Inv := by
  have hc := hs.control
  unfold State.lowWrite
  split
  · split
    · exact inv_conflict hs ‹_›
    · exact ⟨hs.data.congr, ⟨hc.haltedCode, hc.noFaultWord, hc.busyRuns, hc.conflictBusy⟩⟩
  · split
    · split
      · exact inv_conflict hs ‹_›
      · split
        · exact ⟨hs.data.congr, ⟨hc.haltedCode, hc.noFaultWord, hc.busyRuns, hc.conflictBusy⟩⟩
        · exact ⟨hs.data.congr,
            ⟨hc.haltedCode, hc.noFaultWord, fun _ => Bool.eq_false_iff.2 ‹_›, fun _ => rfl⟩⟩
    · exact hs

theorem inv_windowWrite {s : State} (hs : s.Inv) (w : Width) (a : Nat) (v : BusWord) :
    (s.windowWrite w a v).Inv := by
  have hc := hs.control
  unfold State.windowWrite
  split
  · exact inv_conflict hs ‹_›
  · exact ⟨hs.data.withBuf (wf_writeLanes _ _ _ _ _ hs.data.bufCanonical)
        (writeLanes_inRange hs.data.bufInRange),
      ⟨hc.haltedCode, hc.noFaultWord, hc.busyRuns, hc.conflictBusy⟩⟩

theorem inv_busStore {s : State} (hs : s.Inv) (w : Width) (offset : Nat) (v : BusWord) :
    (s.busStore w offset v).Inv := by
  unfold State.busStore
  split
  · exact inv_lowWrite hs offset v
  · exact inv_windowWrite hs w _ v

/-- Settles O54: an engine step, a reset, a host write and a host read each keep a sound state. -/
theorem stepKeepsInv : Obligations.StepKeepsInv := by
  unfold Obligations.StepKeepsInv
  intro s t hs h
  rcases step_eq_next h with ⟨-, e⟩ | ⟨rest, -, e⟩ | ⟨rest, -, rfl⟩ | ⟨w, offset, v, rest, -, -, -, rfl⟩ |
    ⟨w, offset, rest, -, -, -, rfl⟩
  · exact inv_engineStep hs e
  · exact inv_engineStep (inv_withHost hs rest s.reads s.draws) e
  · exact inv_withHost (resetIsSound s.par hs.data.legal) rest s.reads s.draws
  · exact inv_busStore (inv_withHost hs rest s.reads s.draws) w offset v
  · exact inv_withHost hs rest _ _

end Sys2Proof.Claims
end

section
/-! SUPPORT. The host's accesses and the engine's step as the statements put them: O36, O40, O41, O42, O46
(10_state.md R33 to R36, R44). -/

namespace Sys2Proof.Claims
open Sys2Proof.Machine

/-! ### Supported accesses -/

theorem onBus_of_ok {w : Width} {offset : Nat} (t : State) (hlt : offset < 0x20000)
    (hok : accessOk w offset = true) : onBus w offset t = .next t := by
  rw [onBus, if_neg (by simpa [windowSize] using hlt), if_pos hok]

theorem step_write {s : State} {w : Width} {offset : Nat} {v : BusWord} {rest : List HostEvent}
    (hs : s.script = .write w offset v :: rest) (hlt : offset < 0x20000) (hok : accessOk w offset = true) :
    step s = .next ({ s with script := rest }.busStore w offset v) := by
  rw [step_of_cons hs, hostEvent, busWrite, onBus_of_ok _ hlt hok]

/-- The word a read returns does not depend on what the host will do next. -/
theorem step_read {s : State} {w : Width} {offset : Nat} {rest : List HostEvent}
    (hs : s.script = .read w offset :: rest) (hlt : offset < 0x20000) (hok : accessOk w offset = true) :
    step s = .next
      { s with script := rest, reads := s.busValue w offset :: s.reads, draws := s.draws + 1 } := by
  rw [step_of_cons hs, hostEvent, busRead, onBus_of_ok _ hlt hok]
  rfl

/-- Below the BUF window the bus takes aligned 32-bit accesses (20_memory.md R58). -/
theorem accessOk_register {offset : Nat} (hlt : offset < 0x10000) (h4 : offset % 4 = 0) :
    accessOk .b32 offset = true := by simp [accessOk, bufWindow, hlt, h4]

theorem busStore_register {s : State} {w : Width} {offset : Nat} (v : BusWord) (hlt : offset < 0x10000) :
    s.busStore w offset v = s.lowWrite offset v := if_pos hlt

theorem busValue_register {s : State} {w : Width} {offset : Nat} (hlt : offset < 0x10000) :
    s.busValue w offset = s.lowRead offset := if_pos hlt

theorem lowRead_idle {s : State} (hb : s.busy = false) (offset : Nat) :
    s.lowRead offset = s.regRead offset := by simp [State.lowRead, hb]

theorem lowWrite_other {s : State} {offset : Nat} (v : BusWord) (h1 : offset ≠ 0x10) (h2 : offset ≠ 0x14) :
    s.lowWrite offset v = s := by simp [State.lowWrite, h1, h2]

/-! ### The engine step -/

theorem stepEnd_eq (t : State) : stepEnd t = t.endStep := (endStep_eq t).symm

/-- Settles O36, by what an issued command does in the engine step. -/
theorem stepRunsDecoded : Obligations.StepRunsDecoded := by
  unfold Obligations.StepRunsDecoded
  intro s i hb hh hd
  have run : ∀ u : State, u.busy = true → u.halted = false → u.fetch = .ok i →
      ∃ t, exec i u = .next t ∧ engineStep u = .next (stepEnd t) := fun u hb hh hd => by
    obtain ⟨t, he⟩ := exec_next i u
    exact ⟨t, he, stepEnd_eq t ▸ engineStep_of_exec hb hh hd he⟩
  refine ⟨fun hs => ?_, fun rest hs => ?_⟩
  · rw [step_of_nil hs]
    exact run s hb hh hd
  · rw [step_of_cons hs]
    exact run { s with script := rest } hb hh hd

/-! ### Registers -/

/-- Settles O40: at CMD_LO and CMD_HI a supported write is `lowWrite`, by BUSY and HALTED. -/
theorem hostWriteIssues : Obligations.HostWriteIssues := by
  unfold Obligations.HostWriteIssues
  intro s v rest hb
  refine ⟨fun hs => ?_, fun hs hh => ?_, fun hs hh => ?_⟩ <;>
    rw [step_write hs (by decide) rfl, busStore_register v (by decide)]
  · simp [State.lowWrite, hb]
  · simp [State.lowWrite, hb, hh]
  · simp [State.lowWrite, hb, hh]

/-- The one-bit fields of STATUS (10_state.md R34). -/
theorem status_bits (s : State) :
    s.status.getLsbD 0 = s.busy ∧ s.status.getLsbD 1 = s.halted ∧ s.status.getLsbD 2 = s.ctx ∧
      s.status.getLsbD 3 = s.neg ∧ s.status.getLsbD 18 = (slotAt s 0).isSome ∧
      s.status.getLsbD 19 = (slotAt s 1).isSome ∧ s.status.getLsbD 20 = (slotAt s 2).isSome := by
  unfold State.status
  refine ⟨?_, ?_, ?_, ?_, ?_, ?_, ?_⟩ <;> repeat rw [BitVec.getLsbD_append]
  all_goals simp [slotAt]

/-- The wider fields of STATUS: with the lower ones dropped, each is what is lowest (10_state.md R34). -/
theorem status_fields (s : State) :
    s.status.extractLsb' 4 4 = 0#4 ∧ s.status.extractLsb' 8 8 = s.fcode.code ∧
      s.status.extractLsb' 16 2 = BitVec.ofNat 2 s.cur.val ∧ s.status.extractLsb' 21 11 = 0#11 := by
  unfold State.status
  refine ⟨?_, ?_, ?_, ?_⟩ <;> repeat rw [BitVec.extractLsb'_append_eq_of_le (by decide)]
  · exact BitVec.extractLsb'_append_eq_right
  · exact BitVec.extractLsb'_append_eq_right
  · exact BitVec.extractLsb'_append_eq_right
  · exact BitVec.extractLsb'_eq_self

theorem cur_toNat (j : Fin 3) : (BitVec.ofNat 2 j.val).toNat = j.val := by
  fin_cases j <;> rfl

/-- Bit 0 of STATUS is BUSY at any time (10_state.md R34). -/
theorem lowRead_status_busy (s : State) : (s.lowRead 0x08).getLsbD 0 = s.busy := by
  cases hb : s.busy
  · rw [lowRead_idle hb]
    exact (status_bits s).1.trans hb
  · simp [State.lowRead, hb]

/-- Settles O41: the read answers STATUS while BUSY = 0, and BUSY in bit 0 always. -/
theorem statusFields : Obligations.StatusFields := by
  unfold Obligations.StatusFields
  refine ⟨rfl, rfl, fun s rest hs => ⟨_, _, step_read hs (by decide) rfl, rfl, ?_, fun hb => ?_, rfl⟩⟩ <;>
    rw [busValue_register (by decide)]
  · exact lowRead_status_busy s
  · rw [lowRead_idle hb]
    obtain ⟨-, hhalted, hctx, hneg, h0, h1, h2⟩ := status_bits s
    obtain ⟨hlow, hcode, hcur, hhigh⟩ := status_fields s
    exact ⟨hhalted, hctx, hneg, hlow, hcode, (congrArg BitVec.toNat hcur).trans (cur_toNat s.cur), h0, h1,
      h2, hhigh⟩

/-- The fields of CONFIG (10_state.md R35). -/
theorem configWord_fields (p : Params) :
    (configWord p).extractLsb' 0 8 = BitVec.ofNat 8 p.nh ∧
      (configWord p).extractLsb' 8 8 = BitVec.ofNat 8 p.w ∧
      (configWord p).extractLsb' 16 16 = BitVec.ofNat 16 p.lmax := by
  unfold configWord
  refine ⟨?_, ?_, ?_⟩ <;> repeat rw [BitVec.extractLsb'_append_eq_of_le (by decide)]
  · exact BitVec.extractLsb'_append_eq_right
  · exact BitVec.extractLsb'_append_eq_right
  · exact BitVec.extractLsb'_eq_self

/-- Legal parameters fit their fields of CONFIG (10_state.md R35). -/
theorem configWord_of_legal {p : Params} (hp : p.Legal) :
    ((configWord p).extractLsb' 0 8).toNat = p.nh ∧ ((configWord p).extractLsb' 8 8).toNat = p.w ∧
      ((configWord p).extractLsb' 16 16).toNat = p.lmax := by
  obtain ⟨hw, ⟨-, hnh⟩, ⟨-, hlmax⟩, -⟩ := hp
  obtain ⟨h1, h2, h3⟩ := configWord_fields p
  rw [h1, h2, h3]
  simp only [BitVec.toNat_ofNat]
  refine ⟨Nat.mod_eq_of_lt (by omega), Nat.mod_eq_of_lt ?_, Nat.mod_eq_of_lt (by omega)⟩
  rcases hw with hw | hw <;> rw [hw] <;> decide

/-- From offset 0x20 on the registers read 0 (10_state.md R33). -/
theorem regRead_reserved (s : State) {offset : Nat} (h : 0x20 ≤ offset) : s.regRead offset = 0 := by
  obtain ⟨k, rfl⟩ := Nat.exists_eq_add_of_le' h
  rfl

/-- Settles O42: a read answers the register it names and writes nothing; a write below the BUF window acts
at CMD_LO and CMD_HI only. -/
theorem registerReads : Obligations.RegisterReads := by
  unfold Obligations.RegisterReads
  refine ⟨fun s offset rest hs hb hlt h4 => ?_, fun s t w offset rest hs h => ?_,
    fun s offset v rest hs hlt h4 h1 h2 => ?_⟩
  · refine ⟨_, _, step_read hs (by omega) (accessOk_register hlt h4), rfl, ?_⟩
    rw [busValue_register hlt, lowRead_idle hb]
    refine ⟨?_, ?_, ?_, ?_, ?_, ?_, ?_, fun h => regRead_reserved _ h⟩ <;> rintro rfl
    · rfl
    · exact fun hp => configWord_of_legal hp
    all_goals rfl
  · rcases step_eq_next h with ⟨he, -⟩ | ⟨_, he, -⟩ | ⟨_, he, -⟩ | ⟨_, _, _, _, he, -⟩ |
      ⟨_, _, _, -, -, -, rfl⟩
    · cases hs.symm.trans he
    · cases hs.symm.trans he
    · cases hs.symm.trans he
    · cases hs.symm.trans he
    · rfl
  · rw [step_write hs (by omega) (accessOk_register hlt h4), busStore_register v hlt, lowWrite_other v h1 h2]

/-- Settles O46: the table, the slots and BUF of the reset state are empty; the rest is as given. -/
theorem resetState : Obligations.ResetState := by
  unfold Obligations.ResetState ResetValues
  refine ⟨⟨⟨rfl, ?_⟩, rfl, ?_, rfl, rfl, rfl, rfl, rfl, rfl, rfl, rfl, rfl, rfl, rfl, rfl, ?_, rfl⟩,
    rfl, rfl, rfl, rfl, rfl⟩
  · exact fun h => State.entry_clearContext State.reset h
  · intro n
    unfold slotAt
    split <;> rfl
  · exact fun a => rfl

end Sys2Proof.Claims
end

section
/-! SUPPORT. Which accesses the bus takes, and the byte lanes of the BUF window: O43, O44 (20_memory.md R50,
R53, R58; 10_state.md R33). -/

namespace Sys2Proof.Claims
open Sys2Proof.Machine

/-! ### Which accesses the bus takes -/

theorem onBus_past {w : Width} {offset : Nat} (t : State) (h : 0x20000 ≤ offset) :
    onBus w offset t = .fault .noSuchOffset := if_pos h

theorem onBus_unsupported {w : Width} {offset : Nat} (t : State) (hlt : offset < 0x20000)
    (hok : ¬ accessOk w offset = true) : onBus w offset t = .refused .hostAccess := by
  rw [onBus, if_neg (by simpa [windowSize] using hlt), if_neg hok]

theorem accessOk_register_iff {w : Width} {offset : Nat} (hlt : offset < 0x10000) :
    accessOk w offset = true ↔ w = .b32 ∧ offset % 4 = 0 := by simp [accessOk, bufWindow, hlt]

theorem accessOk_window_iff {w : Width} {offset : Nat} (hge : 0x10000 ≤ offset) :
    accessOk w offset = true ↔ offset % w.bytes = 0 := by
  simp [accessOk, bufWindow, Nat.not_lt.2 hge]

/-- A host access, read or write, is one access on the bus. -/
theorem step_access {s : State} {w : Width} {offset : Nat} {v : BusWord} {rest : List HostEvent}
    {e : HostEvent} (he : e = .write w offset v ∨ e = .read w offset) (hs : s.script = e :: rest) :
    ∃ t, step s = onBus w offset t := by
  rw [step_of_cons hs]
  rcases he with rfl | rfl
  · exact ⟨_, rfl⟩
  · exact ⟨_, rfl⟩

/-- Settles O44: the offset's side of the BUF window says which test the access has to pass. -/
theorem unsupportedHostAccess : Obligations.UnsupportedHostAccess := by
  unfold Obligations.UnsupportedHostAccess
  intro s w offset v rest e he hs
  obtain ⟨t, ht⟩ := step_access he hs
  rw [ht]
  refine ⟨fun hpast => ?_, fun hlow hbad => ?_, fun hge hlt hbad => ?_, fun hlow hw h4 => ⟨t, ?_⟩,
    fun hge hlt hal => ⟨t, ?_⟩⟩
  · exact onBus_past t hpast
  · exact onBus_unsupported t (by omega) (mt (accessOk_register_iff hlow).1 hbad)
  · exact onBus_unsupported t hlt (mt (accessOk_window_iff hge).1 hbad)
  · exact onBus_of_ok t (by omega) ((accessOk_register_iff hlow).2 ⟨hw, h4⟩)
  · exact onBus_of_ok t hlt ((accessOk_window_iff hge).2 hal)

/-! ### The byte lanes of the BUF window -/

/-- The window starts at a multiple of every width. -/
theorem accessOk_window {w : Width} {a : Nat} (h : a % w.bytes = 0) : accessOk w (0x10000 + a) = true := by
  rw [accessOk_window_iff (by omega)]
  cases w <;> simp only [Width.bytes] at h ⊢ <;> omega

theorem busStore_window (s : State) (w : Width) (a : Nat) (v : BusWord) :
    s.busStore w (0x10000 + a) v = s.windowWrite w a v := by
  simp [State.busStore, bufWindow]

theorem busValue_window (s : State) (w : Width) (a : Nat) :
    s.busValue w (0x10000 + a) = s.windowRead w a := by
  simp [State.busValue, bufWindow]

theorem windowWrite_idle {s : State} (hb : s.busy = false) (w : Width) (a : Nat) (v : BusWord) :
    s.windowWrite w a v = { s with buf := writeLanes s.par.bufsz s.buf a v 0 w.bytes } := by
  simp [State.windowWrite, hb]

/-- While BUSY = 0 an aligned write to the window writes its lanes to BUF and nothing else. -/
theorem step_window_write {s : State} {w : Width} {a : Nat} {v : BusWord} {rest : List HostEvent}
    (hs : s.script = .write w (0x10000 + a) v :: rest) (hb : s.busy = false) (hlt : a < 0x10000)
    (hal : a % w.bytes = 0) :
    step s = .next { s with script := rest, buf := writeLanes s.par.bufsz s.buf a v 0 w.bytes } := by
  rw [step_write hs (by omega) (accessOk_window hal), busStore_window,
    windowWrite_idle (s := { s with script := rest }) hb]

theorem step_window_read {s : State} {w : Width} {a : Nat} {rest : List HostEvent}
    (hs : s.script = .read w (0x10000 + a) :: rest) (hlt : a < 0x10000) (hal : a % w.bytes = 0) :
    step s = .next
      { s with script := rest, reads := s.windowRead w a :: s.reads, draws := s.draws + 1 } := by
  rw [step_read hs (by omega) (accessOk_window hal), busValue_window]

theorem windowByte_of_defined {s : State} {a : Nat} {b : Byte} (hb : s.busy = false) (ha : a < s.par.bufsz)
    (hd : s.byteAt a = some b) (i : Nat) : s.windowByte a i = b := by
  simp [State.windowByte, hb, ha, hd]

theorem windowByte_past {s : State} {a : Nat} (ha : s.par.bufsz ≤ a) (i : Nat) : s.windowByte a i = 0 :=
  if_neg (Nat.not_lt.2 ha)

theorem lane_or (x y : BusWord) (i : Nat) : lane (x ||| y) i = lane x i ||| lane y i :=
  BitVec.extractLsb'_or

/-- A byte placed on lane `j` of the bus word is on that lane and on no other. -/
theorem lane_windowLane (s : State) (a : Nat) {i j : Nat} (hi : i < 4) :
    lane (s.windowLane a j) i = if i = j then s.windowByte (a + j) j else 0 := by
  unfold lane State.windowLane
  generalize s.windowByte (a + j) j = b
  ext k hk
  have hin : 8 * i + k < 32 := by omega
  rcases Nat.lt_trichotomy i j with h | rfl | h
  · have hbelow : 8 * i + k < 8 * j := by omega
    simp [hbelow, h.ne]
  · simp [hin, hk]
  · have habove : 8 ≤ 8 * i + k - 8 * j := by omega
    simp [BitVec.getLsbD_of_ge b _ habove, h.ne']

/-- Lane `i` of a read is the byte of its own address, on every lane the access moves (20_memory.md R53). -/
theorem lane_windowRead (s : State) {w : Width} (a : Nat) {i : Nat} (hi : i < w.bytes) :
    lane (s.windowRead w a) i = s.windowByte (a + i) i := by
  have h4 : i < 4 := hi.trans_le (by cases w <;> decide)
  cases w <;> simp only [Width.bytes] at hi <;>
    simp only [State.windowRead, lane_or, lane_windowLane s a h4]
  all_goals interval_cases i <;> simp

/-- Settles O43: a write leaves in BUF what `memGet_writeLanes` says, and each lane of a read is the byte of
its own address. -/
theorem bufWindowLanes : Obligations.BufWindowLanes := by
  unfold Obligations.BufWindowLanes
  intro s w a rest hb hlt hal
  refine ⟨fun v hs => ⟨_, step_window_write hs hb hlt hal, fun i hi hz => ?_, fun x hx => ?_, rfl⟩,
    fun hs => ⟨_, _, step_window_read hs hlt hal, rfl, fun i b hi hz hd => ?_, fun i hi hz => ?_⟩⟩
  · rw [State.byteAt, memGet_writeLanes, if_pos (by omega), Nat.add_sub_cancel_left, lane]
  · exact (memGet_writeLanes ..).trans (if_neg hx)
  · exact (lane_windowRead s a hi).trans (windowByte_of_defined hb hz hd i)
  · exact (lane_windowRead s a hi).trans (windowByte_past hz i)

end Sys2Proof.Claims
end

section
/-! SUPPORT. The decoder against the encoder: O32, O33, O34, O35 (30_encoding.md R67 to R78). A word decodes
exactly when it lies in the row of an opcode. The encoder writes each operand where the decoder reads it, so
decoding gives the command back; and since every bit of an accepted word is fixed by its row or is an operand
bit, encoding gives the word back. -/

namespace Sys2Proof
open Sys2Proof.Laws

/-! ### The fields of an assembled word (30_encoding.md R68, R78) -/

theorem haBits_assemble (op ha hb fl : BitVec 8) (imm : BitVec 32) :
    (assemble op ha hb fl imm).extractLsb' 48 8 = ha := by
  unfold assemble
  rw [BitVec.extractLsb'_append_eq_of_le (by decide), BitVec.extractLsb'_append_eq_of_le (by decide),
    BitVec.extractLsb'_append_eq_of_le (by decide)]
  exact BitVec.extractLsb'_append_eq_right

theorem hbBits_assemble (op ha hb fl : BitVec 8) (imm : BitVec 32) :
    (assemble op ha hb fl imm).extractLsb' 40 8 = hb := by
  unfold assemble
  rw [BitVec.extractLsb'_append_eq_of_le (by decide), BitVec.extractLsb'_append_eq_of_le (by decide)]
  exact BitVec.extractLsb'_append_eq_right

/-- The low `k` bits of FL. -/
theorem flBits_assemble (op ha hb fl : BitVec 8) (imm : BitVec 32) {k : Nat} (hk : k ≤ 8) :
    (assemble op ha hb fl imm).extractLsb' 32 k = fl.extractLsb' 0 k := by
  unfold assemble
  rw [BitVec.extractLsb'_append_eq_of_le (by decide), BitVec.extractLsb'_append_eq_of_add_le (by omega)]

/-- A part of IMM. -/
theorem immBits_assemble (op ha hb fl : BitVec 8) (imm : BitVec 32) {a k : Nat} (hk : a + k ≤ 32) :
    (assemble op ha hb fl imm).extractLsb' a k = imm.extractLsb' a k :=
  BitVec.extractLsb'_append_eq_of_add_le hk

/-- Every word is assembled from its fields. -/
theorem assemble_fields (w : CmdWord) :
    assemble (opField w) (w.extractLsb' 48 8) (w.extractLsb' 40 8) (w.extractLsb' 32 8)
      (w.extractLsb' 0 32) = w := by
  unfold assemble opField
  rw [BitVec.extractLsb'_append_extractLsb'_eq_extractLsb' (by decide),
    BitVec.extractLsb'_append_extractLsb'_eq_extractLsb' (by decide),
    BitVec.extractLsb'_append_extractLsb'_eq_extractLsb' (by decide),
    BitVec.extractLsb'_append_extractLsb'_eq_extractLsb' (by decide), BitVec.extractLsb'_eq_self]

/-! ### What the decoder reads in a field the encoder wrote: the operand, when it fits -/

section Written
variable (op ha hb fl : BitVec 8) (imm : BitVec 32)

@[simp] theorem haField_assemble {h : Nat} (hf : fitsHandle h = true) :
    haField (assemble op (.ofNat 8 h) hb fl imm) = h := by
  rw [haField, haBits_assemble, BitVec.toNat_ofNat, Nat.mod_eq_of_lt (of_decide_eq_true hf)]

@[simp] theorem hbField_assemble {h : Nat} (hf : fitsHandle h = true) :
    hbField (assemble op ha (.ofNat 8 h) fl imm) = h := by
  rw [hbField, hbBits_assemble, BitVec.toNat_ofNat, Nat.mod_eq_of_lt (of_decide_eq_true hf)]

@[simp] theorem slotField_assemble {n : Nat} (hf : fitsSlot n = true) :
    slotField (assemble op ha hb (.ofNat 8 n) imm) = n := by
  rw [slotField, flBits_assemble _ _ _ _ _ (by decide)]
  simpa using of_decide_eq_true hf

@[simp] theorem flagField_assemble (b : Bool) : flagField (assemble op ha hb (flagByte b) imm) = b := by
  rw [flagField, assemble, BitVec.getLsbD_append, if_neg (by decide), BitVec.getLsbD_append,
    if_pos (by decide)]
  cases b <;> rfl

@[simp] theorem immField_assemble {n : Nat} (hf : fitsImm n = true) :
    immField (assemble op ha hb fl (.ofNat 32 n)) = n := by
  rw [immField, immBits_assemble _ _ _ _ _ (by decide), BitVec.extractLsb'_eq_self, BitVec.toNat_ofNat,
    Nat.mod_eq_of_lt (of_decide_eq_true hf)]

@[simp] theorem addrField_assemble {addr : Nat} (low : Nat) (hf : fitsHalf addr = true) :
    addrField (assemble op ha hb fl (pairImm addr low)) = addr := by
  rw [addrField, immBits_assemble _ _ _ _ _ (by decide), pairImm, BitVec.extractLsb'_append_eq_left,
    BitVec.toNat_ofNat, Nat.mod_eq_of_lt (of_decide_eq_true hf)]

@[simp] theorem lowField_assemble {low : Nat} (addr : Nat) (hf : fitsHalf low = true) :
    lowField (assemble op ha hb fl (pairImm addr low)) = low := by
  rw [lowField, immBits_assemble _ _ _ _ _ (by decide), pairImm, BitVec.extractLsb'_append_eq_right,
    BitVec.toNat_ofNat, Nat.mod_eq_of_lt (of_decide_eq_true hf)]

end Written

/-- The fields of an encoding are the command's operands: every operand of a well-formed command fits, so
each field reads back by its lemma above. -/
theorem build_encode {i : Instr} (h : i.wellFormed = true) : i.opcode.build (encode i) = i := by
  cases i <;> simp_all [Instr.wellFormed, Instr.opcode, Opcode.build, encode]

/-! ### The rows of the opcode map (30_encoding.md R69, R70) -/

/-- The laws of the family EncodesInRow together: an encoding lies in its command's row. -/
theorem encodesInRow : ∀ i : Instr, EncodesInRow.Statement i
  | .ctxopen => EncodesInRow.ctxopen
  | .ctxclose => EncodesInRow.ctxclose
  | .query ha imm => EncodesInRow.query ha imm
  | .alloc skip n => EncodesInRow.alloc skip n
  | .alloci imm => EncodesInRow.alloci imm
  | .load addr len => EncodesInRow.load addr len
  | .save ha addr len => EncodesInRow.save ha addr len
  | .hex ha addr => EncodesInRow.hex ha addr
  | .release ha => EncodesInRow.release ha
  | .copy ha => EncodesInRow.copy ha
  | .clone ha => EncodesInRow.clone ha
  | .setperm ha => EncodesInRow.setperm ha
  | .rstperm ha rel => EncodesInRow.rstperm ha rel
  | .resize ha skip n => EncodesInRow.resize ha skip n
  | .trim ha => EncodesInRow.trim ha
  | .lshift ha n => EncodesInRow.lshift ha n
  | .rshift ha n => EncodesInRow.rshift ha n
  | .iszero ha => EncodesInRow.iszero ha
  | .bitset ha imm => EncodesInRow.bitset ha imm
  | .bitcount ha => EncodesInRow.bitcount ha
  | .cmp ha hb => EncodesInRow.cmp ha hb
  | .add ha hb => EncodesInRow.add ha hb
  | .sub ha hb => EncodesInRow.sub ha hb
  | .mul ha hb => EncodesInRow.mul ha hb
  | .imul ha imm => EncodesInRow.imul ha imm
  | .div ha hb mod => EncodesInRow.div ha hb mod
  | .idiv ha imm => EncodesInRow.idiv ha imm
  | .setmod ha slot => EncodesInRow.setmod ha slot
  | .rstmod slot => EncodesInRow.rstmod slot
  | .selmod slot => EncodesInRow.selmod slot
  | .barrett ha => EncodesInRow.barrett ha

theorem ofCode_code (o : Opcode) : Opcode.ofCode o.code = some o := by cases o <;> rfl

/-- A word in the row of `o` decodes to the command of `o`. -/
theorem decode_of_row {w : CmdWord} {o : Opcode} (hop : opField w = o.code)
    (hrow : w &&& o.format.mask = o.pattern) : decode w = .ok (o.build w) := by
  simp [decode, hop, ofCode_code, hrow]

/-- A word that decodes lies in a row. -/
theorem row_of_decode {w : CmdWord} {i : Instr} (h : decode w = .ok i) :
    ∃ o : Opcode, w &&& o.format.mask = o.pattern ∧ o.build w = i := by
  unfold decode at h
  split at h
  · cases h
  · next o _ =>
    split at h
    · next hrow => exact ⟨o, hrow, Except.ok.inj h⟩
    · cases h

/-! ### What the encoder writes of the fields the decoder read -/

section Read
variable (w : CmdWord)

@[simp] theorem ofNat_haField : BitVec.ofNat 8 (haField w) = w.extractLsb' 48 8 := by
  rw [haField, BitVec.ofNat_toNat, BitVec.setWidth_eq]

@[simp] theorem ofNat_hbField : BitVec.ofNat 8 (hbField w) = w.extractLsb' 40 8 := by
  rw [hbField, BitVec.ofNat_toNat, BitVec.setWidth_eq]

@[simp] theorem ofNat_immField : BitVec.ofNat 32 (immField w) = w.extractLsb' 0 32 := by
  rw [immField, BitVec.ofNat_toNat, BitVec.setWidth_eq]

@[simp] theorem ofNat_slotField_and :
    BitVec.ofNat 8 (slotField w) &&& 3#8 = w.extractLsb' 32 8 &&& 3#8 := by
  have h : slotField w = (w.extractLsb' 32 8).toNat % 2 ^ 2 := by simp [slotField]
  apply BitVec.eq_of_toNat_eq
  simp [h, Nat.and_two_pow_sub_one_eq_mod _ 2]

@[simp] theorem flagByte_flagField_and :
    flagByte (flagField w) &&& 1#8 = w.extractLsb' 32 8 &&& 1#8 := by
  have h : flagField w = (w.extractLsb' 32 8).getLsbD 0 := by simp [flagField]
  rw [h]
  generalize w.extractLsb' 32 8 = fl
  revert fl
  decide

@[simp] theorem pairImm_fields : pairImm (addrField w) (lowField w) = w.extractLsb' 0 32 := by
  rw [pairImm, addrField, lowField, BitVec.ofNat_toNat, BitVec.ofNat_toNat, BitVec.setWidth_eq,
    BitVec.setWidth_eq, BitVec.extractLsb'_append_extractLsb'_eq_extractLsb' (by decide)]

theorem pairImm_and (addr low : Nat) (x y : BitVec 16) :
    pairImm addr low &&& (x ++ y) = (BitVec.ofNat 16 addr &&& x) ++ (BitVec.ofNat 16 low &&& y) :=
  BitVec.and_append

@[simp] theorem pairImm_zero_lowField_and :
    pairImm 0 (lowField w) &&& 0xFFFF#32 = w.extractLsb' 0 32 &&& 0xFFFF#32 := by
  have h : 0xFFFF#32 = 0#16 ++ 0xFFFF#16 := by decide
  rw [h, ← pairImm_fields, pairImm_and, pairImm_and, BitVec.and_zero, BitVec.and_zero]

@[simp] theorem pairImm_addrField_zero_and :
    pairImm (addrField w) 0 &&& 0xFFFF0000#32 = w.extractLsb' 0 32 &&& 0xFFFF0000#32 := by
  have h : 0xFFFF0000#32 = 0xFFFF#16 ++ 0#16 := by decide
  rw [h, ← pairImm_fields, pairImm_and, pairImm_and, BitVec.and_zero, BitVec.and_zero]

end Read

/-- An assembled word agrees with `w` on the bits of `k` when each of its fields does. -/
theorem assemble_and_eq {w k : CmdWord} {op ha hb fl : BitVec 8} {imm : BitVec 32} (kha khb kfl : BitVec 8)
    (kimm : BitVec 32) (hk : k = assemble 0 kha khb kfl kimm)
    (hha : ha &&& kha = w.extractLsb' 48 8 &&& kha)
    (hhb : hb &&& khb = w.extractLsb' 40 8 &&& khb)
    (hfl : fl &&& kfl = w.extractLsb' 32 8 &&& kfl)
    (himm : imm &&& kimm = w.extractLsb' 0 32 &&& kimm) :
    assemble op ha hb fl imm &&& k = w &&& k := by
  rw [← assemble_fields w, hk, EncodesInRow.assemble_and, EncodesInRow.assemble_and, hha, hhb, hfl, himm]
  simp

/-- Encoding keeps the operand bits of a word, those outside its row's mask. There is one case for each set
of operand bits, and in it each field is written as it was read, or has no operand bit. -/
theorem encode_build_and (o : Opcode) (w : CmdWord) :
    encode (o.build w) &&& ~~~o.format.mask = w &&& ~~~o.format.mask := by
  cases o with
  | ctxopen | ctxclose =>
    refine assemble_and_eq 0#8 0#8 0#8 0#32 (by decide) ?_ ?_ ?_ ?_ <;> simp
  | release | copy | clone | setperm | trim | iszero | bitcount | barrett =>
    refine assemble_and_eq 0xFF#8 0#8 0#8 0#32 (by decide) ?_ ?_ ?_ ?_ <;> simp
  | rstperm =>
    refine assemble_and_eq 0xFF#8 0#8 1#8 0#32 (by decide) ?_ ?_ ?_ ?_ <;> simp
  | cmp | add | sub | mul =>
    refine assemble_and_eq 0xFF#8 0xFF#8 0#8 0#32 (by decide) ?_ ?_ ?_ ?_ <;> simp
  | div =>
    refine assemble_and_eq 0xFF#8 0xFF#8 1#8 0#32 (by decide) ?_ ?_ ?_ ?_ <;> simp
  | query | bitset | imul | idiv | save =>
    refine assemble_and_eq 0xFF#8 0#8 0#8 0xFFFFFFFF#32 (by decide) ?_ ?_ ?_ ?_ <;> simp
  | lshift | rshift =>
    refine assemble_and_eq 0xFF#8 0#8 0#8 0xFFFF#32 (by decide) ?_ ?_ ?_ ?_ <;> simp
  | resize =>
    refine assemble_and_eq 0xFF#8 0#8 1#8 0xFFFF#32 (by decide) ?_ ?_ ?_ ?_ <;> simp
  | alloc =>
    refine assemble_and_eq 0#8 0#8 1#8 0xFFFF#32 (by decide) ?_ ?_ ?_ ?_ <;> simp
  | alloci | load =>
    refine assemble_and_eq 0#8 0#8 0#8 0xFFFFFFFF#32 (by decide) ?_ ?_ ?_ ?_ <;> simp
  | hex =>
    refine assemble_and_eq 0xFF#8 0#8 0#8 0xFFFF0000#32 (by decide) ?_ ?_ ?_ ?_ <;> simp
  | setmod =>
    refine assemble_and_eq 0xFF#8 0#8 3#8 0#32 (by decide) ?_ ?_ ?_ ?_ <;> simp
  | rstmod | selmod =>
    refine assemble_and_eq 0#8 0#8 3#8 0#32 (by decide) ?_ ?_ ?_ ?_ <;> simp

theorem opcode_build (o : Opcode) (w : CmdWord) : (o.build w).opcode = o := by cases o <;> rfl

theorem wellFormed_build (o : Opcode) (w : CmdWord) : (o.build w).wellFormed = true := by
  have hha : fitsHandle (haField w) = true := decide_eq_true (BitVec.isLt _)
  have hhb : fitsHandle (hbField w) = true := decide_eq_true (BitVec.isLt _)
  have hslot : fitsSlot (slotField w) = true := decide_eq_true (BitVec.isLt _)
  have himm : fitsImm (immField w) = true := decide_eq_true (BitVec.isLt _)
  have haddr : fitsHalf (addrField w) = true := decide_eq_true (BitVec.isLt _)
  have hlow : fitsHalf (lowField w) = true := decide_eq_true (BitVec.isLt _)
  cases o <;> simp [Opcode.build, Instr.wellFormed, hha, hhb, hslot, himm, haddr, hlow]

/-- A word is its bits under a mask and its bits outside it. -/
theorem eq_of_and_eq {x y m : CmdWord} (h1 : x &&& m = y &&& m) (h2 : x &&& ~~~m = y &&& ~~~m) :
    x = y := by
  ext k hk
  have under : (x &&& m)[k] = (y &&& m)[k] := by rw [h1]
  have outside : (x &&& ~~~m)[k] = (y &&& ~~~m)[k] := by rw [h2]
  cases hm : m[k]
  · simpa [hm] using outside
  · simpa [hm] using under

/-- A word of a row is the encoding of its command: the row fixes the bits under the mask, the operands the
others. -/
theorem encode_build {o : Opcode} {w : CmdWord} (hrow : w &&& o.format.mask = o.pattern) :
    encode (o.build w) = w := by
  obtain ⟨_, hmask⟩ := encodesInRow (o.build w) (wellFormed_build o w)
  rw [opcode_build] at hmask
  exact eq_of_and_eq (hmask.trans hrow.symm) (encode_build_and o w)

end Sys2Proof

namespace Sys2Proof.Claims
open Sys2Proof.Machine

/-- Settles O32: an encoding lies in its row, and its fields are the command's operands. -/
theorem decodeOfEncode : Obligations.DecodeOfEncode := by
  unfold Obligations.DecodeOfEncode
  intro i h
  obtain ⟨hop, hrow⟩ := encodesInRow i h
  rw [decode_of_row hop hrow, build_encode h]

/-- Settles O33: an accepted word lies in a row, and a word of a row is the encoding of its command. -/
theorem encodeOfDecode : Obligations.EncodeOfDecode := by
  unfold Obligations.EncodeOfDecode
  intro w i h
  obtain ⟨o, hrow, rfl⟩ := row_of_decode h
  exact ⟨wellFormed_build o w, encode_build hrow⟩

/-- Settles O34, by running the decoder on the fifteen words of 30_encoding.md R78 and on the word 0. -/
theorem specWordsDecode : Obligations.SpecWordsDecode :=
  ⟨rfl, rfl, rfl, rfl, rfl, rfl, rfl, rfl, rfl, rfl, rfl, rfl, rfl, rfl, rfl, rfl⟩

/-- A fault taken in the engine step keeps its code: the end of the step drops a pending conflict
(60_exceptions.md R121). -/
theorem endStep_raise (s : State) (c : FaultCode) :
    (s.raise c).endStep = { faulted s c with busy := false, pconf := false } := by
  rw [endStep_eq, if_neg (by simp [State.raise])]
  rfl

/-- Settles O35: a word outside every row does not decode, and the engine step takes ILLEGAL_COMMAND. -/
theorem illegalWordFaults : Obligations.IllegalWordFaults := by
  unfold Obligations.IllegalWordFaults
  intro s hb hh hrow
  obtain ⟨d, hd⟩ : ∃ d, s.fetch = .error d := by
    cases hd : s.fetch with
    | error d => exact ⟨d, rfl⟩
    | ok i =>
      obtain ⟨o, ho, _⟩ := row_of_decode hd
      exact absurd ho (hrow o)
  refine ⟨fun hs => ?_, fun rest hs => ?_⟩
  · rw [step_of_nil hs, engineStep_of_illegal hb hh hd, endStep_raise]
  · rw [step_of_cons hs, hostEvent, engineStep_of_illegal (s := { s with script := rest }) hb hh hd,
      endStep_raise]
    rfl

end Sys2Proof.Claims
end

section
/-! SUPPORT. What the commands of 40_limb_buffer_values.md compute, in the words of the statements: the
order of CMP (R86), the bit of BITSET (R84), the characters of HEX (R92) and the lists of RESIZE, LSHIFT and
RSHIFT (R81, R87, R88). -/

namespace Sys2Proof.Machine
open Sys2Proof.Claims

/-! ### `CmpLex` (R86) -/

theorem getD_concat (L : List Nat) (x i : Nat) :
    (L ++ [x]).getD i 0 = if i = L.length then x else L.getD i 0 := by
  rcases Nat.lt_trichotomy i L.length with h | rfl | h
  · rw [List.getD_append _ _ _ _ h, if_neg (Nat.ne_of_lt h)]
  · simp
  · rw [if_neg (Nat.ne_of_gt h), List.getD_eq_default _ _ (Nat.le_of_lt h),
      List.getD_eq_default _ _ (by simpa using h)]

/-- Of two lists of one length, the first limb from the top in which they differ decides. -/
theorem cmpFrom_reverse_eq_lt {A B : List Nat} (hl : A.length = B.length) :
    cmpFrom A.reverse B.reverse = .lt ↔ ∃ i, i < A.length ∧ A.getD i 0 < B.getD i 0 ∧
      ∀ j, i < j → j < A.length → A.getD j 0 = B.getD j 0 := by
  induction A using List.reverseRecOn generalizing B with
  | nil => simp [cmpFrom]
  | append_singleton A x ih =>
    obtain ⟨B, y, rfl⟩ := List.eq_nil_or_concat' B |>.resolve_left (by rintro rfl; simp at hl)
    replace hl : A.length = B.length := by simpa using hl
    simp only [List.reverse_append, List.reverse_singleton, List.singleton_append, cmpFrom, getD_concat,
      List.length_append, List.length_singleton, ← hl]
    rcases Nat.lt_trichotomy x y with h | rfl | h
    · rw [if_neg (Nat.not_lt_of_gt h), if_pos h]
      exact ⟨fun _ => ⟨A.length, by omega, by simpa using h, fun j hij hj => by omega⟩, fun _ => rfl⟩
    · rw [if_neg (Nat.lt_irrefl x), if_neg (Nat.lt_irrefl x), ih hl]
      constructor
      · rintro ⟨i, hi, hlt, heq⟩
        refine ⟨i, by omega, by simpa [hi.ne] using hlt, fun j hij hj => ?_⟩
        split
        · rfl
        · exact heq j hij (by omega)
      · rintro ⟨i, hi, hlt, heq⟩
        have hne : i ≠ A.length := by rintro rfl; simp at hlt
        exact ⟨i, by omega, by simpa [hne] using hlt, fun j hij hj => by
          simpa [hj.ne] using heq j hij (by omega)⟩
    · rw [if_pos h]
      refine iff_of_false nofun ?_
      rintro ⟨i, hi, hlt, heq⟩
      by_cases htop : i = A.length
      · simp only [htop, if_true] at hlt
        omega
      · have hxy := heq A.length (by omega) (by omega)
        simp only [if_true] at hxy
        omega

/-- CMP answers "below" exactly in the order of the statements. -/
theorem cmpLex_eq_lt {A B : List Nat} : cmpLex A B = .lt ↔ LexLess A B := by
  unfold cmpLex LexLess
  rcases Nat.lt_trichotomy A.length B.length with h | h | h
  · simp [h, Nat.not_lt_of_gt h]
  · rw [if_neg (by omega), if_neg (by omega), cmpFrom_reverse_eq_lt h]
    simp [h]
  · simp [h, Nat.not_lt_of_gt h, Nat.ne_of_gt h]

theorem cmpFrom_swap (A B : List Nat) : cmpFrom B A = (cmpFrom A B).swap := by
  induction A generalizing B with
  | nil => cases B <;> rfl
  | cons x A ih =>
    cases B with
    | nil => rfl
    | cons y B =>
      simp only [cmpFrom, ih]
      rcases Nat.lt_trichotomy x y with h | rfl | h
      · simp [h, Nat.not_lt_of_gt h]
      · simp
      · simp [h, Nat.not_lt_of_gt h]

theorem cmpLex_swap (A B : List Nat) : cmpLex B A = (cmpLex A B).swap := by
  simp only [cmpLex, cmpFrom_swap A.reverse]
  rcases Nat.lt_trichotomy A.length B.length with h | h | h
  · simp [h, Nat.not_lt_of_gt h]
  · simp [h]
  · simp [h, Nat.not_lt_of_gt h]

theorem cmpLex_eq_gt {A B : List Nat} : cmpLex A B = .gt ↔ LexLess B A := by
  rw [← cmpLex_eq_lt, cmpLex_swap A]
  cases cmpLex A B <;> decide

@[simp] theorem cmpLex_self (A : List Nat) : cmpLex A A = .eq := by
  have hswap := cmpLex_swap A A
  cases h : cmpLex A A with
  | eq => rfl
  | lt => rw [h] at hswap; cases hswap
  | gt => rw [h] at hswap; cases hswap

/-! ### One bit (R84) -/

theorem bitAt_eq (w : Nat) (L : List Nat) (i : Nat) :
    bitAt w L i = if (L.getD (i / w) 0).testBit (i % w) then 1 else 0 := by
  rw [bitAt, Nat.shiftRight_eq_div_pow, ← Nat.toNat_testBit, Bool.toNat, Bool.cond_eq_ite]

/-! ### The bytes of SAVE (R91) and the characters of HEX (R92) -/

theorem toBE_getElem?_mod {v n i : Nat} (h : i < n) :
    (toBE v n)[i]? = some (BitVec.ofNat 8 (v / 256 ^ (n - 1 - i) % 256)) := by
  rw [toBE_getElem? h, Option.some.injEq]
  exact BitVec.eq_of_toNat_eq (by simp)

theorem hexChar_eq_hexDigit (x : Nat) : hexChar x = hexDigit x := by
  unfold hexChar hexDigit
  split
  · rfl
  · rw [show 0x41 + (x - 10) = 55 + x by omega]

/-- Character `i` is the high or the low half of byte `i / 2`. -/
theorem hexText_getElem? (bs : List Byte) (i : Nat) :
    (hexText bs)[i]? = bs[i / 2]?.map fun b => hexDigit (b.toNat / 16 ^ (1 - i % 2) % 16) := by
  induction bs generalizing i with
  | nil => rfl
  | cons b bs ih =>
    have hcons : hexText (b :: bs) = hexDigit (b.toNat / 16) :: hexDigit (b.toNat % 16) :: hexText bs := by
      simp [hexText, hexChar_eq_hexDigit]
    rw [hcons]
    match i with
    | 0 =>
      have hhigh : b.toNat / 16 % 16 = b.toNat / 16 := Nat.mod_eq_of_lt (by omega)
      simp [hhigh]
    | 1 => simp
    | i + 2 => simp [ih]

/-- A half of the byte of weight `256^m` is the hexadecimal digit of weight `16^(2m)` or `16^(2m+1)`. -/
theorem half_byte_eq {k : Nat} (hk : k ≤ 1) (v m : Nat) :
    v / 256 ^ m % 256 / 16 ^ k % 16 = v / 16 ^ (2 * m + k) % 16 := by
  rw [show (256 : Nat) = 16 ^ 2 by decide, ← Nat.pow_mul, Nat.pow_add, ← Nat.div_div_eq_div_mul]
  generalize v / 16 ^ (2 * m) = x
  interval_cases k <;> omega

theorem hexText_toBE_getElem? {v n i : Nat} (h : i < 2 * n) :
    (hexText (toBE v n))[i]? = some (hexDigit (v / 16 ^ (2 * n - 1 - i) % 16)) := by
  rw [hexText_getElem?, toBE_getElem? (by omega)]
  simp only [Option.map_some, BitVec.toNat_ofNat]
  rw [half_byte_eq (by omega), show 2 * (n - 1 - i / 2) + (1 - i % 2) = 2 * n - 1 - i by omega]

theorem byteAt_memWrite (s : State) (addr : Nat) (bs : List Byte) (a : Nat) :
    (s.memWrite addr bs).byteAt a =
      if addr ≤ a ∧ a < addr + bs.length then bs[a - addr]? else s.byteAt a :=
  memGet_memSetList s.buf addr bs a

theorem byteAt_memWrite_toBE (s : State) (addr v n a : Nat) :
    (s.memWrite addr (toBE v n)).byteAt a = if addr ≤ a ∧ a < addr + n
      then some (BitVec.ofNat 8 (v / 256 ^ (addr + n - 1 - a) % 256)) else s.byteAt a := by
  rw [byteAt_memWrite, toBE_length]
  split
  · rw [toBE_getElem?_mod (by omega), show n - 1 - (a - addr) = addr + n - 1 - a by omega]
  · rfl

theorem byteAt_memWrite_hexText (s : State) (addr v n a : Nat) :
    (s.memWrite addr (hexText (toBE v n))).byteAt a = if addr ≤ a ∧ a < addr + 2 * n
      then some (hexDigit (v / 16 ^ (addr + 2 * n - 1 - a) % 16)) else s.byteAt a := by
  rw [byteAt_memWrite, hexText_length, toBE_length]
  split
  · rw [hexText_toBE_getElem? (by omega), show 2 * n - 1 - (a - addr) = addr + 2 * n - 1 - a by omega]
  · rfl

/-! ### The lists of RESIZE, LSHIFT and RSHIFT (R81, R87, R88) -/

theorem resize_eq (e : Entry) (n : Nat) (fill : Limb) :
    (if n > e.len then e.limbs ++ List.replicate (n - e.len) fill else e.limbs.take n) =
      e.limbs.take n ++ List.replicate (n - e.len) fill := by
  split
  next h => rw [List.take_of_length_le (Nat.le_of_lt h)]
  next h => rw [Nat.sub_eq_zero_of_le (Nat.le_of_not_gt h), List.replicate_zero, List.append_nil]

theorem putLimbs_lshift (n : Nat) (L : List Nat) :
    putLimbs (List.replicate n 0 ++ L) = List.replicate n (some 0) ++ putLimbs L := by simp [putLimbs]

theorem putLimbs_rshift (n : Nat) (L : List Nat) :
    putLimbs (if L.length ≤ n then [0] else L.drop n) =
      if (putLimbs L).length ≤ n then [some 0] else (putLimbs L).drop n := by
  rw [putLimbs_length]
  split
  · rfl
  · exact List.map_drop

end Sys2Proof.Machine
end

section
/-! SUPPORT. The value commands of 40_limb_buffer_values.md against their rules, one check at a time: O7, O8,
O10, O11, O14 to O21. -/

namespace Sys2Proof.Claims
open Sys2Proof.Machine

/-! ### What a command leaves -/

/-- An entry written whole, and its handle in RES. -/
theorem wroteReceiver_setEntry {s : State} {ha : Nat} (e : Entry) (hv : s.validHandle ha = true) :
    WroteReceiver s ((s.setEntry ha e).setRes (busNat ha)) ha e := by
  refine ⟨⟨by simp, fun x => ?_⟩, rfl, rfl⟩
  rw [State.entry_setRes, State.entry_setEntry e (lt_of_valid hv), oneEntry]

/-- A handle in RES, and its entry as it was. -/
theorem wroteReceiver_setRes (s : State) (ha : Nat) :
    WroteReceiver s (s.setRes (busNat ha)) ha (s.entry ha) := by
  refine ⟨⟨rfl, fun x => ?_⟩, rfl, rfl⟩
  rw [State.entry_setRes, oneEntry]
  split
  next hx => rw [hx]
  next => rfl

theorem wroteResult_setRes (s : State) (v : BusWord) : WroteResult s (s.setRes v) v := ⟨rfl, rfl⟩

/-- The handle AllocHandle takes is in the table and holds no value (10_state.md R38, R43). -/
theorem NextHandle.holds_no_value {s : State} {h : Nat} (hs : s.DataInv) (hn : NextHandle s h) :
    h < s.table.length ∧ (s.entry h).holds = false := by
  cases hf : s.free with
  | nil =>
    simp only [NextHandle, hf] at hn
    obtain ⟨hlt, hst, -⟩ := hn
    exact ⟨hs.tableLength ▸ hlt, by simp [Entry.holds, hst]⟩
  | cons y fl =>
    simp only [NextHandle, hf] at hn
    have hst : (s.entry h).st = .free := (hs.freeExact h).1 (by simp [hf, hn])
    exact ⟨State.lt_of_ne_unused (by simp [hst]), by simp [Entry.holds, hst]⟩

theorem NextHandle.ne_of_valid {s : State} {h x : Nat} (hs : s.DataInv) (hn : NextHandle s h)
    (hv : s.validHandle x = true) : h ≠ x := by
  rintro rfl
  exact absurd (State.holds_of_valid hv) (by simp [(hn.holds_no_value hs).2])

/-- What AllocHandle leaves, once the value of its handle is written (10_state.md R38, R40). -/
theorem setValue_of_allocHandle {s t : State} {h : Nat} (e : s.allocHandle = .ok (h, t)) (L : List Limb) :
    t.setValue h L = { s with free := s.free.tail }.setEntry h (owned L) := by
  rcases s.allocHandle_cases with ⟨_, _, hf, _, e'⟩ | ⟨_, _, _, _, e'⟩ | ⟨_, hf, _, e'⟩ | ⟨_, _, e'⟩ <;>
    rw [e'] at e <;> cases e <;> rw [setValue_setEntry_fresh]
  · rw [hf]; rfl
  · have htail : { s with free := s.free.tail } = s := by cases s; subst hf; rfl
    rw [htail]

theorem allocated_setValue {s t : State} {h : Nat} (hs : s.DataInv) (hn : NextHandle s h)
    (e : s.allocHandle = .ok (h, t)) (L : List Limb) :
    Allocated s ((t.setValue h L).setRes (busNat h)) h L := by
  obtain ⟨hlt, -⟩ := hn.holds_no_value hs
  rw [setValue_of_allocHandle e]
  exact ⟨hn, ⟨by simp, State.entry_setEntry (s := { s with free := s.free.tail }) (owned L) hlt⟩,
    rfl, rfl, rfl⟩

/-! ### Rules that name a value beside the next state -/

section Named
variable {α : Type} {s : State} {r : Except FaultCode State} {L : List (Bool × FaultCode)}
  {P : State → α → Prop}

theorem Checked.named (h : Checked s r L fun t => ∃ x, P t x) :
    (∀ c, firstFault L = some c → finishCommand s r = .next (faulted s c)) ∧
      (firstFault L = none → ∃ t x, finishCommand s r = .next t ∧ P t x) := by
  refine ⟨h.1, fun hL => ?_⟩
  obtain ⟨t, ht, x, hx⟩ := h.2 hL
  exact ⟨t, x, ht, hx⟩

/-- The same with a premise `I` for the effect, and none for the faults. -/
theorem Checked.named_of {I : Prop} (h : Checked s r L fun t => I → ∃ x, P t x) :
    (∀ c, firstFault L = some c → finishCommand s r = .next (faulted s c)) ∧
      (I → firstFault L = none → ∃ t x, finishCommand s r = .next t ∧ P t x) := by
  refine ⟨h.1, fun hI hL => ?_⟩
  obtain ⟨t, ht, hP⟩ := h.2 hL
  obtain ⟨x, hx⟩ := hP hI
  exact ⟨t, x, ht, hx⟩

end Named

/-! ### BUF (R91, R92) -/

/-- Settles O7: the bytes of `toBE` by their weights. -/
theorem saveRule : Obligations.SaveRule :=
  ⟨fun _ _ _ => ⟨rfl, rfl⟩, fun _ _ _ _ => Checked.context fun _ => Checked.handle fun _ =>
    Checked.need (by simp) fun _ => Checked.need (by simp) fun _ => Checked.readable fun _ =>
      Checked.need (decide_eq_true_iff.trans Nat.not_lt.symm) fun _ =>
        Checked.done ⟨byteAt_memWrite_toBE _ _ _ _, rfl, rfl⟩⟩

/-- Settles O8: each byte of the value is two hexadecimal digits of it. -/
theorem hexRule : Obligations.HexRule :=
  ⟨fun _ _ => ⟨rfl, rfl⟩, fun _ _ _ => Checked.named <| Checked.context fun _ => Checked.handle fun _ =>
    Checked.need (decide_eq_true_iff.trans Nat.not_le.symm) fun _ => Checked.readable fun _ =>
      Checked.done ⟨_, rfl, byteAt_memWrite_hexText _ _ _ _, rfl, rfl⟩⟩

/-! ### Ownership (R89, R90) -/

/-- Settles O10, for a LIVE entry and for a PERM one. -/
theorem copyRule : Obligations.CopyRule := by
  refine ⟨fun _ => ⟨rfl, rfl⟩, fun s ha => Checked.context fun _ => Checked.handle fun hv =>
    Checked.need (by simp) fun _ => Checked.done ?_⟩
  split
  · exact wroteReceiver_setEntry _ hv
  · exact wroteReceiver_setRes s ha

/-- Settles O11: the handle AllocHandle takes holds no value, so it is not HA. -/
theorem cloneRule : Obligations.CloneRule :=
  ⟨fun _ => ⟨rfl, rfl⟩, fun _ _ => Checked.named_of <| Checked.context fun _ => Checked.handle fun hv =>
    Checked.alloc fun _ _ hn e => Checked.done fun hs =>
      ⟨_, (hn hs.tableLength).ne_of_valid hs hv, allocated_setValue hs (hn hs.tableLength) e _⟩⟩

/-! ### Structure (R81, R82, R87, R88) -/

/-- Settles O14: one list for growing and for shrinking. -/
theorem resizeRule : Obligations.ResizeRule := by
  refine ⟨fun _ _ _ => ⟨rfl, rfl⟩, fun s ha skip n => Checked.context fun _ =>
    Checked.receiver fun hv hp hr => Checked.need (by simp) fun _ => Checked.need (by simp) fun _ =>
      Checked.done ?_⟩
  simp only [resize_eq]
  exact wroteReceiver_setValue _ hv hp hr

/-- Settles O15. -/
theorem trimRule : Obligations.TrimRule :=
  ⟨fun _ => ⟨rfl, rfl⟩, fun _ _ => Checked.context fun _ => Checked.receiver fun hv hp hr =>
    Checked.readable fun _ => Checked.done (wroteReceiver_result _ hv hp hr)⟩

/-- Settles O16. -/
theorem lshiftRule : Obligations.LshiftRule := by
  refine ⟨fun _ _ => ⟨rfl, rfl⟩, fun s ha n => Checked.context fun _ => Checked.receiver fun hv hp hr =>
    Checked.readable fun hd => Checked.need (by simp [limbsOf_length hd]) fun _ => Checked.done ?_⟩
  rw [limbs_of_not_poison hd, ← putLimbs_lshift]
  exact wroteReceiver_setValue _ hv hp hr

/-- Settles O17. -/
theorem rshiftRule : Obligations.RshiftRule := by
  refine ⟨fun _ _ => ⟨rfl, rfl⟩, fun s ha n => Checked.context fun _ => Checked.receiver fun hv hp hr =>
    Checked.readable fun hd => Checked.done ?_⟩
  rw [lenOf, limbs_of_not_poison hd, ← putLimbs_rshift]
  exact wroteReceiver_setValue _ hv hp hr

/-! ### Inspection (R83 to R86) -/

/-- Settles O18: NULL is answered before the handle checks. -/
theorem iszeroRule : Obligations.IszeroRule := by
  refine ⟨fun _ => ⟨rfl, rfl⟩, fun s ha => Checked.context fun _ => ?_⟩
  by_cases hnull : ha = 0xFF
  · subst hnull
    exact Checked.done ⟨fun _ => wroteResult_setRes s 1, fun h => absurd rfl h⟩
  · rw [if_neg hnull, if_neg (show ha ≠ nullHandle from hnull)]
    exact Checked.handle fun _ => Checked.readable fun _ => Checked.done
      ⟨fun h => absurd h hnull, fun _ => by simpa using wroteResult_setRes s _⟩

/-- Settles O19. -/
theorem bitsetRule : Obligations.BitsetRule := by
  refine ⟨fun _ _ => ⟨rfl, rfl⟩, fun s ha i => Checked.context fun _ => Checked.handle fun _ =>
    Checked.need (decide_eq_true_iff.trans Nat.not_lt.symm) fun _ => Checked.readable fun _ =>
      Checked.done ⟨?_, rfl⟩⟩
  rw [State.setRes_res, bitAt_eq]
  split <;> rfl

/-- Settles O20: the bit length is the least such `n`. -/
theorem bitcountRule : Obligations.BitcountRule :=
  ⟨fun _ => ⟨rfl, rfl⟩, fun s _ => Checked.named <| Checked.context fun _ => Checked.handle fun _ =>
    Checked.readable fun _ => Checked.done ⟨_, fun _ => bitLength_le.symm, wroteResult_setRes s _⟩⟩

/-- Settles O21: the three answers of CmpLex are the three cases of the order. -/
theorem cmpRule : Obligations.CmpRule := by
  refine ⟨fun _ _ => ⟨rfl, rfl⟩, fun s ha hb => Checked.context fun _ => Checked.handle fun _ =>
    Checked.handle fun _ => Checked.readable fun _ => Checked.readable fun _ =>
      Checked.done ⟨fun habove => ?_, fun hequal => ?_, fun hbelow => ?_⟩⟩
  · rw [cmpLex_eq_gt.2 habove]; exact wroteResult_setRes s _
  · rw [hequal, cmpLex_self]; exact wroteResult_setRes s _
  · rw [cmpLex_eq_lt.2 hbelow]; exact wroteResult_setRes s _

end Sys2Proof.Claims
end

section
/-! SUPPORT. ADD against its rule (41_modular_adder.md R93): O22. -/

namespace Sys2Proof.Claims
open Sys2Proof.Machine

/-- The checks that ADD, SUB, MUL and DIV make before their own: the receiver, HB, and both values read as
data (10_state.md R41, R42, R21). -/
theorem Checked.consuming {s : State} {ha hb : Nat} {k : List Nat → List Nat → Except FaultCode State}
    {L : List (Bool × FaultCode)} {P : State → Prop}
    (h : s.validHandle ha = true → (s.entry ha).st ≠ .perm → (s.entry ha).rc = 1 →
      s.validHandle hb = true → hb ≠ ha → poison s ha = false → poison s hb = false →
      Checked s (k (limbsOf s ha) (limbsOf s hb)) L P) :
    Checked s (s.needContext >>= fun _ => s.receiver ha >>= fun ea => s.consumed ha hb >>= fun eb =>
      ea.readable >>= fun A => eb.readable >>= fun B => k A B) (consumingChecks s ha hb ++ L) P :=
  Checked.context fun _ => Checked.receiver fun hv hp hr => Checked.consumed fun hw hne =>
    Checked.readable fun hda => Checked.readable fun hdb => h hv hp hr hw hne hda hdb

/-- Settles O22: the capacity check is on the lengths of the operands, and `result` trims the exact sum. -/
theorem addRule : Obligations.AddRule :=
  ⟨fun _ _ => ⟨rfl, rfl⟩, fun _ _ _ => Checked.consuming fun hv hp hr hw hne hda hdb =>
    Checked.need
      (by rw [limbsOf_length hda, limbsOf_length hdb]; exact decide_eq_true_iff.trans Nat.not_le.symm)
      fun _ => Checked.done (wroteAndConsumed_result _ hv hp hr hw hne)⟩

end Sys2Proof.Claims
end

section
/-! SUPPORT. SUB against its rule (42_modular_subtractor.md R94): O23. -/

namespace Sys2Proof.Claims
open Sys2Proof.Machine

/-- A release does not read NEG. -/
theorem releaseHandle_withNeg (s : State) (n : Bool) (h : Nat) :
    { s with neg := n }.releaseHandle h = { s.releaseHandle h with neg := n } := by
  have hentry : { s with neg := n }.entry h = s.entry h := rfl
  simp only [State.releaseHandle, hentry]
  split
  · rfl
  · split <;> rfl

/-- The absolute difference as a sum of truncated differences, one of which is 0. -/
theorem absDiff_eq (a b : Nat) : (if a ≥ b then a - b else b - a) = (a - b) + (b - a) := by
  split <;> omega

/-- Settles O23: SUB ends as ADD does, with the absolute difference in HA, and NEG is written beside it. -/
theorem subRule : Obligations.SubRule := by
  refine ⟨fun _ _ => ⟨rfl, rfl⟩, fun s ha hb => Checked.consuming (L := []) fun hv hp hr hw hne _ _ =>
    Checked.done ?_⟩
  rw [releaseHandle_withNeg, absDiff_eq]
  obtain ⟨htable, hfree, hres, hrest⟩ := wroteAndConsumed_result
    ((valueOf s ha - valueOf s hb) + (valueOf s hb - valueOf s ha)) hv hp hr hw hne
  exact ⟨htable, hfree, hres, rfl, congrArg (fun u => { u with neg := s.neg }) hrest⟩

end Sys2Proof.Claims
end

section
/-! SUPPORT. MUL and IMUL against their rules (43_multi_limb_multiplier.md R95, R96): O24, O25. -/

namespace Sys2Proof.Claims
open Sys2Proof.Machine

/-- The capacity check of a rule, on lengths of limbs read as data, is the one on the stored lengths. -/
theorem Checked.capacity {s : State} {n m : Nat} {k : Unit → Except FaultCode State}
    {L : List (Bool × FaultCode)} {P : State → Prop} (hlen : n = m) (h : Checked s (k ()) L P) :
    Checked s (s.capacity n >>= k) ((decide (s.par.lmax < m), .capacity) :: L) P := by
  subst hlen
  exact Checked.need (decide_eq_true_iff.trans Nat.not_le.symm) fun _ => h

/-- Settles O24: the capacity check is on the lengths of the operands, and `result` trims the exact product. -/
theorem mulRule : Obligations.MulRule :=
  ⟨fun _ _ => ⟨rfl, rfl⟩, fun _ _ _ => Checked.consuming fun hv hp hr hw hne hda hdb =>
    Checked.capacity (by rw [limbsOf_length hda, limbsOf_length hdb]) <|
      Checked.done (wroteAndConsumed_result _ hv hp hr hw hne)⟩

/-- Settles O25: the limb is checked before HA is read as data, and `result` trims the exact product. -/
theorem imulRule : Obligations.ImulRule :=
  ⟨fun _ _ => ⟨rfl, rfl⟩, fun _ _ _ => Checked.context fun _ => Checked.receiver fun hv hp hr =>
    Checked.need (decide_eq_true_iff.trans Nat.not_lt.symm) fun _ => Checked.readable fun hd =>
      Checked.capacity (by rw [limbsOf_length hd]) <| Checked.done (wroteReceiver_result _ hv hp hr)⟩

end Sys2Proof.Claims
end

section
/-! SUPPORT. DIV, DIV.M and IDIV against their rules (44_knuth_divider.md R97, R98): O26, O27. -/

namespace Sys2Proof.Claims
open Sys2Proof.Machine

/-- A receiver written in place stays written when HB is released (10_state.md R40, R42). -/
theorem WroteReceiver.release {s t : State} {ha hb : Nat} {e : Entry} (h : WroteReceiver s t ha e)
    (hw : s.validHandle hb = true) (hne : hb ≠ ha) :
    WroteAndConsumed s (t.releaseHandle hb) ha hb e := by
  obtain ⟨⟨hlen, hentry⟩, hres, hrest⟩ := h
  have hb' : t.entry hb = s.entry hb := by rw [hentry, oneEntry, if_neg hne]
  have hfree : t.free = s.free := (congrArg State.free hrest :)
  refine ⟨⟨by rw [length_releaseHandle, hlen], fun x => ?_⟩, ?_, by rw [res_releaseHandle, hres], ?_⟩
  · rw [entry_releaseHandle (hlen ▸ lt_of_valid hw), hb', hentry, oneEntry, afterConsuming]
    by_cases hx : x = hb
    · rw [if_pos hx, hx, if_neg hne, if_pos rfl]
    · rw [if_neg hx, if_neg hx]
  · rw [free_releaseHandle, releasedFree, releasedFree, hb', hfree]
  · calc { t.releaseHandle hb with table := s.table, free := s.free, res := s.res }
      _ = { t with table := s.table, free := s.free, res := s.res } :=
          congrArg (fun u : State => { u with table := s.table, free := s.free, res := s.res })
            (t.releaseHandle_frame hb)
      _ = s := hfree ▸ hrest

/-- Settles O26: the quotient, the receiver that step 1 leaves untouched, and the remainder. -/
theorem divRule : Obligations.DivRule := by
  refine ⟨fun _ _ _ => ⟨rfl, rfl⟩, fun s ha hb mod => Checked.named <|
    Checked.consuming fun hv hp hr hw hne _ _ => Checked.need (by simp [topLimb]) fun _ =>
      Checked.done ?_⟩
  cases mod
  · exact ⟨_, wroteAndConsumed_result _ hv hp hr hw hne, fun _ => rfl, nofun, nofun⟩
  · by_cases hlt : LexLess (limbsOf s ha) (limbsOf s hb)
    · rw [if_pos rfl, if_pos (cmpLex_eq_lt.2 hlt)]
      exact ⟨_, (wroteReceiver_setRes s ha).release hw hne, nofun, fun _ _ => rfl,
        fun _ h => absurd hlt h⟩
    · rw [if_pos rfl, if_neg (mt cmpLex_eq_lt.1 hlt)]
      exact ⟨_, wroteAndConsumed_result _ hv hp hr hw hne, nofun, fun _ h => absurd h hlt,
        fun _ _ => rfl⟩

/-- Settles O27: the limb is checked before HA is read as data, and against 0 after it. -/
theorem idivRule : Obligations.IdivRule :=
  ⟨fun _ _ => ⟨rfl, rfl⟩, fun _ _ _ => Checked.context fun _ => Checked.receiver fun hv hp hr =>
    Checked.need (decide_eq_true_iff.trans Nat.not_lt.symm) fun _ => Checked.readable fun _ =>
      Checked.need (by simp) fun _ => Checked.done (wroteReceiver_result _ hv hp hr)⟩

end Sys2Proof.Claims
end

section
/-! SUPPORT. The limbs of a list by weight, and the order of CMP against the values (00_scope.md R13,
40_limb_buffer_values.md R86). -/

namespace Sys2Proof.Machine
open Sys2Proof.Claims

/-- `val` is Mathlib's `Nat.ofDigits`. -/
theorem val_eq_ofDigits (r : Nat) (L : List Nat) : val r L = Nat.ofDigits r L := by
  induction L with
  | nil => rfl
  | cons x L ih => rw [val, ih, Nat.ofDigits_cons]

section Limbs
variable {r : Nat} {L : List Nat}

theorem val_take (hr : 0 < r) (hL : ∀ x ∈ L, x < r) (n : Nat) : val r (L.take n) = val r L % r ^ n := by
  rw [val_eq_ofDigits, val_eq_ofDigits, Nat.ofDigits_mod_pow_eq_ofDigits_take n hr L hL]

theorem val_drop (hr : 0 < r) (hL : ∀ x ∈ L, x < r) (n : Nat) : val r (L.drop n) = val r L / r ^ n := by
  rw [val_eq_ofDigits, val_eq_ofDigits, Nat.ofDigits_div_pow_eq_ofDigits_drop n hr L hL]

/-- The lowest limb of what is left after `i` limbs. -/
theorem val_drop_succ (r : Nat) (L : List Nat) (i : Nat) :
    val r (L.drop i) = L.getD i 0 + r * val r (L.drop (i + 1)) := by
  by_cases hi : i < L.length
  · rw [List.drop_eq_getElem_cons hi, val, List.getD_eq_getElem _ _ hi]
  · rw [List.drop_eq_nil_of_le (by omega), List.drop_eq_nil_of_le (by omega),
      List.getD_eq_default _ _ (by omega)]
    rfl

theorem getD_lt (hr : 0 < r) (hL : ∀ x ∈ L, x < r) (i : Nat) : L.getD i 0 < r := by
  by_cases hi : i < L.length
  · exact List.getD_eq_getElem L 0 hi ▸ hL _ (List.getElem_mem hi)
  · rwa [List.getD_eq_default _ _ (Nat.le_of_not_lt hi)]

theorem topLimb_eq (hr : 0 < r) (hL : ∀ x ∈ L, x < r) : topLimb L = val r L / r ^ (L.length - 1) := by
  rcases List.eq_nil_or_concat' L with rfl | ⟨A, x, rfl⟩
  · simp [topLimb, val]
  · rw [← val_drop hr hL, topLimb, List.getLastD_concat, List.length_append, List.length_singleton,
      Nat.add_sub_cancel, List.drop_left, val, val, Nat.mul_zero, Nat.add_zero]

/-- A list with a nonzero top limb is not empty. -/
theorem ne_nil_of_topLimb (h : topLimb L ≠ 0) : L ≠ [] := by
  rintro rfl
  exact h rfl

theorem pow_le_val (hL : ∀ x ∈ L, x < r) (h : topLimb L ≠ 0) : r ^ (L.length - 1) ≤ val r L :=
  (getLastD_ne_zero_iff (ne_nil_of_topLimb h) hL).1 h

/-- The order of CMP is the order of the values when the larger list has a nonzero top limb. -/
theorem val_lt_of_lexLess {A B : List Nat} (hr : 0 < r) (hA : ∀ x ∈ A, x < r) (hB : ∀ x ∈ B, x < r)
    (htop : topLimb B ≠ 0) (h : LexLess A B) : val r A < val r B := by
  rcases h with hlen | ⟨hlen, i, hi, hlt, heq⟩
  · calc val r A
      _ < r ^ A.length := val_lt hA
      _ ≤ r ^ (B.length - 1) := Nat.pow_le_pow_right hr (by omega)
      _ ≤ val r B := pow_le_val hB htop
  · have habove : A.drop (i + 1) = B.drop (i + 1) := by
      refine List.ext_getElem (by simp [hlen]) fun n h1 h2 => ?_
      rw [List.length_drop] at h1 h2
      have hn := heq (i + 1 + n) (by omega) (by omega)
      rwa [List.getD_eq_getElem _ _ (by omega), List.getD_eq_getElem _ _ (by omega),
        ← List.getElem_drop, ← List.getElem_drop] at hn
    refine Nat.lt_of_div_lt_div (c := r ^ i) ?_
    rw [← val_drop hr hA, ← val_drop hr hB, val_drop_succ r A, val_drop_succ r B, habove]
    exact Nat.add_lt_add_right hlt _

end Limbs

end Sys2Proof.Machine
end

section
/-! SUPPORT. The results of DIV and DIV.M from one state: O49 (44_knuth_divider.md R98). -/

namespace Sys2Proof.Claims
open Sys2Proof.Machine

/-- The limbs of any entry of a sound state are below RADIX. -/
theorem limbsOf_lt {s : State} (hs : s.DataInv) (h : Nat) : ∀ x ∈ limbsOf s h, x < s.par.radix := by
  intro x hx
  replace hx : some x ∈ (s.entry h).limbs := by simpa [limbsOf] using hx
  have hok := hs.entries h
  cases hst : (s.entry h).st with
  | unused => simp only [Entry.Ok, hst] at hok; rw [hok] at hx; cases hx
  | free => simp only [Entry.Ok, hst] at hok; rw [hok] at hx; cases hx
  | live => exact ((Entry.ok_of_live hst).1 hok).2.limbs x hx
  | perm => exact ((Entry.ok_of_perm hst).1 hok).limbs x hx

/-- The value of a receiver written in place (10_state.md R40). -/
theorem valueOf_of_inPlace {s t : State} {h v : Nat} (hw : 0 < s.par.w) (hp : t.par = s.par)
    (he : t.entry h = inPlace s v) : valueOf t h = v := by
  rw [valueOf, limbsOf, he, hp, inPlace, owned, List.filterMap_map, Function.id_comp, List.filterMap_some,
    val_trimmed hw]

theorem valueOf_congr {s t : State} {h : Nat} (hp : t.par = s.par) (he : t.entry h = s.entry h) :
    valueOf t h = valueOf s h := by
  rw [valueOf, limbsOf, he, hp, valueOf, limbsOf]

/-- A command that consumed HB wrote HA and did not halt the engine. -/
theorem WroteAndConsumed.receiver {s t : State} {ha hb : Nat} {e : Entry}
    (h : WroteAndConsumed s t ha hb e) : t.entry ha = e ∧ t.par = s.par ∧ t.halted = s.halted := by
  obtain ⟨⟨-, hentry⟩, -, -, hrest⟩ := h
  exact ⟨by rw [hentry, afterConsuming, if_pos rfl], (congrArg State.par hrest :),
    (congrArg State.halted hrest :)⟩

/-- DIV that does not halt the engine has passed its checks. -/
theorem divChecks_pass {s t : State} {ha hb : Nat} {mod : Bool} (h : exec (.div ha hb mod) s = .next t)
    (ht : t.halted = false) : firstFault (divChecks s ha hb) = none := by
  cases hc : firstFault (divChecks s ha hb) with
  | none => rfl
  | some c =>
    cases h.symm.trans ((divRule.2 s ha hb mod).1 c hc)
    cases ht

theorem topLimb_of_divChecks {s : State} {ha hb : Nat} (h : firstFault (divChecks s ha hb) = none) :
    topLimb (limbsOf s hb) ≠ 0 :=
  of_decide_eq_false <| firstFault_eq_none.1 h (decide (topLimb (limbsOf s hb) = 0), .divideByZero)
    (List.mem_append_right _ (List.mem_singleton.2 rfl))

/-- What DIV.M leaves in HA is the remainder, also where step 1 leaves HA untouched. -/
theorem valueOf_remainder {s r : State} {ha hb : Nat} {e : Entry} (hs : s.DataInv)
    (htop : topLimb (limbsOf s hb) ≠ 0) (hr : WroteAndConsumed s r ha hb e)
    (hless : LexLess (limbsOf s ha) (limbsOf s hb) → e = s.entry ha)
    (hmod : ¬ LexLess (limbsOf s ha) (limbsOf s hb) → e = inPlace s (valueOf s ha % valueOf s hb)) :
    valueOf r ha = valueOf s ha % valueOf s hb := by
  obtain ⟨hentry, hpar, -⟩ := hr.receiver
  by_cases hlt : LexLess (limbsOf s ha) (limbsOf s hb)
  · have hval : valueOf s ha < valueOf s hb :=
      val_lt_of_lexLess (radix_pos s.par) (limbsOf_lt hs ha) (limbsOf_lt hs hb) htop hlt
    rw [valueOf_congr hpar (hentry.trans (hless hlt)), Nat.mod_eq_of_lt hval]
  · exact valueOf_of_inPlace (w_pos hs.legal) hpar (hentry.trans (hmod hlt))

/-- Settles O49, by the quotient and the remainder of `Nat`. -/
theorem divisionIdentity : Obligations.DivisionIdentity := by
  unfold Obligations.DivisionIdentity
  intro s q r ha hb hs hh hq hqh hr
  have hpass := divChecks_pass hq hqh
  have htop := topLimb_of_divChecks hpass
  obtain ⟨q', e, hq', hqw, hquot, -⟩ := (divRule.2 s ha hb false).2 hpass
  obtain ⟨r', f, hr', hrw, -, hless, hmod⟩ := (divRule.2 s ha hb true).2 hpass
  cases hq.symm.trans hq'
  cases hr.symm.trans hr'
  obtain ⟨hentry, hpar, -⟩ := hqw.receiver
  obtain ⟨-, -, hhalted⟩ := hrw.receiver
  have hpos : 0 < valueOf s hb :=
    (Nat.pow_pos (radix_pos s.par)).trans_le (pow_le_val (limbsOf_lt hs hb) htop)
  rw [valueOf_of_inPlace (w_pos hs.legal) hpar (hentry.trans (hquot rfl)),
    valueOf_remainder hs htop hrw (hless rfl) (hmod rfl)]
  exact ⟨hhalted.trans hh, (Nat.div_add_mod' _ _).symm, Nat.mod_lt _ hpos⟩

end Sys2Proof.Claims
end

section
/-! SUPPORT. Knuth's Algorithm D against the exact quotient and remainder: O51 (44_knuth_divider.md R99).
The refined estimate is the exact quotient of the three upper limbs of the window by the two upper limbs of
the divisor, cut off at `RADIX - 1`. It is at most one above the digit, so one add-back is enough. -/

namespace Sys2Proof.Machine
open Sys2Proof.Claims

/-! ### The digit estimate -/

/-- The refinement loop lowers the estimate to the quotient by two limbs, when it starts above that. -/
theorem knuthRefine_eq {r top v1 v2 lo n q : Nat} (hn : q ≤ n) (hq : q * v1 ≤ top)
    (hpos : 0 < v1 * r + v2) :
    knuthRefine r top v1 v2 lo n q = min q ((top * r + lo) / (v1 * r + v2)) := by
  induction n generalizing q with
  | zero => simp [knuthRefine, Nat.le_zero.1 hn]
  | succ n ih =>
    have htest : q * v2 > (top - q * v1) * r + lo ↔ (top * r + lo) / (v1 * r + v2) < q := by
      have hle : q * v1 * r ≤ top * r := Nat.mul_le_mul_right r hq
      rw [Nat.div_lt_iff_lt_mul hpos, Nat.sub_mul, Nat.mul_add, ← Nat.mul_assoc]
      omega
    simp only [knuthRefine, htest]
    split
    next hlt =>
      rw [ih (by omega) ((Nat.mul_le_mul_right _ (Nat.sub_le _ _)).trans hq)]
      omega
    next hle => exact (min_eq_left (Nat.le_of_not_lt hle)).symm

/-- The estimate from the two upper limbs is the quotient by the upper limb, cut off at `r - 1`, as
long as the digit fits in a limb. -/
theorem saturated_eq {r hi mid v1 : Nat} (hmid : mid < r) (hhi : hi ≤ v1) (hpos : 0 < v1) :
    (if hi = v1 then r - 1 else (hi * r + mid) / v1) = min (r - 1) ((hi * r + mid) / v1) := by
  split
  next h =>
    refine (min_eq_left ?_).symm
    rw [Nat.le_div_iff_mul_le hpos, h, Nat.mul_comm v1]
    exact (Nat.mul_le_mul_right v1 (Nat.sub_le r 1)).trans (Nat.le_add_right _ _)
  next h =>
    have hlt : (hi * r + mid) / v1 < r := by
      have hstep : (hi + 1) * r ≤ v1 * r := Nat.mul_le_mul_right r (by omega)
      rw [Nat.div_lt_iff_lt_mul hpos, Nat.mul_comm r]
      rw [Nat.add_mul] at hstep
      omega
    omega

/-- The refined estimate: what is left of the saturation is the cut-off at `r - 1`. -/
theorem refined_eq {r top v1 v2 lo q : Nat} (hlo : lo < r) (hpos : 0 < v1) (hq : q = min (r - 1) (top / v1)) :
    knuthRefine r top v1 v2 lo q q = min (r - 1) ((top * r + lo) / (v1 * r + v2)) := by
  have hv1 : 0 < v1 * r := Nat.mul_pos hpos (by omega)
  have hq' : q * v1 ≤ top := (Nat.le_div_iff_mul_le hpos).1 (hq ▸ min_le_right _ _)
  have hcross : (top * r + lo) / (v1 * r + v2) ≤ top / v1 := by
    calc (top * r + lo) / (v1 * r + v2)
      _ ≤ (top * r + lo) / (v1 * r) := Nat.div_le_div_left (Nat.le_add_right _ _) hv1
      _ = top / v1 := by
        rw [Nat.mul_comm v1, ← Nat.div_div_eq_div_mul, Nat.mul_comm top, Nat.mul_add_div (by omega),
          Nat.div_eq_of_lt hlo, Nat.add_zero]
  rw [knuthRefine_eq le_rfl hq' (by omega), hq]
  omega

/-- Dropping the limbs below from dividend and divisor gives an estimate that is not too small and, cut off
at `r - 1`, at most one too large. -/
theorem estimate_bounds {r x V R : Nat} (hR : 0 < R) (hV : 0 < V) (hx : x / V < r) (hpos : 0 < V / R)
    (hwide : R = 1 ∨ r ≤ V / R) :
    x / V ≤ min (r - 1) (x / R / (V / R)) ∧ min (r - 1) (x / R / (V / R)) ≤ x / V + 1 := by
  generalize hq : min (r - 1) (x / R / (V / R)) = q
  have hq1 : q ≤ r - 1 := hq ▸ min_le_left _ _
  have hq2 : q * (V / R) ≤ x / R := (Nat.le_div_iff_mul_le hpos).1 (hq ▸ min_le_right _ _)
  constructor
  · refine hq ▸ le_min (by omega) ?_
    rw [Nat.le_div_iff_mul_le hpos]
    calc x / V * (V / R)
      _ ≤ x / V * V / R := Nat.mul_div_le_mul_div_assoc _ _ _
      _ ≤ x / R := Nat.div_le_div_right (Nat.div_mul_le_self x V)
  · rw [← Nat.sub_le_iff_le_add, Nat.le_div_iff_mul_le hV]
    rcases hwide with rfl | hwide
    · simp only [Nat.div_one] at hq2
      exact (Nat.mul_le_mul_right V (Nat.sub_le q 1)).trans hq2
    · have hV' : V ≤ R * (V / R + 1) := (Nat.lt_mul_div_succ V hR).le
      have hdrop : (q - 1) * (V / R + 1) ≤ q * (V / R) := by
        rw [Nat.mul_succ, Nat.sub_mul]
        have : 1 * (V / R) ≤ q * (V / R) ∨ q = 0 := by
          rcases Nat.eq_zero_or_pos q with h | h
          · exact .inr h
          · exact .inl (Nat.mul_le_mul_right _ h)
        omega
      calc (q - 1) * V
        _ ≤ (q - 1) * (R * (V / R + 1)) := Nat.mul_le_mul_left _ hV'
        _ = (q - 1) * (V / R + 1) * R := by ring
        _ ≤ x / R * R := Nat.mul_le_mul_right R (hdrop.trans hq2)
        _ ≤ x := Nat.div_mul_le_self x R

/-! ### The limbs from position `j` on -/

section Window
variable {r j : Nat} {u v : List Nat}

/-- The step at position `j` starts with a remainder below the divisor, so nothing stands above the
window and the digit fits in a limb. -/
theorem window_lt (hr : 0 < r) (hu : ∀ x ∈ u, x < r) (hlt : val r (u.drop (j + 1)) < val r v) :
    val r (u.drop j) < r * val r v := by
  have hlow : u.getD j 0 < r := getD_lt hr hu j
  have hstep : r * (val r (u.drop (j + 1)) + 1) ≤ r * val r v := Nat.mul_le_mul_left r hlt
  rw [val_drop_succ]
  rw [Nat.mul_succ] at hstep
  omega

theorem val_drop_add (hr : 0 < r) (hu : ∀ x ∈ u, x < r) (i n : Nat) :
    val r (u.drop (i + n)) = val r (u.drop i) / r ^ n := by
  rw [val_drop hr hu, val_drop hr hu, Nat.pow_add, Nat.div_div_eq_div_mul]

theorem val_drop_above (hr : 0 < r) (hu : ∀ x ∈ u, x < r) (hv : ∀ x ∈ v, x < r)
    (hlt : val r (u.drop (j + 1)) < val r v) : val r (u.drop (j + v.length + 1)) = 0 := by
  rw [Nat.add_right_comm, val_drop_add hr hu, Nat.div_eq_of_lt (hlt.trans (val_lt hv))]

/-- One more limb below what is left after `n` limbs. -/
theorem val_drop_mul_add {i n : Nat} (r : Nat) (L : List Nat) (hn : n = i + 1) :
    val r (L.drop n) * r + L.getD i 0 = val r (L.drop i) := by
  rw [val_drop_succ r L i, hn, Nat.mul_comm, Nat.add_comm]

/-! ### Writing the window -/

/-- `y` in the place of the `k + 1` limbs from position `j` on. -/
def putWindow (r k j y : Nat) (u : List Nat) : List Nat := u.take j ++ digits r y (k + 1) ++ u.drop (j + k + 1)

theorem mem_putWindow_lt {k y : Nat} (hr : 0 < r) (hu : ∀ x ∈ u, x < r) : ∀ x ∈ putWindow r k j y u, x < r := by
  intro x hx
  rcases List.mem_append.1 hx with hx | hx
  · rcases List.mem_append.1 hx with hx | hx
    · exact hu x (List.mem_of_mem_take hx)
    · exact mem_digits_lt hr hx
  · exact hu x (List.mem_of_mem_drop hx)

theorem length_putWindow_ge {k y : Nat} (hj : j ≤ u.length) : j ≤ (putWindow r k j y u).length := by
  simp only [putWindow, List.length_append, List.length_take]
  omega

theorem val_drop_putWindow {k y : Nat} (hj : j ≤ u.length) (hy : y < r ^ (k + 1))
    (habove : val r (u.drop (j + k + 1)) = 0) : val r ((putWindow r k j y u).drop j) = y := by
  rw [putWindow, List.append_assoc, List.drop_left' (List.length_take_of_le hj), val_append, val_digits hy,
    habove, Nat.mul_zero, Nat.add_zero]

/-- Writing the window leaves the limbs below it. -/
theorem val_putWindow {k y : Nat} (hj : j ≤ u.length) (hy : y < r ^ (k + 1))
    (habove : val r (u.drop (j + k + 1)) = 0) :
    val r (putWindow r k j y u) = val r (u.take j) + r ^ j * y := by
  rw [putWindow, List.append_assoc, val_append, List.length_take_of_le hj, val_append, val_digits hy,
    habove, Nat.mul_zero, Nat.add_zero]

theorem val_eq_take_add_drop (r : Nat) (hj : j ≤ u.length) :
    val r u = val r (u.take j) + r ^ j * val r (u.drop j) := by
  conv_lhs => rw [← List.take_append_drop j u, val_append, List.length_take_of_le hj]

end Window

/-! ### One position of the digit loop -/

section Position
variable {r j : Nat} {u v : List Nat} (hr : 0 < r) (hu : ∀ x ∈ u, x < r) (hv : ∀ x ∈ v, x < r)
  (htop : topLimb v ≠ 0) (hlt : val r (u.drop (j + 1)) < val r v)
include hr hu hv htop hlt

/-- The refined estimate: both numbers without the limbs below the divisor's two upper ones. -/
theorem knuthEstimate_eq :
    knuthEstimate r v.length v u j =
      min (r - 1) (val r (u.drop (j + (v.length - 2))) / val r (v.drop (v.length - 2))) := by
  have hk : 0 < v.length := List.length_pos_iff.2 (ne_nil_of_topLimb htop)
  have hhi : u.getD (j + v.length) 0 = val r (u.drop (j + v.length)) := by
    rw [← val_drop_mul_add r u rfl, val_drop_above hr hu hv hlt, Nat.zero_mul, Nat.zero_add]
  have hv1 : v.getD (v.length - 1) 0 = val r (v.drop (v.length - 1)) := by
    rw [← val_drop_mul_add r v (n := v.length) (by omega), List.drop_length, val, Nat.zero_mul, Nat.zero_add]
  have hpos : 0 < val r (v.drop (v.length - 1)) := by
    rw [val_drop hr hv, ← topLimb_eq hr hv]
    exact Nat.pos_of_ne_zero htop
  have hle : val r (u.drop (j + v.length)) ≤ val r (v.drop (v.length - 1)) := by
    rw [show j + v.length = j + 1 + (v.length - 1) by omega, val_drop_add hr hu, val_drop hr hv]
    exact Nat.div_le_div_right hlt.le
  have hmid := val_drop_mul_add r u (n := j + v.length) (i := j + v.length - 1) (by omega)
  have hsat := saturated_eq (getD_lt hr hu (j + v.length - 1)) hle hpos
  rw [hmid] at hsat
  simp only [knuthEstimate, hhi, hv1, hmid, hsat]
  split
  next h2 =>
    rw [refined_eq (getD_lt hr hu _) hpos rfl, val_drop_mul_add r u (by omega),
      val_drop_mul_add r v (by omega), Nat.add_sub_assoc h2]
  next h2 =>
    rw [show v.length = 1 by omega]
    rfl

/-- The estimate is the digit or one above it. -/
theorem digit_le_knuthEstimate_le :
    val r (u.drop j) / val r v ≤ knuthEstimate r v.length v u j ∧
      knuthEstimate r v.length v u j ≤ val r (u.drop j) / val r v + 1 := by
  have hV : r ^ (v.length - 1) ≤ val r v := pow_le_val hv htop
  have hdigit : val r (u.drop j) / val r v < r :=
    Nat.div_lt_of_lt_mul (Nat.mul_comm r _ ▸ window_lt hr hu hlt)
  rw [knuthEstimate_eq hr hu hv htop hlt, val_drop_add hr hu, val_drop hr hv]
  have hpos : r ^ (v.length - 2) ≤ val r v := (Nat.pow_le_pow_right hr (by omega)).trans hV
  refine estimate_bounds (Nat.pow_pos hr) ((Nat.pow_pos hr).trans_le hV) hdigit
    (Nat.div_pos hpos (Nat.pow_pos hr)) ?_
  by_cases h2 : v.length ≤ 1
  · exact .inl (by rw [Nat.sub_eq_zero_of_le (by omega), Nat.pow_zero])
  · refine .inr ((Nat.le_div_iff_mul_le (Nat.pow_pos hr)).2 ?_)
    rwa [← Nat.pow_succ', show (v.length - 2).succ = v.length - 1 by omega]

/-- Step 3 at position `j`: an estimate one above the digit is the one whose product does not fit, and
adding the divisor back once then gives the remainder. -/
theorem knuthDigit_eq :
    knuthDigit r v.length v u j = (val r (u.drop j) / val r v,
      putWindow r v.length j (val r (u.drop j) % val r v) u) := by
  obtain ⟨hlow, hhigh⟩ := digit_le_knuthEstimate_le hr hu hv htop hlt
  have hV : val r v < r ^ v.length := val_lt hv
  have hV' : val r v < r ^ (v.length + 1) := hV.trans_le (Nat.pow_le_pow_right hr (Nat.le_succ _))
  have hx : val r (u.drop j) < r ^ (v.length + 1) :=
    (window_lt hr hu hlt).trans_le (Nat.pow_succ' ▸ Nat.mul_le_mul_left r hV.le)
  have hwindow : val r ((u.drop j).take (v.length + 1)) = val r (u.drop j) := by
    rw [val_take hr fun x h => hu x (List.mem_of_mem_drop h), Nat.mod_eq_of_lt hx]
  have hmod : val r (u.drop j) % val r v < val r v := Nat.mod_lt _ (Nat.zero_lt_of_lt hlt)
  have hdiv := Nat.div_add_mod' (val r (u.drop j)) (val r v)
  simp only [knuthDigit, hwindow]
  rcases (by omega : knuthEstimate r v.length v u j = val r (u.drop j) / val r v ∨
    knuthEstimate r v.length v u j = val r (u.drop j) / val r v + 1) with hq | hq
  · rw [hq, if_neg (Nat.not_lt.2 (Nat.div_mul_le_self _ _)), ← Nat.mod_eq_sub_div_mul]
    rfl
  · have hback : val r (u.drop j) + r ^ (v.length + 1) - (val r (u.drop j) / val r v + 1) * val r v
        + val r v = val r (u.drop j) % val r v + r ^ (v.length + 1) := by
      rw [Nat.succ_mul]
      omega
    rw [hq, if_pos (by rw [Nat.succ_mul]; omega), hback, Nat.add_mod_right,
      Nat.mod_eq_of_lt (hmod.trans hV')]
    rfl

end Position

/-! ### The loop and the whole algorithm -/

/-- Step 3 from the positions below `j` on gives the quotient's lower digits and the remainder. -/
theorem knuthLoop_eq {r j : Nat} {u v q : List Nat} (hr : 0 < r) (hu : ∀ x ∈ u, x < r)
    (hv : ∀ x ∈ v, x < r) (htop : topLimb v ≠ 0) (hj : j ≤ u.length)
    (hlt : val r (u.drop j) < val r v) :
    val r (knuthLoop r v.length v j u q).1 = val r u / val r v + r ^ j * val r q ∧
      val r ((knuthLoop r v.length v j u q).2.take v.length) = val r u % val r v := by
  induction j generalizing u q with
  | zero =>
    have hmod : val r u % r ^ v.length = val r u := Nat.mod_eq_of_lt (hlt.trans (val_lt hv))
    rw [List.drop_zero] at hlt
    simp only [knuthLoop, val_take hr hu, hmod, Nat.div_eq_of_lt hlt, Nat.mod_eq_of_lt hlt, Nat.pow_zero,
      Nat.zero_add, Nat.one_mul, and_self]
  | succ j ih =>
    have hpos : 0 < val r v := Nat.zero_lt_of_lt hlt
    have hmod : val r (u.drop j) % val r v < val r v := Nat.mod_lt _ hpos
    have hy : val r (u.drop j) % val r v < r ^ (v.length + 1) :=
      hmod.trans ((val_lt hv).trans_le (Nat.pow_le_pow_right hr (Nat.le_succ _)))
    have hdrop := val_drop_putWindow (Nat.le_of_lt hj) hy (val_drop_above hr hu hv hlt)
    have hsplit : val r u = val r (putWindow r v.length j (val r (u.drop j) % val r v) u)
        + val r v * (r ^ j * (val r (u.drop j) / val r v)) := by
      rw [val_eq_take_add_drop r (Nat.le_of_lt hj),
        val_putWindow (Nat.le_of_lt hj) hy (val_drop_above hr hu hv hlt)]
      conv_lhs => rw [← Nat.mod_add_div (val r (u.drop j)) (val r v)]
      ring
    obtain ⟨hq, hrest⟩ := ih (q := val r (u.drop j) / val r v :: q) (mem_putWindow_lt hr hu)
      (length_putWindow_ge (Nat.le_of_lt hj)) (hdrop.trans_lt hmod)
    simp only [knuthLoop, knuthDigit_eq hr hu hv htop hlt]
    rw [hq, hrest, hsplit, Nat.add_mul_div_left _ _ hpos, Nat.add_mul_mod_self_left, val]
    exact ⟨by ring, rfl⟩

section Scaled
variable {r d : Nat} {u v : List Nat}

theorem topLimb_lt (hr : 0 < r) (hv : ∀ x ∈ v, x < r) : topLimb v < r := by
  rw [topLimb, List.getLastD_eq_getLast?, List.getLast?_eq_getElem?, ← List.getD_eq_getElem?_getD]
  exact getD_lt hr hv _

/-- Step 2 keeps the number of limbs of the divisor. -/
theorem scaled_divisor_lt (hr : 0 < r) (hv : ∀ x ∈ v, x < r) (hne : v ≠ []) (hd : 0 < d)
    (hfit : d * (topLimb v + 1) ≤ r) : val r v * d < r ^ v.length := by
  have htop : val r v < r ^ (v.length - 1) * (topLimb v + 1) := by
    rw [topLimb_eq hr hv]
    exact Nat.lt_mul_div_succ _ (Nat.pow_pos hr)
  calc val r v * d
    _ < r ^ (v.length - 1) * (topLimb v + 1) * d := Nat.mul_lt_mul_of_pos_right htop hd
    _ = r ^ (v.length - 1) * (d * (topLimb v + 1)) := by ring
    _ ≤ r ^ (v.length - 1) * r := Nat.mul_le_mul_left _ hfit
    _ = r ^ v.length := by rw [← Nat.pow_succ, Nat.succ_eq_add_one,
      Nat.sub_add_cancel (List.length_pos_iff.2 hne)]

theorem topLimb_digits_ne_zero {x n : Nat} (hr : 0 < r) (hn : n ≠ 0) (hlow : r ^ (n - 1) ≤ x)
    (hhigh : x < r ^ n) : topLimb (digits r x n) ≠ 0 := by
  have hne : digits r x n ≠ [] := List.ne_nil_of_length_pos (by rw [digits_length]; omega)
  refine (getLastD_ne_zero_iff hne fun _ => mem_digits_lt hr).2 ?_
  rwa [digits_length, val_digits hhigh]

/-- What stands above the lowest output digit at the start of step 3 is below the divisor. -/
theorem val_lt_pow_mul (hr : 0 < r) (hu : ∀ x ∈ u, x < r) (hv : ∀ x ∈ v, x < r) (htop : topLimb v ≠ 0) :
    val r u < r ^ (u.length + 1 - v.length) * val r v := by
  have hk : v.length ≠ 0 := List.length_eq_zero_iff.not.2 (ne_nil_of_topLimb htop)
  calc val r u
    _ < r ^ u.length := val_lt hu
    _ ≤ r ^ (u.length + 1 - v.length + (v.length - 1)) := Nat.pow_le_pow_right hr (by omega)
    _ = r ^ (u.length + 1 - v.length) * r ^ (v.length - 1) := Nat.pow_add _ _ _
    _ ≤ r ^ (u.length + 1 - v.length) * val r v := Nat.mul_le_mul_left _ (pow_le_val hv htop)

/-- Steps 2 and 3: scaling dividend and divisor leaves the quotient and scales the remainder. -/
theorem knuthLoop_scaled (hr : 0 < r) (hu : ∀ x ∈ u, x < r) (hv : ∀ x ∈ v, x < r) (htop : topLimb v ≠ 0)
    (hd : 0 < d) (hfit : d * (topLimb v + 1) ≤ r) :
    let out := knuthLoop r v.length (digits r (val r v * d) v.length) (u.length + 1 - v.length)
      (digits r (val r u * d) (u.length + 1)) []
    val r out.1 = val r u / val r v ∧ val r (out.2.take v.length) / d = val r u % val r v := by
  have hne : v ≠ [] := ne_nil_of_topLimb htop
  have hv' : val r v * d < r ^ v.length := scaled_divisor_lt hr hv hne hd hfit
  have hu' : val r u * d < r ^ (u.length + 1) :=
    Nat.mul_lt_mul_of_lt_of_le (val_lt hu) ((Nat.le_mul_of_pos_right d (Nat.succ_pos _)).trans hfit) hr
  have htop' : topLimb (digits r (val r v * d) v.length) ≠ 0 :=
    topLimb_digits_ne_zero hr (List.length_eq_zero_iff.not.2 hne)
      ((pow_le_val hv htop).trans (Nat.le_mul_of_pos_right _ hd)) hv'
  have hstart : val r ((digits r (val r u * d) (u.length + 1)).drop (u.length + 1 - v.length)) <
      val r (digits r (val r v * d) v.length) := by
    rw [val_drop hr (fun _ => mem_digits_lt hr), val_digits hu', val_digits hv',
      Nat.div_lt_iff_lt_mul (Nat.pow_pos hr), Nat.mul_right_comm, Nat.mul_comm (val r v)]
    exact Nat.mul_lt_mul_of_pos_right (val_lt_pow_mul hr hu hv htop) hd
  have hloop := knuthLoop_eq (q := []) hr (fun _ => mem_digits_lt hr) (fun _ => mem_digits_lt hr) htop'
    (by rw [digits_length]; omega) hstart
  rw [digits_length, val_digits hu', val_digits hv', Nat.mul_div_mul_right _ _ hd, Nat.mul_mod_mul_right,
    val, Nat.mul_zero, Nat.add_zero] at hloop
  exact ⟨hloop.1, by rw [hloop.2, Nat.mul_div_cancel _ hd]⟩

end Scaled

/-- Settles O51: step 1 is the order of the statements, and steps 2 and 3 give the exact results, which
step 4 trims. -/
theorem knuthAlgorithmExact : Obligations.KnuthAlgorithmExact := by
  unfold Obligations.KnuthAlgorithmExact
  intro w u v _ _ _ hu hv htop
  have hr : 0 < 2 ^ w := Nat.two_pow_pos w
  have hd : 0 < 2 ^ w / (topLimb v + 1) := Nat.div_pos (topLimb_lt hr hv) (Nat.succ_pos _)
  obtain ⟨hquot, hrem⟩ := knuthLoop_scaled hr hu hv htop hd (Nat.div_mul_le_self _ _)
  refine ⟨?_, fun hless => ?_, fun hless => ?_⟩
  · simp [knuthDivide, hquot]
  · simp [knuthDivide, cmpLex_eq_lt, hless]
  · simp [knuthDivide, cmpLex_eq_lt, hless, hrem]

end Sys2Proof.Machine
end

section
/-! SUPPORT. The words of 45_limb_buffer_context.md in the terms of the statements: the values QUERY reports
(R102), the bytes LOAD reads and its length in limbs (R105), the count RELEASE leaves (R106). -/

namespace Sys2Proof.Claims
open Sys2Proof.Machine

/-! ### Counts in RES (R102, R106) -/

theorem busCount_of_lt {n : Nat} (h : n < 2 ^ 32) : busCount n = BitVec.ofNat 32 n := if_pos h

theorem shownCount_of_perm {e : Entry} (h : e.st = .perm) : e.shownCount = 0xFFFFFFFF#32 := if_pos h

theorem shownCount_of_not_perm {e : Entry} (h : e.st ≠ .perm) : e.shownCount = busCount e.rc := if_neg h

theorem released_of_perm {e : Entry} (h : e.st = .perm) : released e = e := if_pos h

/-- The count left is the old one less one, and 0 in an entry that went back to the pool. -/
theorem shownCount_released {e : Entry} (h : e.st ≠ .perm) :
    (released e).shownCount = busCount (e.rc - 1) := by
  rw [released, if_neg h]
  split
  next hle => rw [Nat.sub_eq_zero_of_le hle]; rfl
  next => exact shownCount_of_not_perm (e := { e with rc := e.rc - 1 }) h

/-! ### The selectors of QUERY (R102) -/

theorem activeCount_eq (s : State) :
    s.activeCount = s.table.countP fun e => decide (e.st = .live ∨ e.st = .perm) :=
  List.countP_congr fun e _ => by simp [Entry.holds]

theorem validBits_eq (s : State) :
    s.ms.validBits = (if (slotAt s 0).isSome then 1 else 0) + (if (slotAt s 1).isSome then 2 else 0)
      + (if (slotAt s 2).isSome then 4 else 0) := by
  simp only [Slots.validBits, flagNat, slotAt, mul_ite, Nat.mul_one, Nat.mul_zero]

/-- Everything a selector that reads no handle can do. -/
theorem queryPlain_cases (s : State) (q : Nat) :
    (∃ v, s.queryPlain q = .ok v ∧ q ≤ 10) ∨
      (s.queryPlain q = .error .badOperand ∧ (q = 2 ∨ q = 3 ∨ 10 < q)) := by
  unfold State.queryPlain
  split
  case h_10 => exact .inr ⟨rfl, by grind⟩
  all_goals exact .inl ⟨_, rfl, by decide⟩

/-- The one BAD_OPERAND check of the statement covers HA and the selector. -/
theorem Checked.queryPlain {s : State} {ha q : Nat} {k : BusWord → Except FaultCode State}
    {L : List (Bool × FaultCode)} {P : State → Prop} (h2 : q ≠ 2) (h3 : q ≠ 3)
    (h : ∀ v, s.queryPlain q = .ok v → Checked s (k v) L P) :
    Checked s (Machine.need (ha = 0) .badOperand >>= fun _ => s.queryPlain q >>= k)
      ((decide (10 < q ∨ (q ≠ 2 ∧ q ≠ 3 ∧ ha ≠ 0)), .badOperand) :: L) P := by
  rcases queryPlain_cases s q with ⟨v, hv, hle⟩ | ⟨he, hq⟩
  · rw [hv]
    exact Checked.need (by rw [decide_eq_true_iff]; omega) fun _ => h v hv
  · have hgt : 10 < q := by omega
    have hstop : (Machine.need (ha = 0) .badOperand >>= fun _ => s.queryPlain q >>= k) =
        .error .badOperand := by
      rw [he, Machine.need]
      split <;> rfl
    rw [hstop, decide_eq_true (.inl hgt)]
    exact Checked.stop

/-- A selector reports one value. -/
theorem queryPlain_unique {s : State} {q n : Nat} {v w : BusWord} (hv : s.queryPlain q = .ok v)
    (hw : s.queryPlain n = .ok w) (hq : q = n) : v = w :=
  Except.ok.inj (hv.symm.trans (hq ▸ hw))

/-! ### The bytes and the limbs of LOAD (R105) -/

/-- A list read has no answer exactly when one of its bytes is `⊥`. -/
theorem memRead_isNone (s : State) (addr n : Nat) :
    (s.memRead addr n).isNone = (List.range n).any fun i => (s.byteAt (addr + i)).isNone := by
  induction n generalizing addr with
  | zero => rfl
  | succ n ih =>
    have hshift : (fun i => (s.byteAt (addr + i)).isNone) ∘ Nat.succ =
        fun i => (s.byteAt (addr + 1 + i)).isNone :=
      funext fun i => by simp [Nat.add_assoc, Nat.add_comm 1 i]
    rw [List.range_succ_eq_map, List.any_cons, List.any_map, hshift, ← ih]
    simp only [State.memRead, State.byteAt, memGetList, Nat.add_zero]
    cases memGet s.buf addr <;> cases memGetList s.buf (addr + 1) n <;> rfl

theorem Checked.readBytes {s : State} {addr n : Nat} {k : List Byte → Except FaultCode State}
    {L : List (Bool × FaultCode)} {P : State → Prop}
    (h : ∀ bs, bs.length = n → (∀ i, i < n → s.byteAt (addr + i) = bs[i]?) → Checked s (k bs) L P) :
    Checked s (s.readBytes addr n >>= k)
      (((List.range n).any fun i => (s.byteAt (addr + i)).isNone, .undefinedData) :: L) P := by
  rw [← memRead_isNone, State.readBytes]
  cases hm : s.memRead addr n with
  | none => exact Checked.stop
  | some bs =>
    obtain ⟨hlen, hbytes⟩ := memGetList_eq_some.1 hm
    exact Checked.pass (h bs hlen hbytes)

theorem limbsFor_eq (s : State) (len : Nat) : limbsFor s len = ceilDiv len s.par.bpl := by
  rw [limbsFor, ceilDiv, Params.bpl]
  cases s.par.w / 8 with
  | zero => rw [Nat.div_zero, Nat.div_zero]
  | succ m => rfl

/-- `ceil(n / BPL)` limbs hold every number of `n` bytes. -/
theorem pow_le_radix_pow {p : Params} (hp : p.Legal) (n : Nat) : 256 ^ n ≤ p.radix ^ ceilDiv n p.bpl := by
  have hw : p.w = 8 * p.bpl := by rcases hp.1 with h | h <;> simp [Params.bpl, h]
  have hlen : n ≤ p.bpl * ceilDiv n p.bpl := by
    have hpos := bpl_pos hp
    have := Nat.lt_mul_div_succ (n + (p.bpl - 1)) hpos
    rw [Nat.mul_add] at this
    rw [ceilDiv]
    omega
  calc 256 ^ n
    _ ≤ 256 ^ (p.bpl * ceilDiv n p.bpl) := Nat.pow_le_pow_right (by decide) hlen
    _ = p.radix ^ ceilDiv n p.bpl := by
      rw [Params.radix, hw, Nat.pow_mul, Nat.pow_mul]

theorem beValue_lt_radix_pow {p : Params} (hp : p.Legal) (bs : List Byte) :
    beValue bs < p.radix ^ ceilDiv bs.length p.bpl :=
  (beValue_lt bs).trans_le (pow_le_radix_pow hp bs.length)

theorem digits_val {r : Nat} {L : List Nat} (hr : 0 < r) (hL : ∀ x ∈ L, x < r) :
    digits r (val r L) L.length = L :=
  val_inj (fun _ => mem_digits_lt hr) hL (digits_length _ _ _) (val_digits (val_lt hL))

/-- `toBE(BE(bs), n) = bs` for `n` bytes (00_scope.md R14). -/
theorem toBE_beValue (bs : List Byte) : toBE (beValue bs) bs.length = bs := by
  have hbytes : ∀ x ∈ bs.reverse.map BitVec.toNat, x < 256 := by
    intro x hx
    obtain ⟨b, -, rfl⟩ := List.mem_map.1 hx
    exact b.isLt
  have hdigits := digits_val (by decide) hbytes
  rw [List.length_map, List.length_reverse] at hdigits
  rw [toBE, beValue, hdigits]
  simp [Function.comp_def]

end Sys2Proof.Claims
end

section
/-! SUPPORT. The commands of 45_limb_buffer_context.md against their rules, one check at a time: O1 to O6, O9,
O12, O13. -/

namespace Sys2Proof.Claims
open Sys2Proof.Machine

/-! ### The context (R100, R101) -/

theorem cleared_clearContext (s : State) (b : Bool) (v : BusWord) :
    Cleared s ({ s.clearContext with ctx := b }.setRes v) :=
  ⟨rfl, rfl, fun n => by unfold slotAt; split <;> rfl, rfl⟩

/-- Settles O1. -/
theorem ctxopenRule : Obligations.CtxopenRule := by
  refine ⟨rfl, rfl, fun s => ⟨fun hx => ?_, fun hx => ?_⟩⟩
  · rw [exec_ctxopen, if_neg (by simp [hx]), faulted_eq]
  · rw [exec_ctxopen, if_pos hx]
    exact ⟨_, rfl, cleared_clearContext s true 0, rfl, rfl, rfl⟩

/-- Settles O2. -/
theorem ctxcloseRule : Obligations.CtxcloseRule := by
  refine ⟨rfl, rfl, fun s => ⟨fun hx => exec_of_no_context nofun hx, fun hx => ?_⟩⟩
  have hpass : firstFault [noContext s] = none := by simp [noContext, firstFault_cons, hx]
  exact (Checked.context fun _ =>
    Checked.done ⟨cleared_clearContext s false 0, rfl, rfl, rfl⟩).2 hpass

/-! ### QUERY (R102) -/

/-- Settles O3: the two selectors of a handle, and the nine that read none. -/
theorem queryRule : Obligations.QueryRule := by
  refine ⟨fun _ _ => ⟨rfl, rfl⟩, fun s ha q => Checked.context fun _ => ?_⟩
  by_cases h2 : q = 2
  · subst h2
    exact Checked.handle fun _ => Checked.pass <| Checked.done ⟨nofun, nofun, fun _ => rfl, nofun, nofun,
      nofun, nofun, nofun, nofun, nofun, nofun, nofun, rfl⟩
  by_cases h3 : q = 3
  · subst h3
    exact Checked.handle fun _ => Checked.pass <| Checked.done ⟨nofun, nofun, nofun,
      fun _ hp => shownCount_of_perm hp,
      fun _ hp hlt => (shownCount_of_not_perm hp).trans (busCount_of_lt hlt),
      nofun, nofun, nofun, nofun, nofun, nofun, nofun, rfl⟩
  have hplain : (decide (q = 2 ∨ q = 3) && !valid s ha) = false := by simp [h2, h3]
  rw [if_neg h2, if_neg h3, hplain]
  refine Checked.pass <| Checked.queryPlain h2 h3 fun v hv => ?_
  have his {n : Nat} {w : BusWord} (hw : s.queryPlain n = .ok w) (hq : q = n) : v = w :=
    queryPlain_unique hv hw hq
  exact Checked.done ⟨fun hq => (his rfl hq).trans (congrArg busNat (activeCount_eq s)), his rfl,
    fun hq => absurd hq h2, fun hq => absurd hq h3, fun hq => absurd hq h3, his rfl,
    fun hq => (his rfl hq).trans (congrArg busNat (validBits_eq s)), his rfl, his rfl, his rfl, his rfl,
    fun hq hlt => (his rfl hq).trans (busCount_of_lt hlt), rfl⟩

/-! ### Allocation (R103 to R105) -/

/-- Settles O4. -/
theorem allocRule : Obligations.AllocRule :=
  ⟨fun _ _ => ⟨rfl, rfl⟩, fun _ _ _ => Checked.named_of <| Checked.context fun _ =>
    Checked.need (by simp) fun _ => Checked.need (by simp) fun _ =>
      Checked.alloc fun _ _ hn e => Checked.done fun hs =>
        ⟨_, allocated_setValue hs (hn hs.tableLength) e _⟩⟩

/-- Settles O5. -/
theorem allociRule : Obligations.AllociRule :=
  ⟨fun _ => ⟨rfl, rfl⟩, fun _ _ => Checked.named_of <| Checked.context fun _ =>
    Checked.need (decide_eq_true_iff.trans Nat.not_lt.symm) fun _ =>
      Checked.alloc fun _ _ hn e => Checked.done fun hs =>
        ⟨_, allocated_setValue hs (hn hs.tableLength) e _⟩⟩

/-- What LOAD leaves: the bytes `bs` it read, as the limbs `L` of a fresh value. -/
def Loaded (s t : State) (addr len h : Nat) (bs : List Byte) (L : List Nat) : Prop :=
  bs.length = len ∧ (∀ i, i < len → s.byteAt (addr + i) = bs[i]?) ∧ L.length = limbsFor s len ∧
    (∀ x ∈ L, x < 2 ^ s.par.w) ∧ val (2 ^ s.par.w) L = beValue bs ∧ Allocated s t h (L.map some)

theorem checked_load (s : State) (addr len : Nat) :
    ∃ r, exec (.load addr len) s = finishCommand s r ∧ Checked s r (loadChecks s addr len)
      fun t => s.DataInv → ∃ h bs L, Loaded s t addr len h bs L := by
  refine ⟨_, rfl, Checked.context fun _ => Checked.need (by simp) fun _ => Checked.need (by simp) fun _ =>
    Checked.readBytes fun bs hlen hbytes => Checked.capacity (limbsFor_eq s len).symm <|
      Checked.alloc fun h _ hn e => Checked.done fun hs => ?_⟩
  have hval := val_digits (beValue_lt_radix_pow hs.legal bs)
  rw [hlen] at hval
  exact ⟨h, bs, _, hlen, hbytes, by rw [digits_length, limbsFor_eq],
    fun _ => mem_digits_lt (radix_pos s.par), hval, allocated_setValue hs (hn hs.tableLength) e _⟩

/-- Settles O6: `ceil(L / BPL)` limbs hold the whole big-endian value. -/
theorem loadRule : Obligations.LoadRule := by
  refine ⟨fun _ _ => ⟨rfl, rfl⟩, fun s addr len => ?_⟩
  obtain ⟨r, hexec, hfault, heffect⟩ := checked_load s addr len
  rw [hexec]
  refine ⟨hfault, fun hs hpass => ?_⟩
  obtain ⟨t, ht, hloaded⟩ := heffect hpass
  obtain ⟨h, bs, L, hloaded⟩ := hloaded hs
  exact ⟨t, h, bs, L, ht, hloaded⟩

/-! ### Ownership (R106 to R108) -/

/-- Settles O9: the three outcomes of ReleaseHandle are those of `released` and `releasedFree`. -/
theorem releaseRule : Obligations.ReleaseRule := by
  refine ⟨fun _ => ⟨rfl, rfl⟩, fun s ha => Checked.context fun _ => Checked.handle fun hv =>
    Checked.done ?_⟩
  have hentry := entry_releaseHandle (lt_of_valid hv)
  have hres : ((s.releaseHandle ha).entry ha).shownCount = (released (s.entry ha)).shownCount := by
    rw [hentry, if_pos rfl]
  refine ⟨⟨length_releaseHandle s ha, hentry⟩, free_releaseHandle s ha, fun hp => ?_, fun hp hlt => ?_,
    congrArg (fun t : State => { t with res := s.res }) (s.releaseHandle_frame ha)⟩
  · rw [State.setRes_res, hres, released_of_perm hp, shownCount_of_perm hp]
  · rw [State.setRes_res, hres, shownCount_released hp, busCount_of_lt hlt]

/-- Settles O12. -/
theorem setpermRule : Obligations.SetpermRule :=
  ⟨fun _ => ⟨rfl, rfl⟩, fun _ _ => Checked.context fun _ => Checked.handle fun hv =>
    Checked.need (decide_eq_true_iff.trans not_not.symm) fun _ =>
      Checked.done (wroteReceiver_setEntry _ hv)⟩

/-- Settles O13: without REL the entry is rewritten, with REL its one owner gives it up. -/
theorem rstpermRule : Obligations.RstpermRule := by
  refine ⟨fun _ _ => ⟨rfl, rfl⟩, fun s ha rel => Checked.context fun _ => Checked.handle fun hv =>
    Checked.need (by simp [isModulus_eq]) fun _ => Checked.need (by simp) fun _ => Checked.done ?_⟩
  cases rel
  · obtain ⟨htable, hres, hrest⟩ := wroteReceiver_setEntry (owned (s.entry ha).limbs) hv
    exact ⟨htable, rfl, hres, rfl⟩
  · have hfreed : (s.setEntry ha { s.entry ha with st := .live, rc := 1 }).releaseHandle ha =
        { s with free := ha :: s.free }.setEntry ha Entry.freed :=
      releaseHandle_setEntry_owned (s.entry ha).limbs (lt_of_valid hv)
    rw [if_pos rfl, hfreed]
    exact ⟨⟨by simp, State.entry_setEntry (s := { s with free := ha :: s.free }) _ (lt_of_valid hv)⟩,
      rfl, rfl, rfl⟩

end Sys2Proof.Claims
end

section
/-! SUPPORT. SAVE after LOAD (45_limb_buffer_context.md R105, 40_limb_buffer_values.md R91): O48. -/

namespace Sys2Proof.Claims
open Sys2Proof.Machine

/-- A command that does not halt the engine has passed its checks. -/
theorem firstFault_of_running {s t : State} {i : Instr} {L : List (Bool × FaultCode)}
    (hfault : ∀ c, firstFault L = some c → exec i s = .next (faulted s c)) (h : exec i s = .next t)
    (ht : t.halted = false) : firstFault L = none := by
  cases hc : firstFault L with
  | none => rfl
  | some c =>
    cases h.symm.trans (hfault c hc)
    cases ht

/-- What a fresh allocation leaves in its handle (10_state.md R38). -/
theorem Allocated.entry {s t : State} {h : Nat} {L : List Limb} (ha : Allocated s t h L) :
    t.entry h = owned L := by
  obtain ⟨-, ⟨-, hentry⟩, -⟩ := ha
  rw [hentry, oneEntry, if_pos rfl]

/-- A fresh allocation writes the handle table, FL and RES only. -/
theorem Allocated.frame {s t : State} {h : Nat} {L : List Limb} (ha : Allocated s t h L) :
    t.par = s.par ∧ t.ctx = s.ctx ∧ t.halted = s.halted := by
  obtain ⟨-, -, -, -, hrest⟩ := ha
  exact ⟨(congrArg State.par hrest :), (congrArg State.ctx hrest :), (congrArg State.halted hrest :)⟩

theorem Allocated.lt_nh {s t : State} {h : Nat} {L : List Limb} (ha : Allocated s t h L) (hs : s.DataInv) :
    h < s.par.nh := hs.tableLength ▸ (ha.1.holds_no_value hs).1

/-- RES names the handle a fresh allocation took: handles have 8 bits (00_scope.md R7). -/
theorem Allocated.res_toNat {s t : State} {h : Nat} {L : List Limb} (ha : Allocated s t h L)
    (hs : s.DataInv) : t.res.toNat = h := by
  obtain ⟨-, ⟨-, hnh⟩, -⟩ := hs.legal
  have hlt := ha.lt_nh hs
  obtain ⟨-, -, -, hres, -⟩ := ha
  rw [hres, BitVec.toNat_ofNat, Nat.mod_eq_of_lt (by omega)]

/-- SAVE of a loaded value passes its checks wherever its bytes fit. -/
theorem saveChecks_of_loaded {s t : State} {a b len h : Nat} {bs : List Byte} {L : List Nat}
    (hs : s.DataInv) (hpass : firstFault (loadChecks s a len) = none) (hl : Loaded s t a len h bs L)
    (hfit : b + len ≤ s.par.bufsz) :
    firstFault (saveChecks t h b len) = none ∧ valueOf t h = beValue bs := by
  obtain ⟨hlen, -, -, -, hval, halloc⟩ := hl
  obtain ⟨hpar, hctx, -⟩ := halloc.frame
  have hvalue : valueOf t h = beValue bs := by
    rw [valueOf, limbsOf, halloc.entry, hpar, ← hval]
    simp [owned, List.filterMap_map]
  have hvalid : valid t h = true := by
    rw [valid_eq, State.validHandle_iff, hpar, halloc.entry]
    exact ⟨halloc.lt_nh hs, .inl rfl⟩
  have hpoison : poison t h = false := by simp [poison, halloc.entry, owned]
  have hbound : beValue bs < 256 ^ len := hlen ▸ beValue_lt bs
  have hopen : s.ctx = true := by
    simpa [noContext] using firstFault_eq_none.1 hpass (noContext s) (by simp [loadChecks])
  have hsome : len ≠ 0 := of_decide_eq_false <|
    firstFault_eq_none.1 hpass (decide (len = 0), .badLength) (by simp [loadChecks])
  refine ⟨?_, hvalue⟩
  simp [saveChecks, noContext, badHandle, unreadable, firstFault_cons, hctx, hopen, hvalid, hsome, hpar,
    hpoison, hvalue, Nat.not_lt.2 hfit, Nat.not_le.2 hbound]

/-- Settles O48: `toBE` of the loaded value gives the bytes back. -/
theorem saveOfLoadRoundTrip : Obligations.SaveOfLoadRoundTrip := by
  unfold Obligations.SaveOfLoadRoundTrip
  intro s t a b len hs _ hexec ht hfit
  have hpass := firstFault_of_running ((loadRule.2 s a len).1) hexec ht
  obtain ⟨t', h, bs, L, hexec', hl⟩ := (loadRule.2 s a len).2 hs hpass
  cases hexec.symm.trans hexec'
  obtain ⟨hchecks, hvalue⟩ := saveChecks_of_loaded hs hpass hl hfit
  obtain ⟨hlen, hbytes, -, -, -, halloc⟩ := hl
  obtain ⟨u, hu, hsaved, -, hrest⟩ := (saveRule.2 t h b len).2 hchecks
  rw [halloc.res_toNat hs]
  refine ⟨u, hu, (congrArg State.halted hrest :).trans ht, fun i hi => ?_⟩
  rw [hsaved, if_pos (by omega), hvalue, hbytes i hi, show b + len - 1 - (b + i) = len - 1 - i by omega,
    ← toBE_getElem?_mod hi, ← hlen, toBE_beValue]

end Sys2Proof.Claims
end

section
/-! SUPPORT. Barrett reduction against the exact remainder: O50 (46_barrett_reduction_engine.md R113,
90_conflicts.md C1). In the lemmas `lo` is `r^(k-1)` and `hi` is `r^(k+1)`, so that `mu = lo * hi / m`. -/

namespace Sys2Proof.Machine

/-! ### The correction loop -/

/-- Enough turns of the loop leave the remainder. -/
theorem reduceLoop_eq_mod {m : Nat} (hm : 0 < m) {n x : Nat} (hn : x / m ≤ n) : reduceLoop m n x = x % m := by
  induction n generalizing x with
  | zero => exact (Nat.mod_eq_of_lt ((Nat.div_eq_zero_iff_lt hm).1 (Nat.le_zero.1 hn))).symm
  | succ n ih =>
    rw [reduceLoop]
    split
    next hle =>
      rw [Nat.div_eq_sub_div hm hle] at hn
      rw [ih (Nat.le_of_succ_le_succ hn), ← Nat.mod_eq_sub_mod hle]
    next hlt => exact (Nat.mod_eq_of_lt (Nat.not_le.1 hlt)).symm

/-- Adding `rk1` on a borrow makes the difference of the residues the difference of the numbers. -/
theorem barrettStart_eq_sub {hi b c : Nat} (hle : c ≤ b) (hlt : b - c < hi) :
    barrettStart hi (b % hi) (c % hi) = b - c := by
  obtain ⟨d, rfl⟩ := Nat.exists_eq_add_of_le hle
  rw [Nat.add_sub_cancel_left] at hlt ⊢
  have hc : c % hi < hi := Nat.mod_lt c (by omega)
  rw [barrettStart, Nat.add_mod_eq_ite, Nat.mod_eq_of_lt hlt]
  by_cases hwrap : hi ≤ c % hi + d
  · rw [if_pos hwrap, if_pos (by omega)]; omega
  · rw [if_neg hwrap, if_neg (by omega)]; omega

/-! ### The quotient estimate -/

section Estimate
variable {lo hi m b : Nat}

/-- The estimate rounds down three times, so it is not too large. -/
theorem barrettEstimate_le_div (hm : 0 < m) (hhi : 0 < hi) :
    b / lo * (lo * hi / m) / hi ≤ b / m := by
  rw [Nat.le_div_iff_mul_le hm]
  refine Nat.le_of_mul_le_mul_right ?_ hhi
  calc b / lo * (lo * hi / m) / hi * m * hi
    _ = b / lo * (lo * hi / m) / hi * hi * m := by ring
    _ ≤ b / lo * (lo * hi / m) * m := Nat.mul_le_mul_right m (Nat.div_mul_le_self _ _)
    _ = b / lo * (lo * hi / m * m) := Nat.mul_assoc _ _ _
    _ ≤ b / lo * (lo * hi) := Nat.mul_le_mul_left _ (Nat.div_mul_le_self _ _)
    _ = b / lo * lo * hi := (Nat.mul_assoc _ _ _).symm
    _ ≤ b * hi := Nat.mul_le_mul_right hi (Nat.div_mul_le_self _ _)

/-- Each rounding loses less than one `m` of the remainder. -/
theorem lt_barrettEstimate_add_three_mul (hlo : 0 < lo) (hm : lo ≤ m) (hb : b < lo * hi) :
    b < (b / lo * (lo * hi / m) / hi + 3) * m := by
  have hpos : 0 < m := Nat.lt_of_lt_of_le hlo hm
  have hhi : 0 < hi := Nat.pos_of_ne_zero fun h => by simp [h] at hb
  have hq1 : b / lo ≤ hi := (Nat.div_lt_of_lt_mul hb).le
  generalize hmu : lo * hi / m = mu
  generalize hq2 : b / lo * mu = q2
  have hmu' : lo * hi ≤ m * (mu + 1) := hmu ▸ (Nat.lt_mul_div_succ _ hpos).le
  have hq3 : q2 ≤ hi * (q2 / hi + 1) := (Nat.lt_mul_div_succ _ hhi).le
  refine Nat.lt_of_mul_lt_mul_right (a := hi) ?_
  calc b * hi
    _ < lo * (b / lo + 1) * hi := Nat.mul_lt_mul_of_pos_right (Nat.lt_mul_div_succ b hlo) hhi
    _ = b / lo * (lo * hi) + lo * hi := by ring
    _ ≤ b / lo * (m * (mu + 1)) + m * hi :=
        Nat.add_le_add (Nat.mul_le_mul_left _ hmu') (Nat.mul_le_mul_right hi hm)
    _ = q2 * m + b / lo * m + m * hi := by rw [← hq2]; ring
    _ ≤ hi * (q2 / hi + 1) * m + hi * m + m * hi := by gcongr
    _ = (q2 / hi + 3) * m * hi := by ring

end Estimate

/-- Settles O50: the estimate loses at most 2, so what is left is below `3 * m`, which fits in `k + 1`
digits. -/
theorem barrettAlgorithmExact : Obligations.BarrettAlgorithmExact := by
  unfold Obligations.BarrettAlgorithmExact
  intro r m k b q3 x hr hk hlow hhigh hb hq3 hx
  have hlo : 0 < r ^ (k - 1) := Nat.pow_pos (by omega)
  have hm : 0 < m := Nat.lt_of_lt_of_le hlo hlow
  have hsplit : r ^ (2 * k) = r ^ (k - 1) * r ^ (k + 1) := by
    rw [← Nat.pow_add]; congr 1; omega
  have hle : q3 ≤ b / m := by
    rw [hq3, hsplit]; exact barrettEstimate_le_div hm (Nat.pow_pos (by omega))
  have hlt : b < (q3 + 3) * m := by
    rw [hq3, hsplit]; exact lt_barrettEstimate_add_three_mul hlo hlow (hsplit ▸ hb)
  have hmul : q3 * m ≤ b := (Nat.le_div_iff_mul_le hm).1 hle
  have hrest : b - q3 * m < 3 * m := by rw [Nat.add_mul] at hlt; omega
  have hfits : b - q3 * m < r ^ (k + 1) := calc
    b - q3 * m < 3 * m := hrest
    _ ≤ r * r ^ k := Nat.mul_le_mul (by omega) hhigh.le
    _ = r ^ (k + 1) := Nat.pow_succ'.symm
  have hstart : x = b - q3 * m := hx.trans (barrettStart_eq_sub hmul hfits)
  have hturns : x / m ≤ 2 := Nat.le_of_lt_succ ((Nat.div_lt_iff_lt_mul hm).2 (hstart ▸ hrest))
  have hmod : x % m = b % m := by
    rw [hstart, Nat.mul_comm, Nat.sub_mul_mod (by rwa [Nat.mul_comm])]
  have hreduce : barrettReduce r m k (r ^ (2 * k) / m) (r ^ (k + 1)) b = reduceLoop m (x / m) x := by
    rw [hx, hq3]; rfl
  exact ⟨hreduce.trans ((reduceLoop_eq_mod hm le_rfl).trans hmod), hle,
    Nat.le_of_lt_succ ((Nat.div_lt_iff_lt_mul hm).2 hlt), hstart, hturns,
    (reduceLoop_eq_mod hm hturns).trans hmod⟩

end Sys2Proof.Machine
end

section
/-! SUPPORT. The commands of 46_barrett_reduction_engine.md against their rules, one check at a time: O28 to
O31. -/

namespace Sys2Proof.Claims
open Sys2Proof.Machine

/-! ### The slots and their checks -/

/-- A number above 2 names no slot (00_scope.md R11). -/
theorem slotAt_of_le (s : State) {n : Nat} (hn : 3 ≤ n) : slotAt s n = none := by
  obtain ⟨j, rfl⟩ := Nat.exists_eq_add_of_le' hn
  rfl

/-- What every slot number reads after one slot was written. -/
theorem slotAt_of_ms_set {s t : State} {i : Fin 3} {v : Option ModSlot} (h : t.ms = s.ms.set i v)
    (n : Nat) : slotAt t n = if n = i.val then v else slotAt s n := by
  by_cases hn : n < 3
  · obtain ⟨j, rfl⟩ : ∃ j : Fin 3, n = j.val := ⟨⟨n, hn⟩, rfl⟩
    rw [slotAt_eq, slotAt_eq, h, Slots.get_set]
    simp only [Fin.ext_iff]
  · have hle : 3 ≤ n := Nat.not_lt.1 hn
    rw [slotAt_of_le t hle, slotAt_of_le s hle, if_neg (by omega)]

/-- A SLOT operand (30_encoding.md R68). -/
theorem Checked.slot {s : State} {n : Nat} {k : Fin 3 → Except FaultCode State}
    {L : List (Bool × FaultCode)} {P : State → Prop} (h : ∀ i : Fin 3, i.val = n → Checked s (k i) L P) :
    Checked s (slotOperand n >>= k) ((decide (3 ≤ n), .badSlot) :: L) P := by
  rw [slotOperand_eq]
  by_cases hn : n < 3
  · rw [dif_pos hn, except_ok_bind, decide_eq_false (Nat.not_le.2 hn)]
    exact Checked.pass (h ⟨n, hn⟩ rfl)
  · rw [dif_neg hn, except_error_bind, decide_eq_true (Nat.not_lt.1 hn)]
    exact Checked.stop

/-- A slot that must be valid (R110, R112). -/
theorem Checked.modulus {s : State} {i : Fin 3} {k : ModSlot → Except FaultCode State}
    {L : List (Bool × FaultCode)} {P : State → Prop}
    (h : ∀ m, slotAt s i.val = some m → Checked s (k m) L P) :
    Checked s (s.modulus i >>= k) (((slotAt s i.val).isNone, .noModulus) :: L) P := by
  rw [State.modulus, ← slotAt_eq]
  cases hm : slotAt s i.val with
  | none => exact Checked.stop
  | some m => exact Checked.pass (h m hm)

/-- The last read of a rule, when its check is not one of the command's list: the premise `I` of the effect
says that it passes. -/
theorem Checked.readable_of {s : State} {x : Nat} {k : List Nat → Except FaultCode State} {I : Prop}
    {P : State → Prop} (hd : I → poison s x = false)
    (h : Checked s (k (limbsOf s x)) [] fun t => I → P t) :
    Checked s ((s.entry x).readable >>= k) [] fun t => I → P t := by
  cases hp : poison s x
  · rwa [readable_of_not_poison hp, except_ok_bind]
  · refine ⟨nofun, fun _ => ?_⟩
    obtain ⟨t, ht⟩ := finishCommand_next s ((s.entry x).readable >>= k)
    exact ⟨t, ht, fun hI => absurd ((hd hI).symm.trans hp) nofun⟩

/-- The modulus of a valid slot has no `⊥` (10_state.md R43 invariant 3). -/
theorem not_poison_of_slotOk {s : State} {m : ModSlot} (h : SlotOk s m) : poison s m.modh = false := by
  obtain ⟨-, L, hL, -⟩ := h
  simp [poison, hL, putLimbs]

/-! ### The commands -/

/-- Settles O28: the constants of the slot are `slotFor` of the limbs HA holds. -/
theorem setmodRule : Obligations.SetmodRule := by
  refine ⟨fun _ _ => ⟨rfl, rfl⟩, fun s ha slot => Checked.context fun _ => Checked.slot ?_⟩
  rintro i rfl
  refine Checked.handle fun hv => Checked.need (decide_eq_true_iff.trans not_not.symm) fun _ =>
    Checked.need (by rw [slotAt_eq, Bool.not_eq_false]) fun _ => Checked.readable fun hd =>
      Checked.need (by simp [topLimb]) fun _ => Checked.capacity (by rw [limbsOf_length hd]) <| Checked.done ?_
  obtain ⟨htable, -, -⟩ := wroteReceiver_setEntry { s.entry ha with st := .perm } hv
  refine ⟨htable, ?_, fun n hn => ?_, rfl, rfl⟩
  · rw [slotAt_of_ms_set rfl, if_pos rfl, slotFor, limbsOf_length hd]
    rfl
  · rw [slotAt_of_ms_set rfl, if_neg hn]

/-- Settles O29: the modulus handle gets one owner, who gives it up. -/
theorem rstmodRule : Obligations.RstmodRule := by
  refine ⟨fun _ => ⟨rfl, rfl⟩, fun s slot => Checked.named <| Checked.context fun _ => Checked.slot ?_⟩
  rintro i rfl
  refine Checked.modulus fun m hm => Checked.need (by simp [hm]) fun hp => Checked.done ?_
  have hfreed : (s.setEntry m.modh { s.entry m.modh with st := .live, rc := 1 }).releaseHandle m.modh =
      { s with free := m.modh :: s.free }.setEntry m.modh Entry.freed :=
    releaseHandle_setEntry_owned (s.entry m.modh).limbs (lt_of_perm hp)
  rw [hfreed]
  refine ⟨m, hm, ⟨by simp, ?_⟩, rfl, ?_, fun n hn => ?_, rfl, rfl⟩
  · exact State.entry_setEntry (s := { s with free := m.modh :: s.free }) _ (lt_of_perm hp)
  · rw [slotAt_of_ms_set rfl, if_pos rfl]
  · rw [slotAt_of_ms_set rfl, if_neg hn]

/-- Settles O30. -/
theorem selmodRule : Obligations.SelmodRule :=
  ⟨fun _ => ⟨rfl, rfl⟩, fun _ _ => Checked.context fun _ => Checked.slot fun _ hi =>
    Checked.done ⟨hi, congrArg busNat hi, rfl⟩⟩

/-- Settles O31: the modulus of the slot can be read in a sound state. -/
theorem barrettRule : Obligations.BarrettRule :=
  ⟨fun _ => ⟨rfl, rfl⟩, fun s _ => Checked.named_of <| Checked.context fun _ =>
    Checked.receiver fun hv hp hr => Checked.modulus fun m hm => Checked.readable fun _ =>
      Checked.readable_of (fun hs => not_poison_of_slotOk (hs.slots _ m (slotAt_eq s _ ▸ hm))) <|
        Checked.done fun _ => ⟨m, hm, wroteReceiver_result _ hv hp hr⟩⟩

end Sys2Proof.Claims
end

section
/-! SUPPORT. Waiting, halting, a write while BUSY = 1, and reset: O37, O38, O39, O45 (60_exceptions.md R119,
R121, R128; 70_reset_and_hazards.md R131, R145). -/

namespace Sys2Proof.Claims
open Sys2Proof.Machine

/-! ### A waiting and a halted engine -/

/-- Settles O38: both ways to the engine step are the idle one. -/
theorem idleEngineWaits : Obligations.IdleEngineWaits := by
  unfold Obligations.IdleEngineWaits
  intro s hb
  refine ⟨fun hs => ?_, fun rest hs => ?_⟩
  · exact (step_of_nil hs).trans (engineStep_idle hb)
  · exact (step_of_cons hs).trans (engineStep_idle (s := { s with script := rest }) hb)

/-- While HALTED = 1 nothing is issued, so no conflict is pending either (10_state.md R31, R32). -/
theorem idle_of_halted {s : State} (hs : s.ControlInv) (hh : s.halted = true) :
    s.busy = false ∧ s.pconf = false := by
  have hb : s.busy = false := Bool.eq_false_iff.2 fun hb => nomatch hh.symm.trans (hs.busyRuns hb)
  exact ⟨hb, Bool.eq_false_iff.2 fun hp => nomatch hb.symm.trans (hs.conflictBusy hp)⟩

/-- While HALTED = 1 a host write reaches BUF, CMD_LO and CMD_HI only (60_exceptions.md R119). -/
theorem busStore_frame_of_halted {s : State} (hb : s.busy = false) (hh : s.halted = true) (w : Width)
    (offset : Nat) (v : BusWord) :
    { s.busStore w offset v with buf := s.buf, cmdLo := s.cmdLo, cmdHi := s.cmdHi } = s := by
  have hb' : ¬ s.busy = true := Bool.eq_false_iff.1 hb
  unfold State.busStore
  split
  · simp only [State.lowWrite, if_neg hb', if_pos hh]
    split
    · rfl
    · split <;> rfl
  · rw [windowWrite_idle hb]

/-- A step of a halted engine other than reset writes BUF, the issue registers and the host's side only
(60_exceptions.md R119). -/
theorem step_frame_of_halted {s t : State} (hb : s.busy = false) (hh : s.halted = true)
    (hr : s.script.head? ≠ some .reset) (h : step s = .next t) :
    { t with buf := s.buf, cmdLo := s.cmdLo, cmdHi := s.cmdHi, script := s.script, reads := s.reads,
             draws := s.draws } = s := by
  rcases step_eq_next h with ⟨-, e⟩ | ⟨rest, -, e⟩ | ⟨rest, hs, -⟩ | ⟨w, offset, v, rest, -, -, -, rfl⟩ |
    ⟨w, offset, rest, -, -, -, rfl⟩
  · cases (engineStep_idle hb).symm.trans e
    rfl
  · cases (engineStep_idle (s := { s with script := rest }) hb).symm.trans e
    rfl
  · exact absurd (by rw [hs]; rfl) hr
  · exact congrArg (fun u : State => { u with script := s.script, reads := s.reads, draws := s.draws })
      (busStore_frame_of_halted (s := { s with script := rest }) hb hh w offset v)
  · rfl

/-- Settles O37: the frame of a halted step; the two host writes are those of HostWriteIssues and
BufWindowLanes. -/
theorem haltedExecutesNothing : Obligations.HaltedExecutesNothing := by
  unfold Obligations.HaltedExecutesNothing
  intro s t hs hh hr h
  obtain ⟨hb, hp⟩ := idle_of_halted hs hh
  have hframe := step_frame_of_halted hb hh hr h
  refine ⟨(congrArg State.busy hframe :).trans hb, (congrArg State.pconf hframe :).trans hp, hframe,
    fun v rest hw => ?_, fun a v rest hw ha hlt => ?_⟩
  · obtain ⟨-, -, hlatch⟩ := hostWriteIssues s v rest hb
    cases (hlatch hw hh).symm.trans h
    rfl
  · obtain ⟨hwrite, -⟩ := bufWindowLanes s .b8 a rest hb hlt (Nat.mod_one a)
    obtain ⟨u, hu, hbytes, -⟩ := hwrite v hw
    cases hu.symm.trans h
    exact hbytes 0 Nat.one_pos ha

/-! ### BUS_CONFLICT -/

/-- While BUSY = 1 a write to CMD_LO, CMD_HI or the BUF window only records the conflict. -/
theorem busStore_conflict {s : State} (hb : s.busy = true) (w : Width) {offset : Nat} (v : BusWord)
    (ho : offset = 0x10 ∨ offset = 0x14 ∨ 0x10000 ≤ offset) :
    s.busStore w offset v = { s with pconf := true } := by
  rcases ho with rfl | rfl | hge
  · rw [busStore_register v (by decide), State.lowWrite, if_pos rfl, if_pos hb]
  · rw [busStore_register v (by decide), State.lowWrite, if_neg (by decide), if_pos rfl, if_pos hb]
  · rw [State.busStore, bufWindow, if_neg (Nat.not_lt.2 hge), State.windowWrite, if_pos hb]

/-- Any other host write has no effect (10_state.md R33). -/
theorem busStore_other (s : State) (w : Width) {offset : Nat} (v : BusWord)
    (ho : ¬ (offset = 0x10 ∨ offset = 0x14 ∨ 0x10000 ≤ offset)) : s.busStore w offset v = s := by
  simp only [not_or, Nat.not_le] at ho
  obtain ⟨hlo, hhi, hlt⟩ := ho
  rw [busStore_register v hlt, lowWrite_other v hlo hhi]

theorem endStep_of_conflict {s : State} (hp : s.pconf = true) (hh : s.halted = false) :
    s.endStep = { s.raise .busConflict with pconf := false, busy := false } := by
  rw [endStep_eq, if_pos ⟨hp, hh⟩]

theorem endStep_of_halted {s : State} (hh : s.halted = true) :
    s.endStep = { s with pconf := false, busy := false } := by
  rw [endStep_eq, if_neg fun hc => Bool.eq_false_iff.1 hc.2 hh]

/-- The engine step runs the issued command and ends. -/
theorem engineStepIs_of_exec {s t : State} {i : Instr} (hb : s.busy = true) (hh : s.halted = false)
    (hd : decode (s.cmdHi ++ s.cmdLo) = .ok i) (he : exec i s = .next t) : EngineStepIs s t.endStep :=
  engineStepIs_iff.2 (engineStep_of_exec hb hh hd he)

/-- Settles O39: the two kinds of write while BUSY = 1, and the end of the step after a command that did
not, or did, halt the engine. -/
theorem busConflictRule : Obligations.BusConflictRule := by
  unfold Obligations.BusConflictRule
  refine ⟨fun s w offset v rest hs hok hlt hb => ⟨fun ho => ?_, fun ho => ?_⟩,
    fun s t i hb hh hp hd he => ⟨fun ht => ?_, fun ht => ?_⟩⟩
  · rw [step_write hs hlt hok, busStore_conflict (s := { s with script := rest }) hb w v ho]
  · rw [step_write hs hlt hok, busStore_other _ w v ho]
  · have hframe := exec_frame he
    have hpconf : t.pconf = true := (congrArg State.pconf hframe :).trans hp
    have hword : t.issued = s.cmdHi ++ s.cmdLo := (congrArg State.issued hframe :)
    have hstep := engineStepIs_of_exec hb hh hd he
    rwa [endStep_of_conflict hpconf ht, State.raise, hword] at hstep
  · exact endStep_of_halted ht ▸ engineStepIs_of_exec hb hh hd he

/-! ### Reset -/

/-- The reset event leaves the values of 10_state.md R44, whatever the parameters. -/
theorem resetValues_resetEvent (s : State) : ResetValues s.resetEvent := by
  have hslots : ∀ n, slotAt s.resetEvent n = none := fun n => by
    unfold slotAt
    split <;> rfl
  have hstatus : s.resetEvent.status = State.reset.status := rfl
  obtain ⟨-, hzero, -⟩ := statusFields
  exact ⟨⟨List.length_replicate, fun h => s.entry_clearContext h⟩, rfl, hslots, rfl, rfl, rfl, rfl, rfl, rfl,
    rfl, rfl, rfl, rfl, rfl, rfl, fun _ => rfl, hstatus.trans hzero⟩

/-- Settles O45: the reset event happens whatever the control bits are. -/
theorem resetEventValues : Obligations.ResetEventValues := by
  unfold Obligations.ResetEventValues
  intro s rest hs
  exact ⟨_, step_of_cons hs, resetValues_resetEvent { s with script := rest }, rfl, rfl, rfl, rfl⟩

end Sys2Proof.Claims
end

section
/-! SUPPORT. Fault entry, and why POOL_CONSISTENCY is never raised: O58, O59 (60_exceptions.md R115, R118,
R129). -/

namespace Sys2Proof.Claims
open Sys2Proof.Machine

/-- A command that halts a running engine took one of its faults. -/
theorem exec_eq_raise_of_halted {s t : State} {i : Instr} (hh : s.halted = false) (h : exec i s = .next t)
    (ht : t.halted = true) : ∃ c, c ∈ commandFaults i ∧ t = s.raise c := by
  rcases exec_cases h with hfault | ⟨-, -, rfl⟩ | ⟨-, he⟩
  · exact hfault
  · exact nomatch hh.symm.trans ht
  · obtain ⟨hhalted, -, -⟩ := he.faultRegisters
    exact nomatch hh.symm.trans (hhalted.symm.trans ht)

/-- Settles O58: a command halts the engine by a fault entry, and the end of the step keeps that fault. -/
theorem faultEntryPrecise : Obligations.FaultEntryPrecise := by
  unfold Obligations.FaultEntryPrecise
  intro i s t hh h ht
  obtain ⟨c, hc, rfl⟩ := exec_eq_raise_of_halted hh h ht
  exact ⟨c, hc, rfl, fun hb hd => endStep_of_halted ht ▸ engineStepIs_of_exec hb hh hd h⟩

/-! ### POOL_CONSISTENCY -/

/-- The fault of a rule is that of a check that failed. -/
theorem mem_of_firstFault {L : List (Bool × FaultCode)} {c : FaultCode} (h : firstFault L = some c) :
    (true, c) ∈ L := by
  induction L with
  | nil => cases h
  | cons x L ih =>
    obtain ⟨b, d⟩ := x
    rw [firstFault_cons] at h
    cases b
    · exact List.mem_cons_of_mem _ (ih h)
    · cases h
      exact List.mem_cons_self

/-- A handle on FL has no owner in a sound state (10_state.md R18, R23). -/
theorem rc_of_mem_free {s : State} {h : Nat} (hs : s.DataInv) (hm : h ∈ s.free) : (s.entry h).rc = 0 := by
  have hok := hs.entries h
  rw [Entry.Ok, (hs.freeExact h).1 hm] at hok
  exact congrArg Entry.rc hok

/-- The check of POOL_CONSISTENCY passes in a sound state (60_exceptions.md R129). -/
theorem poolConsistency_notMem_poolChecks {s : State} (hs : s.DataInv) :
    (true, .poolConsistency) ∉ poolChecks s := by
  have hpass : (s.free.head?.any fun h => decide ((s.entry h).rc ≠ 0)) = false := by
    cases hf : s.free with
    | nil => rfl
    | cons h fl =>
      have hrc := rc_of_mem_free hs (hf ▸ List.mem_cons_self : h ∈ s.free)
      simp [hrc]
  rw [poolChecks, hpass]
  simp

/-- A rule does not raise a fault whose check passes: the fault it raises is another one, and without one it
leaves FCODE as it was. -/
theorem exec_ne_raise {s : State} {i : Instr} {L : List (Bool × FaultCode)} {c : FaultCode}
    (hcode : s.fcode ≠ c) (hc : (true, c) ∉ L)
    (hfault : ∀ d, firstFault L = some d → exec i s = .next (faulted s d))
    (hpass : firstFault L = none → ∃ t, exec i s = .next t ∧ t.fcode = s.fcode) :
    exec i s ≠ .next (s.raise c) := by
  intro h
  cases hL : firstFault L with
  | none =>
    obtain ⟨t, ht, hkeep⟩ := hpass hL
    cases ht.symm.trans h
    exact hcode hkeep.symm
  | some d =>
    cases (hfault d hL).symm.trans h
    exact hc (mem_of_firstFault hL)

theorem Allocated.fcode {s t : State} {h : Nat} {L : List Limb} (ha : Allocated s t h L) :
    t.fcode = s.fcode := by
  obtain ⟨-, -, -, -, hrest⟩ := ha
  exact (congrArg State.fcode hrest :)

/-- Of the commands that list POOL_CONSISTENCY, none raises it in a sound state. -/
theorem exec_ne_poolConsistency {s : State} {i : Instr} (hs : s.DataInv)
    (hcode : s.fcode ≠ .poolConsistency) (hc : .poolConsistency ∈ commandFaults i) :
    exec i s ≠ .next (s.raise .poolConsistency) := by
  have hpool := poolConsistency_notMem_poolChecks hs
  cases i with
  | alloc skip n =>
    obtain ⟨hfault, hpass⟩ := allocRule.2 s skip n
    exact exec_ne_raise hcode (by simp [allocChecks, noContext, hpool]) hfault fun hL =>
      have ⟨t, _, ht, ha⟩ := hpass hs hL
      ⟨t, ht, ha.fcode⟩
  | alloci imm =>
    obtain ⟨hfault, hpass⟩ := allociRule.2 s imm
    exact exec_ne_raise hcode (by simp [allociChecks, noContext, hpool]) hfault fun hL =>
      have ⟨t, _, ht, ha⟩ := hpass hs hL
      ⟨t, ht, ha.fcode⟩
  | load addr len =>
    obtain ⟨hfault, hpass⟩ := loadRule.2 s addr len
    exact exec_ne_raise hcode (by simp [loadChecks, noContext, hpool]) hfault fun hL =>
      have ⟨t, _, _, _, ht, _, _, _, _, _, ha⟩ := hpass hs hL
      ⟨t, ht, ha.fcode⟩
  | clone ha =>
    obtain ⟨hfault, hpass⟩ := cloneRule.2 s ha
    exact exec_ne_raise hcode (by simp [cloneChecks, noContext, badHandle, hpool]) hfault fun hL =>
      have ⟨t, _, ht, _, ha⟩ := hpass hs hL
      ⟨t, ht, ha.fcode⟩
  | _ => simp [commandFaults] at hc

/-- Settles O59: an effect leaves FCODE as it was, and the fault a command takes is another one. -/
theorem poolConsistencyNeverRaised : Obligations.PoolConsistencyNeverRaised := by
  unfold Obligations.PoolConsistencyNeverRaised
  intro i s t hs hcode h
  rcases exec_cases h with ⟨c, hc, rfl⟩ | ⟨-, -, rfl⟩ | ⟨-, he⟩
  · rintro rfl
    exact exec_ne_poolConsistency hs hcode hc h
  · exact hcode
  · obtain ⟨-, hkeep, -⟩ := he.faultRegisters
    exact hkeep ▸ hcode

end Sys2Proof.Claims
end
